-- ==== Sys2Proof/Word.lean ====
section
/-! DEFINITION. The plain value types of the block. Bytes are bits (00_scope.md R7). Addresses, lengths,
counts and indices are naturals: arithmetic is over the unbounded integers (00_scope.md R8), the widths
are parameters (R6), and the width of each register is a bound that the well-formedness of an
instruction and the invariants of a state say (log 15). -/

namespace Sys2Proof

/-- A byte (00_scope.md R7; 8 bits are general knowledge, log 14). -/
abbrev Byte := BitVec 8

end Sys2Proof
end

