-- ==== Sys2Proof/Config.lean ====
section
/-! DEFINITION. The parameters of the block (00_scope.md R6, R7), the answers of the transport that
no rule determines, and the free values used where nobody supplies such an answer. -/

namespace Sys2Proof

/-- The parameters the spec leaves open (00_scope.md R6). They are fixed at construction
(70_reset_and_hazards.md R186), so the machine carries them in one field that no step writes (log 1). -/
structure Config where
  /-- `CAP`: the size of `storage`; at most `CAP - 1` bytes are held (10_state.md R16). -/
  cap : Nat
  /-- `ADDR_W`: the width of an address of caller memory. -/
  addrW : Nat
  /-- `LEN_W`: the width of a length operand and of the two counters. -/
  lenW : Nat
  /-- `CR`: the carriage-return terminator (log 14). -/
  cr : Byte
  /-- `LF`: the newline byte (log 14). -/
  lf : Byte
  /-- `CB_PRESENT`: a completion callback was registered at construction. -/
  cbPresent : Bool
  /-- `MAX_WAIT`: the argument of a blocking transfer; no rule depends on it (60_exceptions.md R178). -/
  maxWait : Nat
  /-- `RX_COUNT_INCLUDES_CR`: a received CR increments `receivedCount` (90_conflicts.md C3). -/
  rxCountIncludesCr : Bool
  /-- `TX_FALLBACK_SPLIT`: the other reading of the transmit procedure (42_transmission.md R135). -/
  txFallbackSplit : Bool
  /-- `SPURIOUS_TXC`: the transport may raise a transmit-complete event with no transfer in flight. -/
  spuriousTxc : Bool
  /-- The model's own switch between two readings of the spec (log 16): whether a spurious
  transmit-complete event may also come in the set-up window, as 43_completion_events.md R143 has it, or
  not, as 70_reset_and_hazards.md R188 says. -/
  spuriousInSetUp : Bool
  deriving DecidableEq, Repr

namespace Config

/-- The constraints the spec puts on its parameters: `CAP >= 2`, `ADDR_W >= 1`, `2 ^ LEN_W > CAP`
(00_scope.md R6), and `CR` and `LF` differ (91_not_in_source.md N6). -/
abbrev valid (c : Config) : Prop :=
  2 ≤ c.cap ∧ 1 ≤ c.addrW ∧ c.cap < 2 ^ c.lenW ∧ c.cr ≠ c.lf

/-- `IDX_W = ceil(log2 CAP)`, the width of `head` and `tail` (00_scope.md R7). -/
def idxW (c : Config) : Nat := Nat.clog 2 c.cap

/-- `VAL_W = 2 * LEN_W + 1`, the width of a result value (00_scope.md R7). -/
def valW (c : Config) : Nat := 2 * c.lenW + 1

/-- The configuration of the spec's worked examples (95_test_vectors.md), which `State.reset` takes.
DESIGN CHOICE (log 1): the spec leaves every one of these open; `maxWait` is this model's own 0. With
`spuriousInSetUp` true `XP_TX_SPURIOUS` is enabled just where 43_completion_events.md R143 says (log 16). -/
def reference : Config where
  cap := 8
  addrW := 16
  lenW := 8
  cr := 0x0D
  lf := 0x0A
  cbPresent := true
  maxWait := 0
  rxCountIncludesCr := false
  txFallbackSplit := false
  spuriousTxc := true
  spuriousInSetUp := true

end Config

/-- The transport's answer to a blocking reception: `OK(b)` or `ERROR` (20_memory.md R58). -/
inductive BlockingRx where
  | ok (b : Byte)
  | error
  deriving DecidableEq, Repr, Inhabited

/-- The transport's answer to a blocking transmission: `OK`, or `ERROR` after the first `sent` bytes
of the span (all of it where `sent` exceeds its length) reached the wire (20_memory.md R55, R56). -/
inductive BlockingTx where
  | ok
  | error (sent : Nat)
  deriving DecidableEq, Repr, Inhabited

/-- A free value (log 6): the answer to a blocking reception that State does not supply. The
transport chooses it (20_memory.md R58; 93_implementation_defined.md U14, U15). -/
opaque Config.freeBlockingRx : Nat → BlockingRx

/-- A free value (log 6): the answer to a blocking transmission that State does not supply. The
transport chooses it (20_memory.md R55, R56; 93_implementation_defined.md U5, U14). -/
opaque Config.freeBlockingTx : Nat → BlockingTx

/-- What an address of caller memory that nothing has written reads as. DESIGN CHOICE, unsafe
(log 3): the spec leaves the contents at launch open (10_state.md R30, U21). -/
def Config.blankByte : Byte := 0

end Sys2Proof
end

