-- ==== Sys2Proof/Syntax.lean ====
section
/-! DEFINITION. The instructions of the block: its eighteen commands (30_encoding.md R72) and its two
completion events (R77), one constructor for each row of the opcode table. An operand a command
ignores (R71) is no field of its constructor. -/

namespace Sys2Proof

/-- One constructor per row of the opcode table. `a` is the address operand, `n` the length operand
(30_encoding.md R73). -/
inductive Instr where
  /-- `RB_INIT` (40_ring_buffer.md R94) -/
  | rbInit
  /-- `RB_IS_EMPTY` (40_ring_buffer.md R95) -/
  | rbIsEmpty
  /-- `RB_IS_FULL` (40_ring_buffer.md R96) -/
  | rbIsFull
  /-- `RB_FREE_SPACE` (40_ring_buffer.md R97) -/
  | rbFreeSpace
  /-- `RB_WRITE a, n` (40_ring_buffer.md R98) -/
  | rbWrite (a : Nat) (n : Nat)
  /-- `RB_READ a, n` (40_ring_buffer.md R99) -/
  | rbRead (a : Nat) (n : Nat)
  /-- `RB_WRITE_LIN a, n` (40_ring_buffer.md R100) -/
  | rbWriteLin (a : Nat) (n : Nat)
  /-- `RB_READ_LIN a, n` (40_ring_buffer.md R101) -/
  | rbReadLin (a : Nat) (n : Nat)
  /-- `RB_FLUSH a` (40_ring_buffer.md R102) -/
  | rbFlush (a : Nat)
  /-- `RB_FLUSH_LIN a` (40_ring_buffer.md R103) -/
  | rbFlushLin (a : Nat)
  /-- `RX_INIT n` (41_reception.md R111) -/
  | rxInit (n : Nat)
  /-- `RX_START a` (41_reception.md R112) -/
  | rxStart (a : Nat)
  /-- `RX_READ_LINE a, n` (41_reception.md R114) -/
  | rxReadLine (a : Nat) (n : Nat)
  /-- `DRV_STATUS` (41_reception.md R119) -/
  | drvStatus
  /-- `TX_TRANSMIT a, n` (42_transmission.md R131) -/
  | txTransmit (a : Nat) (n : Nat)
  /-- `TX_WRITE_SYNC a, n` (42_transmission.md R132) -/
  | txWriteSync (a : Nat) (n : Nat)
  /-- `CS_ENTER` (44_critical_section.md R155) -/
  | csEnter
  /-- `CS_EXIT s`, `s = n[0]` (44_critical_section.md R156) -/
  | csExit (s : Bool)
  /-- delivery of `EV_RXC` (43_completion_events.md R144) -/
  | evRxc
  /-- delivery of `EV_TXC` (43_completion_events.md R146) -/
  | evTxc
  deriving DecidableEq, Repr

/-- What the outside puts on an input port of the block (30_encoding.md R70): a command word on the
command port, or the two request lines on the event port (`ev[0]` receive, `ev[1]` transmit). -/
inductive PortWord where
  | cmd (w : Nat)
  | evt (lines : BitVec 2)
  deriving DecidableEq, Repr

end Sys2Proof
end

