-- ==== Sys2Proof/WellFormed.lean ====
section
/-! DEFINITION. Which instructions the block's encoding can carry: an address operand has `ADDR_W`
bits, a length operand has `LEN_W` bits (00_scope.md R6; 30_encoding.md R71). -/

namespace Sys2Proof

/-- The operand is an address of caller memory (20_memory.md R40). -/
abbrev addrFits (c : Config) (a : Nat) : Prop := a < 2 ^ c.addrW

/-- The operand fits the length field (00_scope.md R6). -/
abbrev lenFits (c : Config) (n : Nat) : Prop := n < 2 ^ c.lenW

/-- Every operand of the instruction fits its field of the command word (30_encoding.md R71). -/
def Instr.wf (c : Config) : Instr → Bool
  | .rbInit => true
  | .rbIsEmpty => true
  | .rbIsFull => true
  | .rbFreeSpace => true
  | .rbWrite a n => decide (addrFits c a) && decide (lenFits c n)
  | .rbRead a n => decide (addrFits c a) && decide (lenFits c n)
  | .rbWriteLin a n => decide (addrFits c a) && decide (lenFits c n)
  | .rbReadLin a n => decide (addrFits c a) && decide (lenFits c n)
  | .rbFlush a => decide (addrFits c a)
  | .rbFlushLin a => decide (addrFits c a)
  | .rxInit n => decide (lenFits c n)
  | .rxStart a => decide (addrFits c a)
  | .rxReadLine a n => decide (addrFits c a) && decide (lenFits c n)
  | .drvStatus => true
  | .txTransmit a n => decide (addrFits c a) && decide (lenFits c n)
  | .txWriteSync a n => decide (addrFits c a) && decide (lenFits c n)
  | .csEnter => true
  | .csExit _ => true
  | .evRxc => true
  | .evTxc => true

/-- The instruction is one of the eighteen commands, not an event (30_encoding.md R72, R77). -/
def Instr.isCommand : Instr → Bool
  | .rbInit => true
  | .rbIsEmpty => true
  | .rbIsFull => true
  | .rbFreeSpace => true
  | .rbWrite _ _ => true
  | .rbRead _ _ => true
  | .rbWriteLin _ _ => true
  | .rbReadLin _ _ => true
  | .rbFlush _ => true
  | .rbFlushLin _ => true
  | .rxInit _ => true
  | .rxStart _ => true
  | .rxReadLine _ _ => true
  | .drvStatus => true
  | .txTransmit _ _ => true
  | .txWriteSync _ _ => true
  | .csEnter => true
  | .csExit _ => true
  | .evRxc => false
  | .evTxc => false

end Sys2Proof
end

