-- ==== Sys2Proof/Decode.lean ====
section
/-! DEFINITION. From the words on the block's input ports to instructions and back: the command format
`CMD` (30_encoding.md R71, R79), the opcode map (R72), the event lines (R77), illegal opcodes (R78). -/

namespace Sys2Proof

/-- What the decoder says of a port word. -/
inductive Decoded where
  /-- one instruction -/
  | instr (i : Instr)
  /-- both event lines are raised at once (30_encoding.md R77) -/
  | bothEvents
  /-- no event line is raised -/
  | noEvent
  /-- an opcode outside the map (30_encoding.md R78) -/
  | illegal (op : Nat)
  deriving DecidableEq, Repr

/-- Bits `[7:0]` of a command word: the opcode (30_encoding.md R71). -/
def fieldOp (w : Nat) : Nat := w % 2 ^ 8

/-- Bits `[8+ADDR_W-1:8]` of a command word: the address operand (30_encoding.md R71). -/
def fieldA (c : Config) (w : Nat) : Nat := w / 2 ^ 8 % 2 ^ c.addrW

/-- Bits `[8+ADDR_W+LEN_W-1:8+ADDR_W]` of a command word: the length operand (30_encoding.md R71).
Nothing lies above it: the port has no wires there (R70, R79). -/
def fieldN (c : Config) (w : Nat) : Nat := w / 2 ^ (8 + c.addrW) % 2 ^ c.lenW

/-- Bit 0 of a length operand, the saved state of `CS_EXIT` (30_encoding.md R71, R72). -/
def bitZero (n : Nat) : Bool := n % 2 == 1

/-- The opcode map (30_encoding.md R72): the command of an opcode with given operand fields. -/
def commandOf (op : Nat) (a : Nat) (n : Nat) : Option Instr :=
  match op with
  | 0x00 => some .rbInit
  | 0x01 => some .rbIsEmpty
  | 0x02 => some .rbIsFull
  | 0x03 => some .rbFreeSpace
  | 0x04 => some (.rbWrite a n)
  | 0x05 => some (.rbRead a n)
  | 0x06 => some (.rbWriteLin a n)
  | 0x07 => some (.rbReadLin a n)
  | 0x08 => some (.rbFlush a)
  | 0x09 => some (.rbFlushLin a)
  | 0x10 => some (.rxInit n)
  | 0x11 => some (.rxStart a)
  | 0x12 => some (.rxReadLine a n)
  | 0x13 => some .drvStatus
  | 0x20 => some (.txTransmit a n)
  | 0x21 => some (.txWriteSync a n)
  | 0x30 => some .csEnter
  | 0x31 => some (.csExit (bitZero n))
  | _ => none

/-- Decode a word of the command port (30_encoding.md R71, R72, R78). -/
def decodeCmd (c : Config) (w : Nat) : Decoded :=
  match commandOf (fieldOp w) (fieldA c w) (fieldN c w) with
  | some i => .instr i
  | none => .illegal (fieldOp w)

/-- The receive-complete line `ev[0]` is raised (30_encoding.md R77). -/
def lineRxc (lines : BitVec 2) : Bool := lines.getLsbD 0

/-- The transmit-complete line `ev[1]` is raised (30_encoding.md R77). -/
def lineTxc (lines : BitVec 2) : Bool := lines.getLsbD 1

/-- Decode the event port (30_encoding.md R77: `x1` is `EV_RXC`, `1x` is `EV_TXC`). -/
def decodeEvt (lines : BitVec 2) : Decoded :=
  match lineRxc lines, lineTxc lines with
  | true, true => .bothEvents
  | true, false => .instr .evRxc
  | false, true => .instr .evTxc
  | false, false => .noEvent

/-- Decode whatever stands on an input port (30_encoding.md R70). -/
def decode (c : Config) : PortWord → Decoded
  | .cmd w => decodeCmd c w
  | .evt lines => decodeEvt lines

/-- A command word from its three fields (30_encoding.md R71). -/
def cmdWord (c : Config) (op : Nat) (a : Nat) (n : Nat) : PortWord :=
  .cmd (op + a * 2 ^ 8 + n * 2 ^ (8 + c.addrW))

/-- The word of an instruction, from the opcode map (30_encoding.md R72) and the event lines (R77); a
field that the command ignores (R71) is written as 0. -/
def encode (c : Config) : Instr → PortWord
  | .rbInit => cmdWord c 0x00 0 0
  | .rbIsEmpty => cmdWord c 0x01 0 0
  | .rbIsFull => cmdWord c 0x02 0 0
  | .rbFreeSpace => cmdWord c 0x03 0 0
  | .rbWrite a n => cmdWord c 0x04 a n
  | .rbRead a n => cmdWord c 0x05 a n
  | .rbWriteLin a n => cmdWord c 0x06 a n
  | .rbReadLin a n => cmdWord c 0x07 a n
  | .rbFlush a => cmdWord c 0x08 a 0
  | .rbFlushLin a => cmdWord c 0x09 a 0
  | .rxInit n => cmdWord c 0x10 0 n
  | .rxStart a => cmdWord c 0x11 a 0
  | .rxReadLine a n => cmdWord c 0x12 a n
  | .drvStatus => cmdWord c 0x13 0 0
  | .txTransmit a n => cmdWord c 0x20 a n
  | .txWriteSync a n => cmdWord c 0x21 a n
  | .csEnter => cmdWord c 0x30 0 0
  | .csExit s => cmdWord c 0x31 0 s.toNat
  | .evRxc => .evt 0b01
  | .evTxc => .evt 0b10

/-- The port word that `nbits` bits `w` of a row of the opcode table stand for (log 13): a row of the
command format has at least the 8 bits of its opcode, a row of the event format fewer. -/
def tablePortWord (nbits w : Nat) : PortWord :=
  if nbits < 8 then .evt (BitVec.ofNat 2 (w % 2 ^ nbits)) else .cmd (w % 2 ^ nbits)

/-- What this decoder reads from the bits of a row of the opcode table, at the widths of the
configuration that reset takes. The rows `EV_RXC` and `EV_TXC` have the bits of `RB_IS_EMPTY` and
`RB_IS_FULL` when they are padded to a whole byte: they stand on another port (log 13). -/
def decodeTableWord (nbits w : Nat) : Option Instr :=
  match decode Config.reference (tablePortWord nbits w) with
  | .instr i => some i
  | .bothEvents => none
  | .noEvent => none
  | .illegal _ => none

end Sys2Proof
end

