-- ==== Sys2Proof/Machine/State.lean ====
section
/-! DEFINITION. The state of the block (10_state.md R13), its reset (R30), and the reasons a step can
have no meaning (00_scope.md R10). State is plain data. The groups of fields are the groups of the
table of R13; `cfg`, `ports`, `env` and `runRefused` are the model's own (logs 1, 12, 4, 6, 7). -/

namespace Sys2Proof.Machine

/-- Caller memory (10_state.md R28): a list of cells with rising addresses, none equal to what an
unlisted address reads as (log 3). -/
abbrev Memory := List Host.Cell

/-- The ring buffer's registers (10_state.md R14, R15). -/
structure Ring where
  /-- `CAP` bytes, internal to the block -/
  storage : List Byte
  /-- index of the next byte to be read -/
  head : Nat
  /-- index of the next free slot to write -/
  tail : Nat
  deriving DecidableEq, Repr

/-- The driver's registers (10_state.md R18). -/
structure Driver where
  busy : Bool
  requestedLength : Nat
  receivedCount : Nat
  cursor : Option Nat
  deriving DecidableEq, Repr

/-- The arbiter's bits (10_state.md R22, R23). -/
structure Arbiter where
  /-- completion events may be delivered -/
  ie : Bool
  /-- a receive-complete event waits for delivery -/
  pendRxc : Bool
  /-- a transmit-complete event waits for delivery -/
  pendTxc : Bool
  deriving DecidableEq, Repr

/-- The transport's state, as far as the block depends on it (10_state.md R24). -/
structure Transport where
  /-- an accepted one-byte reception into this address waits for its byte -/
  rxArmed : Option Nat
  /-- an accepted transmission has not had its event delivered -/
  txActive : Bool
  deriving DecidableEq, Repr

/-- The phase of a line read (10_state.md R25). -/
inductive Phase where
  | recv
  | finish (sawCR : Bool)
  deriving DecidableEq, Repr

/-- What a foreground call of the transmit procedure was made for, and so what follows it: it is kept
across the two steps that the call has under `TX_FALLBACK_SPLIT` (42_transmission.md R135, log 11). -/
inductive TxCall where
  /-- `TX_TRANSMIT` (42_transmission.md R131) -/
  | transmit
  /-- `TX_WRITE_SYNC` of `n` bytes (42_transmission.md R132) -/
  | writeSync (n : Nat)
  /-- the echo of a byte of the line read into `dest`, `len` (41_reception.md R115) -/
  | echo (dest : Nat) (len : Nat)
  /-- the CR LF that ends a line read of `stored` slots (41_reception.md R116) -/
  | line (stored : Nat)
  deriving DecidableEq, Repr

/-- The foreground sequencer (10_state.md R25). `enqueue` exists only under `TX_FALLBACK_SPLIT`: the
transport refused these bytes and their enqueue is the next foreground step (42_transmission.md R135). -/
inductive Fg where
  | idle
  | readLine (dest : Nat) (len : Nat) (phase : Phase)
  | enqueue (bytes : List Byte) (call : TxCall)
  deriving DecidableEq, Repr

/-- Ghost bits (10_state.md R26). -/
structure Ghost where
  /-- a successful `RX_INIT` waits for its `RX_START` -/
  armed : Bool
  /-- a request of the transport has been made since reset -/
  xportUsed : Bool
  deriving DecidableEq, Repr

/-- Observations (10_state.md R27). -/
structure Obs where
  /-- the bytes handed to the transport, in the order it accepted them -/
  wire : List Byte
  /-- the number of `rx_done` notifications -/
  cbCount : Nat
  deriving DecidableEq, Repr

/-- Status codes (30_encoding.md R76). -/
inductive Status where
  | ok
  | errBusy
  | errFull
  | errEmpty
  | errBadLength
  | errHw
  | illegal
  deriving DecidableEq, Repr

/-- What a command presents on the result port (30_encoding.md R74). -/
structure Result where
  status : Status
  /-- `VAL_W` bits (30_encoding.md R75) -/
  value : Nat
  deriving DecidableEq, Repr

/-- The transport's answer to a request to start an asynchronous transfer (20_memory.md R51). -/
inductive AsyncAnswer where
  | accepted
  | busy
  deriving DecidableEq, Repr

/-- One request on the transport port with its answer (20_memory.md R51, R53 to R58). -/
inductive Exchange where
  /-- `beginAsyncTransfer(transmit, bytes, length)` -/
  | txAsync (bytes : List Byte) (answer : AsyncAnswer)
  /-- `beginAsyncTransfer(receive, a, 1)` -/
  | rxArm (a : Nat) (answer : AsyncAnswer)
  /-- `blockingTransfer(transmit, bytes, length, maxWait)` -/
  | txBlocking (bytes : List Byte) (maxWait : Nat) (answer : BlockingTx)
  /-- `blockingTransfer(receive, slot, 1, maxWait)` -/
  | rxBlocking (maxWait : Nat) (answer : BlockingRx)
  deriving DecidableEq, Repr

/-- What the last step presented on the block's output ports (30_encoding.md R70; log 12). -/
structure Ports where
  /-- the result port, if a command finished in the step -/
  res : Option Result
  /-- the one-step pulse `rx_done` -/
  rxDone : Bool
  /-- the transport port: the requests of the step, in order, with their answers -/
  exchanges : List Exchange
  deriving DecidableEq, Repr

/-- Nothing on any output port. -/
def Ports.quiet : Ports := { res := none, rxDone := false, exchanges := [] }

/-- What the foreground will do next (00_scope.md R11; 20_memory.md R69). -/
inductive FgOp where
  /-- present a command word on the command port -/
  | cmd (w : Nat)
  /-- the software itself writes a byte of caller memory -/
  | store (a : Nat) (b : Byte)
  deriving DecidableEq, Repr

/-- Whose step is next (60_exceptions.md R171), with the byte where the environment chooses one. -/
inductive Turn where
  /-- the foreground: the command in progress, else the next entry of its program -/
  | fg
  /-- `XP_RX_ARRIVE(b)` (43_completion_events.md R141) -/
  | rxArrive (b : Byte)
  /-- `XP_TX_DONE` (43_completion_events.md R142) -/
  | txDone
  /-- `XP_TX_SPURIOUS` (43_completion_events.md R143) -/
  | txSpurious
  /-- delivery of `EV_RXC` (43_completion_events.md R144) -/
  | evRxc
  /-- delivery of `EV_TXC` (43_completion_events.md R146) -/
  | evTxc
  deriving DecidableEq, Repr

/-- The outside world, as plain data the step reads (logs 4, 6). -/
structure Env where
  /-- the foreground's program -/
  prog : List FgOp
  /-- whose turn the next steps are; past its end every turn is the foreground's -/
  sched : List Turn
  /-- the transport's answers to the next blocking receptions -/
  rxAns : List BlockingRx
  /-- the transport's answers to the next blocking transmissions -/
  txAns : List BlockingTx
  /-- the argument of the next free answer -/
  draws : Nat
  deriving DecidableEq, Repr

/-- The state of the block (10_state.md R13). -/
structure State where
  cfg : Config
  ring : Ring
  drv : Driver
  arb : Arbiter
  xp : Transport
  fg : Fg
  ghost : Ghost
  obs : Obs
  mem : Memory
  ports : Ports
  env : Env
  /-- the run counts as refused: it has issued an opcode outside the map (30_encoding.md R78; U10;
  log 7). No rule reads it; that it is a field is a DESIGN CHOICE. -/
  runRefused : Bool
  deriving DecidableEq, Repr

/-- The block has no fault state and no trap (00_scope.md R10; 60_exceptions.md R160): this type has
no constructor, so nobody raises a fault. Safe: no step can answer one. -/
inductive Fault where
  deriving DecidableEq, Repr

/-- The steps to which the spec gives no meaning (00_scope.md R10 (b)): each is a contract of the
caller or of the transport that is broken. All are safe: the model stops and claims nothing. -/
inductive Refusal where
  /-- Raised by an arm of `exec` whose instruction has no meaning in this model yet. Safe. -/
  | notModelled (mnemonic : String)
  /-- Raised by `RB_INIT`, `RB_WRITE_LIN`, `RB_READ_LIN`, `RB_FLUSH_LIN` without exclusivity
  (40_ring_buffer.md R93; U1). Safe. -/
  | exclusivityNotHeld
  /-- Raised by every command with an address operand, and by a memory write of the foreground, whose
  span runs past the top of the address space (20_memory.md R47; U9). Safe. -/
  | spanWraps
  /-- Raised by `RX_START` in state IDLE (41_reception.md R113; U3). Safe. -/
  | rxStartWithoutRxInit
  /-- Raised by `RX_READ_LINE` with `n = 0` (41_reception.md R118; U7). Safe. -/
  | lineReadOfLengthZero
  /-- Raised by `TX_TRANSMIT` and `TX_WRITE_SYNC` with `n = 0` (42_transmission.md R133; U8). Safe. -/
  | transmitOfLengthZero
  /-- Raised by `RX_START` and the handler of `EV_RXC` when the transport answers `BUSY` to the arm
  (20_memory.md R57; U6). Safe. -/
  | receiveArmNotAccepted
  /-- Raised by the delivery of `EV_RXC` with no reception behind it (43_completion_events.md R145;
  U4). Safe. -/
  | receiveCompleteWithNoReception
  /-- Raised by a foreground step that writes a byte of the destination span of a pending reception:
  a memory write of the software, `RB_READ`, `RB_READ_LIN`, `RB_FLUSH`, `RB_FLUSH_LIN`
  (70_reset_and_hazards.md R192; U12; log 9). Safe. -/
  | loanedByteWritten
  deriving DecidableEq, Repr

/-- The three outcomes of a step of the block (00_scope.md R10). -/
abbrev Out := Host.Outcome State Fault Refusal

/-- The block right after reset with a given configuration, given contents of `storage` and given
caller memory: the spec leaves those open (10_state.md R30; U11, U19, U21). Every other register has
the value R30 gives it. -/
def State.resetWith (cfg : Config) (storage : List Byte) (mem : Memory) : State where
  cfg := cfg
  ring := { storage := storage, head := 0, tail := 0 }
  drv := { busy := false, requestedLength := 0, receivedCount := 0, cursor := none }
  arb := { ie := true, pendRxc := false, pendTxc := false }
  xp := { rxArmed := none, txActive := false }
  fg := .idle
  ghost := { armed := false, xportUsed := false }
  obs := { wire := [], cbCount := 0 }
  mem := mem
  ports := Ports.quiet
  env := { prog := [], sched := [], rxAns := [], txAns := [], draws := 0 }
  runRefused := false

/-- The machine right after reset (10_state.md R30). DESIGN CHOICE, unsafe: the configuration of the
spec's examples (log 1), `storage` all zero (log 2), caller memory with nothing listed (log 3). -/
def State.reset : State :=
  State.resetWith Config.reference (List.replicate Config.reference.cap 0) []

end Sys2Proof.Machine
end

