-- ==== Sys2Proof/Machine/Flags.lean ====
section
/-! DEFINITION. The flags the block computes rather than stores (10_state.md R21), the predicates that
decide whether a step may run, the reception state (R20), and the numbers of the status codes. -/

namespace Sys2Proof.Machine

/-- `IsEmpty = (head == tail)` (10_state.md R21; 40_ring_buffer.md R90). -/
def Ring.isEmpty (r : Ring) : Bool := r.head == r.tail

/-- `IsFull = ((tail + 1) mod CAP == head)` (10_state.md R21; 40_ring_buffer.md R90). -/
def Ring.isFull (cap : Nat) (r : Ring) : Bool := (r.tail + 1) % cap == r.head

/-- `Excl = (ie == 0) or (xportUsed == 0)` (40_ring_buffer.md R93). -/
def State.excl (s : State) : Bool := !s.arb.ie || !s.ghost.xportUsed

/-- A receive-complete event is deliverable (60_exceptions.md R169; 43_completion_events.md R144). -/
def State.rxcDeliverable (s : State) : Bool := s.arb.pendRxc && s.arb.ie

/-- A transmit-complete event is deliverable (60_exceptions.md R169; 43_completion_events.md R146). -/
def State.txcDeliverable (s : State) : Bool := s.arb.pendTxc && s.arb.ie

/-- The transport answers `BUSY` to an asynchronous transmission (20_memory.md R53, R54). -/
def State.txBusy (s : State) : Bool := s.xp.txActive || s.arb.pendTxc

/-- The set-up window: the foreground holds exclusivity without a critical section, that is, also where
events are enabled (70_reset_and_hazards.md R188). -/
def State.setUpWindow (s : State) : Bool := { s with arb := { s.arb with ie := true } }.excl

/-- `XP_TX_SPURIOUS` is enabled (43_completion_events.md R143): the transport may raise such events, no
transmission is active and no event is pending. Where the switch `spuriousInSetUp` is off, also not in the
set-up window (70_reset_and_hazards.md R188; log 16). -/
def State.spuriousEnabled (s : State) : Bool :=
  s.cfg.spuriousTxc && !s.xp.txActive && !s.arb.pendTxc && (s.cfg.spuriousInSetUp || !s.setUpWindow)

/-- The line read is in progress: in the form of R25, or waiting for the enqueue of one of its
transmissions (42_transmission.md R135). -/
def Fg.inLine : Fg → Bool
  | .idle => false
  | .readLine _ _ _ => true
  | .enqueue _ .transmit => false
  | .enqueue _ (.writeSync _) => false
  | .enqueue _ (.echo _ _) => true
  | .enqueue _ (.line _) => true

/-- The states of the reception state machine (10_state.md R20). -/
inductive RxState where
  | idle
  | armed
  | receiving
  | blockingRead
  deriving DecidableEq, Repr

/-- The reception state is a function of `busy`, `armed` and `fg` (10_state.md R20). -/
def State.rxState (s : State) : RxState :=
  if s.drv.busy then (if s.fg.inLine then .blockingRead else .receiving)
  else (if s.ghost.armed then .armed else .idle)

/-- The numbers of the status codes (30_encoding.md R76). -/
def Status.code : Status → BitVec 8
  | .ok => 0x00
  | .errBusy => 0x01
  | .errFull => 0x02
  | .errEmpty => 0x03
  | .errBadLength => 0x04
  | .errHw => 0x05
  | .illegal => 0xFF

end Sys2Proof.Machine
end

