-- ==== Sys2Proof/Machine/Operands.lean ====
section
/-! DEFINITION. Operands and results: spans of caller memory and their precondition (30_encoding.md
R73; 20_memory.md R42, R47), the loan (R48), the packing of result values (30_encoding.md R75). -/

namespace Sys2Proof.Machine

/-- The byte at an address; an address not listed reads as the blank byte (20_memory.md R41; log 3). -/
def Memory.read : Memory → Nat → Byte
  | [], _ => Config.blankByte
  | (k, b) :: rest, a => if a = k then b else Memory.read rest a

/-- Store one byte (20_memory.md R42), keeping the list's canonical form: rising addresses, and no
entry equal to what an unlisted address reads as. -/
def Memory.write : Memory → Nat → Byte → Memory
  | [], a, v => if v = Config.blankByte then [] else [(a, v)]
  | (k, b) :: rest, a, v =>
    if a < k then (if v = Config.blankByte then (k, b) :: rest else (a, v) :: (k, b) :: rest)
    else if a = k then (if v = Config.blankByte then rest else (a, v) :: rest)
    else (k, b) :: Memory.write rest a v

/-- The canonical form of caller memory. -/
abbrev Memory.wf (m : Memory) : Prop :=
  m.Pairwise (fun x y => x.1 < y.1) ∧ ∀ x ∈ m, x.2 ≠ Config.blankByte

/-- `MemRead(a, n)`: the bytes at `a`, `a+1`, ..., `a+n-1` (00_scope.md R9; 20_memory.md R42). -/
def Memory.readSpan (m : Memory) (a : Nat) : Nat → List Byte
  | 0 => []
  | n + 1 => Memory.read m a :: Memory.readSpan m (a + 1) n

/-- `MemWrite(a, n, v)`: element `i` of `v` at `a + i` (00_scope.md R9; 20_memory.md R42). -/
def Memory.writeSpan (m : Memory) (a : Nat) : List Byte → Memory
  | [] => m
  | b :: bs => Memory.writeSpan (Memory.write m a b) (a + 1) bs

/-- The span of `n` bytes at `a` does not run past the top of the address space (20_memory.md R47). -/
def spanFits (c : Config) (a : Nat) (n : Nat) : Bool := decide (a + n ≤ 2 ^ c.addrW)

/-- The length of the destination span a flush must be given (20_memory.md R47; 70_reset_and_hazards.md
R200). -/
def flushLen (c : Config) : Nat := c.cap - 1

/-- The address lies in the destination span of the pending reception (20_memory.md R48). The span
starts `receivedCount` below the cursor, which has advanced by one for each byte counted (log 9). -/
def State.onLoan (s : State) (a : Nat) : Bool :=
  match s.drv.cursor with
  | some c =>
    s.drv.busy && decide (c ≤ a + s.drv.receivedCount) &&
      decide (a + s.drv.receivedCount < c + s.drv.requestedLength)
  | none => false

/-- Some byte of the span of `n` bytes at `a` is on loan (20_memory.md R48; 70_reset_and_hazards.md
R192). -/
def State.spanOnLoan (s : State) (a : Nat) : Nat → Bool
  | 0 => false
  | n + 1 => s.onLoan a || State.spanOnLoan s (a + 1) n

/-- `-1` as a result value: all `VAL_W` bits one (00_scope.md R7; 30_encoding.md R75). -/
def minusOne (c : Config) : Nat := 2 ^ c.valW - 1

/-- `{busy, requestedLength, receivedCount}` (30_encoding.md R75; 41_reception.md R119). -/
def packStatus (c : Config) (d : Driver) : Nat :=
  d.busy.toNat * 2 ^ (2 * c.lenW) + d.requestedLength * 2 ^ c.lenW + d.receivedCount

end Sys2Proof.Machine
end

