-- ==== Sys2Proof/Machine/Ops.lean ====
section
/-! DEFINITION. The operations the meanings share: the ring buffer's primitives and block copies, the
result port, the bracket of a critical section, the four requests of the transport, the transmit
procedure, and the delivery of an event. -/

namespace Sys2Proof.Machine

/-! ### The ring buffer -/

/-- `Stored = (tail - head) mod CAP`, over the integers (40_ring_buffer.md R90; 00_scope.md R8). -/
def Ring.stored (cap : Nat) (r : Ring) : Nat := (((r.tail : Int) - r.head) % cap).toNat

/-- `Free = (head - tail - 1) mod CAP`, over the integers (40_ring_buffer.md R90; 00_scope.md R8). -/
def Ring.free (cap : Nat) (r : Ring) : Nat := (((r.head : Int) - r.tail - 1) % cap).toNat

/-- `storage[i]` (00_scope.md R9). -/
def Ring.slot (r : Ring) (i : Nat) : Byte := r.storage.getD i 0

/-- `PushByte(b)` (40_ring_buffer.md R92). -/
def Ring.push (cap : Nat) (r : Ring) (b : Byte) : Ring :=
  { r with storage := r.storage.set r.tail b, tail := (r.tail + 1) % cap }

/-- The byte that `PopByte()` returns (40_ring_buffer.md R92). -/
def Ring.front (r : Ring) : Byte := r.slot r.head

/-- The registers after `PopByte()` (40_ring_buffer.md R92): the slot keeps its byte. -/
def Ring.drop (cap : Nat) (r : Ring) : Ring := { r with head := (r.head + 1) % cap }

/-- `for i in 0 .. k-1: PushByte(bytes[i])` (40_ring_buffer.md R98; 42_transmission.md R130). -/
def Ring.pushAll (cap : Nat) (r : Ring) : List Byte → Ring
  | [] => r
  | b :: bs => Ring.pushAll cap (r.push cap b) bs

/-- The bytes that `n` calls of `PopByte()` return, oldest first (40_ring_buffer.md R99). -/
def Ring.popBytes (cap : Nat) (r : Ring) : Nat → List Byte
  | 0 => []
  | n + 1 => r.front :: Ring.popBytes cap (r.drop cap) n

/-- The registers after `n` calls of `PopByte()` (40_ring_buffer.md R99). -/
def Ring.popN (cap : Nat) (r : Ring) : Nat → Ring
  | 0 => r
  | n + 1 => Ring.popN cap (r.drop cap) n

/-- A block copy into `storage` from index `i` upwards (40_ring_buffer.md R100). -/
def copyIn (storage : List Byte) (i : Nat) : List Byte → List Byte
  | [] => storage
  | b :: bs => copyIn (storage.set i b) (i + 1) bs

/-- A block copy of `n` bytes out of `storage` from index `i` upwards (40_ring_buffer.md R101). -/
def Ring.copyOut (r : Ring) (i : Nat) : Nat → List Byte
  | 0 => []
  | n + 1 => r.slot i :: Ring.copyOut r (i + 1) n

/-- The two block copies of a linear write (40_ring_buffer.md R100). -/
def Ring.writeLinear (cap : Nat) (r : Ring) (bytes : List Byte) : Ring :=
  let n1 := min bytes.length (cap - r.tail)
  { r with
    storage := copyIn (copyIn r.storage r.tail (bytes.take n1)) 0 (bytes.drop n1)
    tail := (r.tail + bytes.length) % cap }

/-- The bytes the two block copies of a linear read deliver (40_ring_buffer.md R101, R103). -/
def Ring.linearBytes (cap : Nat) (r : Ring) (n : Nat) : List Byte :=
  let n1 := min n (cap - r.head)
  r.copyOut r.head n1 ++ r.copyOut 0 (n - n1)

/-- The registers after a linear read of `n` bytes (40_ring_buffer.md R101, R103). -/
def Ring.dropLinear (cap : Nat) (r : Ring) (n : Nat) : Ring := { r with head := (r.head + n) % cap }

/-- The queue `Q` of the stored bytes, oldest first (40_ring_buffer.md R105; 10_state.md R17). -/
def Ring.queue (cap : Nat) (r : Ring) : List Byte :=
  (List.range (r.stored cap)).map fun i => r.slot ((r.head + i) % cap)

/-! ### The result port and the notification -/

/-- `result(status, value)` (00_scope.md R9; 30_encoding.md R74). -/
def State.present (s : State) (status : Status) (value : Nat) : State :=
  { s with ports := { s.ports with res := some { status := status, value := value } } }

/-- `notify rx_done`, if a callback is registered (41_reception.md R122). -/
def State.notifyRxDone (s : State) : State :=
  if s.cfg.cbPresent then
    { s with
      ports := { s.ports with rxDone := true }
      obs := { s.obs with cbCount := s.obs.cbCount + 1 } }
  else s

/-- The end of an asynchronous reception: `notify rx_done` and `busy <- 0` (43_completion_events.md
R144; 41_reception.md R122). -/
def State.endReception (s : State) : State :=
  let t := s.notifyRxDone
  { t with drv := { t.drv with busy := false } }

/-! ### Caller memory and the registers -/

/-- `MemWrite(a, n, v)` on the state (00_scope.md R9). -/
def State.writeMem (s : State) (a : Nat) (v : List Byte) : State :=
  { s with mem := Memory.writeSpan s.mem a v }

/-- The count after a received carriage return (43_completion_events.md R144; 41_reception.md R115). -/
def countAfterCr (c : Config) (count : Nat) : Nat := if c.rxCountIncludesCr then count + 1 else count

/-- Store `receivedCount`. -/
def State.setCount (s : State) (n : Nat) : State := { s with drv := { s.drv with receivedCount := n } }

/-! ### The critical section -/

/-- The internal bracket `saved <- ie; ie <- 0; ...; ie <- saved` (44_critical_section.md R158). -/
def critical {α : Type} (body : State → α × State) (s : State) : α × State :=
  let r := body { s with arb := { s.arb with ie := false } }
  (r.1, { r.2 with arb := { r.2.arb with ie := s.arb.ie } })

/-! ### The transport port -/

/-- A request has been made and answered on the transport port (20_memory.md R51). -/
def State.exchange (s : State) (e : Exchange) : State :=
  { s with
    ghost := { s.ghost with xportUsed := true }
    ports := { s.ports with exchanges := s.ports.exchanges ++ [e] } }

/-- `XportTxAsync(bytes)` (20_memory.md R53, R54). -/
def xportTxAsync (bytes : List Byte) (s : State) : AsyncAnswer × State :=
  if s.txBusy then (.busy, s.exchange (.txAsync bytes .busy))
  else
    let t := s.exchange (.txAsync bytes .accepted)
    (.accepted,
      { t with
        xp := { t.xp with txActive := true }
        obs := { t.obs with wire := t.obs.wire ++ bytes } })

/-- The answer to the next blocking reception: the one State supplies, else a free one (20_memory.md
R58; log 6). -/
def State.nextRx (s : State) : BlockingRx :=
  match s.env.rxAns with
  | r :: _ => r
  | [] => Config.freeBlockingRx s.env.draws

/-- The answer to a blocking reception has been used up (log 6). -/
def State.tookRx (s : State) : State :=
  match s.env.rxAns with
  | _ :: rest => { s with env := { s.env with rxAns := rest } }
  | [] => { s with env := { s.env with draws := s.env.draws + 1 } }

/-- The answer to the next blocking transmission: the one State supplies, else a free one (20_memory.md
R55, R56; log 6). -/
def State.nextTx (s : State) : BlockingTx :=
  match s.env.txAns with
  | r :: _ => r
  | [] => Config.freeBlockingTx s.env.draws

/-- The answer to a blocking transmission has been used up (log 6). -/
def State.tookTx (s : State) : State :=
  match s.env.txAns with
  | _ :: rest => { s with env := { s.env with txAns := rest } }
  | [] => { s with env := { s.env with draws := s.env.draws + 1 } }

/-- `XportRxBlocking()` (20_memory.md R58). -/
def xportRxBlocking (s : State) : BlockingRx × State :=
  (s.nextRx, s.tookRx.exchange (.rxBlocking s.cfg.maxWait s.nextRx))

/-- The bytes of a blocking transmission that reach the wire: all, or a prefix (20_memory.md R55, R56). -/
def sentBytes : BlockingTx → List Byte → List Byte
  | .ok, bytes => bytes
  | .error sent, bytes => bytes.take sent

/-- `XportTxBlocking(bytes)` (20_memory.md R55, R56): it raises no event and leaves `txActive` alone. -/
def xportTxBlocking (bytes : List Byte) (s : State) : BlockingTx × State :=
  if s.xp.txActive then
    (.error 0, s.exchange (.txBlocking bytes s.cfg.maxWait (.error 0)))
  else
    let t := s.tookTx.exchange (.txBlocking bytes s.cfg.maxWait s.nextTx)
    (s.nextTx, { t with obs := { t.obs with wire := t.obs.wire ++ sentBytes s.nextTx bytes } })

/-- `XportRxArm(a)` (20_memory.md R57). The transport is occupied, and so answers `BUSY`, while a
reception is armed or its event waits (log 10); under the contract it never is. -/
def xportRxArm (a : Nat) (s : State) : AsyncAnswer × State :=
  if s.xp.rxArmed.isSome || s.arb.pendRxc then (.busy, s.exchange (.rxArm a .busy))
  else
    let t := s.exchange (.rxArm a .accepted)
    (.accepted, { t with xp := { t.xp with rxArmed := some a } })

/-- Arm a reception and go on; a `BUSY` answer is refused (20_memory.md R57). -/
def armThen (a : Nat) (k : State → Out) (s : State) : Out :=
  match xportRxArm a s with
  | (.accepted, t) => k t
  | (.busy, _) => .refused .receiveArmNotAccepted

/-! ### The transmit procedure -/

/-- The enqueue of a refused span: the test of `Free` and the pushes (42_transmission.md R130). -/
def enqueueBytes (bytes : List Byte) (s : State) : Status × State :=
  if s.ring.free s.cfg.cap < bytes.length then (.errFull, s)
  else (.ok, { s with ring := s.ring.pushAll s.cfg.cap bytes })

/-- `Transmit(bytes)` as one atomic piece (42_transmission.md R130). -/
def transmit (bytes : List Byte) (s : State) : Status × State :=
  critical (fun t =>
    match xportTxAsync bytes t with
    | (.accepted, u) => (.ok, u)
    | (.busy, u) => enqueueBytes bytes u) s

/-- `busy <- 0; fg <- Idle`: the foreground leaves a line read (41_reception.md R115, R116, R117). -/
def State.leaveLine (s : State) : State :=
  { s with drv := { s.drv with busy := false }, fg := .idle }

/-- What follows a foreground call of `Transmit` that returned `status`: the result of the command
(42_transmission.md R131, R132), the count of the echoed byte (41_reception.md R115), or the end of the
line read (R116). -/
def afterTransmit (call : TxCall) (status : Status) (s : State) : State :=
  match call with
  | .transmit => { s with fg := .idle }.present status 0
  | .writeSync n =>
    if status = .ok then { s with fg := .idle }.present .ok n
    else { s with fg := .idle }.present .errFull (minusOne s.cfg)
  | .echo dest len =>
    let p := s.drv.receivedCount
    { s.setCount (p + 1) with
      fg := .readLine dest len (if p + 1 = len then .finish false else .recv) }
  | .line stored => s.leaveLine.present .ok stored

/-- A foreground call of `Transmit`: one atomic piece, or under `TX_FALLBACK_SPLIT` a step that ends
after the attempt and, if that was refused, leaves the enqueue to the next foreground step
(42_transmission.md R130, R135). -/
def fgTransmit (bytes : List Byte) (call : TxCall) (s : State) : State :=
  if s.cfg.txFallbackSplit then
    match critical (xportTxAsync bytes) s with
    | (.accepted, t) => afterTransmit call .ok t
    | (.busy, t) => { t with fg := .enqueue bytes call }
  else
    let r := transmit bytes s
    afterTransmit call r.1 r.2

/-- The second step of a split foreground `Transmit` (42_transmission.md R135). -/
def fgEnqueue (bytes : List Byte) (call : TxCall) (s : State) : State :=
  let r := critical (enqueueBytes bytes) s
  afterTransmit call r.1 r.2

/-! ### Taking an event

The block has no exceptions; what takes the place of one is the delivery of a completion event
(60_exceptions.md R173): nothing is saved, the pending bit is cleared as the first action (R169), and
the handler runs to its end in the same step. There is no return instruction (R174). -/

/-- The two completion events (30_encoding.md R77). -/
inductive Event where
  | rxc
  | txc
  deriving DecidableEq, Repr

/-- The event is pending and `ie = 1` (60_exceptions.md R169). -/
def State.deliverable (s : State) : Event → Bool
  | .rxc => s.rxcDeliverable
  | .txc => s.txcDeliverable

/-- The delivery's first action: the pending bit falls (60_exceptions.md R169). -/
def State.clearPending (s : State) : Event → State
  | .rxc => { s with arb := { s.arb with pendRxc := false } }
  | .txc => { s with arb := { s.arb with pendTxc := false } }

/-- Deliver an event by running its handler. An event that is not deliverable is not delivered: the
step does not happen and the event waits (00_scope.md R10 (c); 60_exceptions.md R169; log 5). -/
def deliver (e : Event) (handler : State → Out) (s : State) : Out :=
  if s.deliverable e then handler (s.clearPending e) else .next s

/-- The transport raises event lines: each sets its pending bit whatever `ie` is (30_encoding.md R77;
60_exceptions.md R169). -/
def State.raise (s : State) (rxc txc : Bool) : State :=
  { s with arb := { s.arb with
      pendRxc := s.arb.pendRxc || rxc
      pendTxc := s.arb.pendTxc || txc } }

/-! ### Preconditions of a command -/

/-- Refuse a span that runs past the top of the address space, before anything else (20_memory.md R47;
log 8). -/
def withSpan (a : Nat) (n : Nat) (k : State → Out) (s : State) : Out :=
  if spanFits s.cfg a n then k s else .refused .spanWraps

/-- Refuse a command that needs exclusivity without it (40_ring_buffer.md R93). -/
def withExcl (k : State → Out) (s : State) : Out :=
  if s.excl then k s else .refused .exclusivityNotHeld

/-- Refuse a foreground write of a byte on loan (70_reset_and_hazards.md R192; log 9). -/
def withoutLoan (a : Nat) (n : Nat) (k : State → Out) (s : State) : Out :=
  if s.spanOnLoan a n then .refused .loanedByteWritten else k s

end Sys2Proof.Machine
end

