-- ==== Sys2Proof/Machine/CriticalSection.lean ====
section
/-! DEFINITION. The two critical-section commands (44_critical_section.md). -/

namespace Sys2Proof.Machine

/-- `CS_ENTER` (44_critical_section.md R155). -/
def execCsEnter (s : State) : Out :=
  .next ({ s with arb := { s.arb with ie := false } }.present .ok s.arb.ie.toNat)

/-- `CS_EXIT s` (44_critical_section.md R156). -/
def execCsExit (saved : Bool) (s : State) : Out :=
  .next ({ s with arb := { s.arb with ie := saved } }.present .ok 0)

end Sys2Proof.Machine
end

