-- ==== Sys2Proof/Machine/Events.lean ====
section
/-! DEFINITION. The handlers of the two completion events (43_completion_events.md R144 to R148) and
the transport steps that raise them (R141 to R143). -/

namespace Sys2Proof.Machine

/-- The handler's work on a byte that is not the terminator, after its echo: count it, then re-arm one
address further or stop (43_completion_events.md R144). -/
def countAndRearm (c : Nat) (s : State) : Out :=
  let t := s.setCount (s.drv.receivedCount + 1)
  if t.drv.receivedCount < t.drv.requestedLength then
    armThen (c + 1) .next { t with drv := { t.drv with cursor := some (c + 1) } }
  else .next t.endReception

/-- The receive-complete handler on the byte at the cursor's address `c`; the status of its
transmissions is discarded (43_completion_events.md R144, R148). -/
def receiveByte (c : Nat) (s : State) : Out :=
  let b := Memory.read s.mem c
  if b = s.cfg.cr then
    let t := (transmit [s.cfg.lf] s).2
    .next (t.setCount (countAfterCr t.cfg t.drv.receivedCount)).endReception
  else countAndRearm c (transmit [b] s).2

/-- The receive-complete handler (43_completion_events.md R144, R145). -/
def handleRxc (s : State) : Out :=
  match s.drv.cursor with
  | none => .refused .receiveCompleteWithNoReception
  | some c =>
    if s.drv.busy then receiveByte c s else .refused .receiveCompleteWithNoReception

/-- `EV_RXC` (43_completion_events.md R144). -/
def execEvRxc (s : State) : Out := deliver .rxc handleRxc s

/-- The drain: the whole queue, oldest first, goes out by one blocking transfer; whatever the answer,
it has left the ring buffer (43_completion_events.md R146, R147). -/
def drain (s : State) : State :=
  let k := s.ring.stored s.cfg.cap
  (xportTxBlocking (s.ring.popBytes s.cfg.cap k) { s with ring := s.ring.popN s.cfg.cap k }).2

/-- The transmit-complete handler (43_completion_events.md R146). -/
def handleTxc (s : State) : Out :=
  let t := { s with xp := { s.xp with txActive := false } }
  .next (if t.ring.isEmpty then t else drain t)

/-- `EV_TXC` (43_completion_events.md R146). -/
def execEvTxc (s : State) : Out := deliver .txc handleTxc s

/-- `XP_RX_ARRIVE(b)` (43_completion_events.md R141); not enabled, it does not happen (log 5). -/
def xpRxArrive (b : Byte) (s : State) : State :=
  match s.xp.rxArmed with
  | none => s
  | some c =>
    let t := s.writeMem c [b]
    { t with xp := { t.xp with rxArmed := none } }.raise true false

/-- `XP_TX_DONE` (43_completion_events.md R142); not enabled, it does not happen (log 5). -/
def xpTxDone (s : State) : State :=
  if s.xp.txActive && !s.arb.pendTxc then s.raise false true else s

/-- `XP_TX_SPURIOUS` (43_completion_events.md R143); not enabled, it does not happen (log 5). -/
def xpTxSpurious (s : State) : State := if s.spuriousEnabled then s.raise false true else s

end Sys2Proof.Machine
end

