-- ==== Sys2Proof/Machine/Reception.lean ====
section
/-! DEFINITION. The four reception commands (41_reception.md) and the later steps of the line read. -/

namespace Sys2Proof.Machine

/-- `RX_INIT n` (41_reception.md R111): the length is tested before `busy` (60_exceptions.md R167). -/
def execRxInit (n : Nat) (s : State) : Out :=
  if n < 2 then .next (s.present .errBadLength 0)
  else if s.drv.busy then .next (s.present .errBusy 0)
  else
    .next ({ s with
      drv := { s.drv with requestedLength := n, receivedCount := 0, cursor := none }
      ghost := { s.ghost with armed := true } }.present .ok 0)

/-- `RX_START a` (41_reception.md R112, R113). -/
def execRxStart (a : Nat) (s : State) : Out :=
  withSpan a s.drv.requestedLength (fun s =>
    if s.drv.busy then .next (s.present .errBusy 0)
    else if !s.ghost.armed then .refused .rxStartWithoutRxInit
    else
      armThen a (fun t =>
        .next ({ t with
          drv := { t.drv with busy := true, cursor := some a }
          ghost := { t.ghost with armed := false } }.present .ok 0)) s) s

/-- `RX_READ_LINE a, n`, first step `RL_BEGIN` (41_reception.md R114, R118). -/
def execRxReadLine (a : Nat) (n : Nat) (s : State) : Out :=
  if n = 0 then .refused .lineReadOfLengthZero
  else
    withSpan a n (fun s =>
      if s.drv.busy then .next (s.present .errBusy (minusOne s.cfg))
      else
        .next { s with
          drv := { s.drv with busy := true, requestedLength := n, receivedCount := 0 }
          ghost := { s.ghost with armed := false }
          fg := .readLine a n .recv }) s

/-- `RX_READ_LINE`, byte step `RL_BYTE` (41_reception.md R115), and its hardware error (R117). -/
def rlByte (a : Nat) (n : Nat) (s : State) : State :=
  match xportRxBlocking s with
  | (.error, t) => t.leaveLine.present .errHw (minusOne t.cfg)
  | (.ok b, t) =>
    let u := t.writeMem (a + t.drv.receivedCount) [b]
    if b = t.cfg.cr then
      { u.setCount (countAfterCr t.cfg t.drv.receivedCount) with fg := .readLine a n (.finish true) }
    else fgTransmit [b] (.echo a n) u

/-- The number of slots that hold the line with its carriage return (41_reception.md R116). -/
def lineSlots (n : Nat) (sawCR : Bool) (s : State) : Nat :=
  if sawCR then
    (if s.cfg.rxCountIncludesCr then s.drv.receivedCount else s.drv.receivedCount + 1)
  else n

/-- `RX_READ_LINE`, last step `RL_FINISH` (41_reception.md R116). -/
def rlFinish (a : Nat) (n : Nat) (sawCR : Bool) (s : State) : State :=
  let t := if sawCR then s else s.writeMem (a + n - 1) [s.cfg.cr]
  fgTransmit [s.cfg.cr, s.cfg.lf] (.line (lineSlots n sawCR s)) t

/-- `DRV_STATUS` (41_reception.md R119). -/
def execDrvStatus (s : State) : Out := .next (s.present .ok (packStatus s.cfg s.drv))

end Sys2Proof.Machine
end

