-- ==== Sys2Proof/Machine/RingBuffer.lean ====
section
/-! DEFINITION. The ten ring-buffer commands (40_ring_buffer.md). -/

namespace Sys2Proof.Machine

/-- `RB_INIT` (40_ring_buffer.md R94). -/
def execRbInit (s : State) : Out :=
  withExcl (fun s => .next ({ s with ring := { s.ring with head := 0, tail := 0 } }.present .ok 0)) s

/-- `RB_IS_EMPTY` (40_ring_buffer.md R95). -/
def execRbIsEmpty (s : State) : Out := .next (s.present .ok s.ring.isEmpty.toNat)

/-- `RB_IS_FULL` (40_ring_buffer.md R96). -/
def execRbIsFull (s : State) : Out := .next (s.present .ok (s.ring.isFull s.cfg.cap).toNat)

/-- `RB_FREE_SPACE` (40_ring_buffer.md R97). -/
def execRbFreeSpace (s : State) : Out := .next (s.present .ok (s.ring.free s.cfg.cap))

/-- The bracketed part of `RB_WRITE` (40_ring_buffer.md R98): the same test and pushes as the enqueue
of a refused transmission. -/
def ringWrite (a : Nat) (n : Nat) (s : State) : Status × State :=
  enqueueBytes (Memory.readSpan s.mem a n) s

/-- `RB_WRITE a, n` (40_ring_buffer.md R98). -/
def execRbWrite (a : Nat) (n : Nat) (s : State) : Out :=
  withSpan a n (fun s =>
    let r := critical (ringWrite a n) s
    .next (r.2.present r.1 0)) s

/-- Remove `k` bytes from the ring buffer and store them at `a` (40_ring_buffer.md R99, R102). -/
def ringTake (a : Nat) (k : Nat) (s : State) : State :=
  { s.writeMem a (s.ring.popBytes s.cfg.cap k) with ring := s.ring.popN s.cfg.cap k }

/-- The bracketed part of `RB_READ` (40_ring_buffer.md R99). -/
def ringRead (a : Nat) (n : Nat) (s : State) : Status × State :=
  if s.ring.stored s.cfg.cap < n then (.errEmpty, s) else (.ok, ringTake a n s)

/-- `RB_READ a, n` (40_ring_buffer.md R99). A read that fails writes nothing, so it touches no loan. -/
def execRbRead (a : Nat) (n : Nat) (s : State) : Out :=
  withSpan a n (fun s =>
    withoutLoan a (if s.ring.stored s.cfg.cap < n then 0 else n) (fun s =>
      let r := critical (ringRead a n) s
      .next (r.2.present r.1 0)) s) s

/-- `RB_WRITE_LIN a, n` (40_ring_buffer.md R100). -/
def execRbWriteLin (a : Nat) (n : Nat) (s : State) : Out :=
  withSpan a n (fun s => withExcl (fun s =>
    if s.ring.free s.cfg.cap < n then .next (s.present .errFull 0)
    else
      .next ({ s with ring := s.ring.writeLinear s.cfg.cap (Memory.readSpan s.mem a n) }.present
        .ok 0)) s) s

/-- Remove `k` bytes by two block copies and store them at `a` (40_ring_buffer.md R101, R103). -/
def ringTakeLin (a : Nat) (k : Nat) (s : State) : State :=
  { s.writeMem a (s.ring.linearBytes s.cfg.cap k) with ring := s.ring.dropLinear s.cfg.cap k }

/-- `RB_READ_LIN a, n` (40_ring_buffer.md R101). -/
def execRbReadLin (a : Nat) (n : Nat) (s : State) : Out :=
  withSpan a n (fun s => withExcl (fun s =>
    if s.ring.stored s.cfg.cap < n then .next (s.present .errEmpty 0)
    else withoutLoan a n (fun s => .next ((ringTakeLin a n s).present .ok 0)) s) s) s

/-- The number of bytes a flush delivers: `CAP - 1 - Free` (40_ring_buffer.md R102, R103). -/
def flushCount (s : State) : Nat := s.cfg.cap - 1 - s.ring.free s.cfg.cap

/-- The bracketed part of `RB_FLUSH` (40_ring_buffer.md R102). -/
def ringFlush (a : Nat) (s : State) : Nat × State := (flushCount s, ringTake a (flushCount s) s)

/-- `RB_FLUSH a` (40_ring_buffer.md R102). -/
def execRbFlush (a : Nat) (s : State) : Out :=
  withSpan a (flushLen s.cfg) (fun s =>
    withoutLoan a (flushCount s) (fun s =>
      let r := critical (ringFlush a) s
      .next (r.2.present .ok r.1)) s) s

/-- `RB_FLUSH_LIN a` (40_ring_buffer.md R103). -/
def execRbFlushLin (a : Nat) (s : State) : Out :=
  withSpan a (flushLen s.cfg) (fun s => withExcl (fun s =>
    withoutLoan a (flushCount s) (fun s =>
      .next ((ringTakeLin a (flushCount s) s).present .ok (flushCount s))) s) s) s

end Sys2Proof.Machine
end

