-- ==== Sys2Proof/Machine/Transmission.lean ====
section
/-! DEFINITION. The two transmission commands (42_transmission.md). -/

namespace Sys2Proof.Machine

/-- The preconditions the two commands share, `n >= 1` and the span, and the capture of the bytes
(42_transmission.md R131, R132, R133). -/
def sendSpan (a : Nat) (n : Nat) (call : TxCall) (s : State) : Out :=
  if n = 0 then .refused .transmitOfLengthZero
  else withSpan a n (fun s => .next (fgTransmit (Memory.readSpan s.mem a n) call s)) s

/-- `TX_TRANSMIT a, n` (42_transmission.md R131). -/
def execTxTransmit (a : Nat) (n : Nat) (s : State) : Out := sendSpan a n .transmit s

/-- `TX_WRITE_SYNC a, n` (42_transmission.md R132). -/
def execTxWriteSync (a : Nat) (n : Nat) (s : State) : Out := sendSpan a n (.writeSync n) s

end Sys2Proof.Machine
end

