-- ==== Sys2Proof/Machine/Dispatch.lean ====
section
/-! DEFINITION. One arm per instruction, each one call of its meaning. -/

namespace Sys2Proof.Machine

def exec (i : Instr) (s : State) : Host.Outcome State Fault Refusal :=
  match i with
  | .rbInit => Sys2Proof.Machine.execRbInit s
  | .rbIsEmpty => Sys2Proof.Machine.execRbIsEmpty s
  | .rbIsFull => Sys2Proof.Machine.execRbIsFull s
  | .rbFreeSpace => Sys2Proof.Machine.execRbFreeSpace s
  | .rbWrite a n => Sys2Proof.Machine.execRbWrite a n s
  | .rbRead a n => Sys2Proof.Machine.execRbRead a n s
  | .rbWriteLin a n => Sys2Proof.Machine.execRbWriteLin a n s
  | .rbReadLin a n => Sys2Proof.Machine.execRbReadLin a n s
  | .rbFlush a => Sys2Proof.Machine.execRbFlush a s
  | .rbFlushLin a => Sys2Proof.Machine.execRbFlushLin a s
  | .rxInit n => Sys2Proof.Machine.execRxInit n s
  | .rxStart a => Sys2Proof.Machine.execRxStart a s
  | .rxReadLine a n => Sys2Proof.Machine.execRxReadLine a n s
  | .drvStatus => Sys2Proof.Machine.execDrvStatus s
  | .txTransmit a n => Sys2Proof.Machine.execTxTransmit a n s
  | .txWriteSync a n => Sys2Proof.Machine.execTxWriteSync a n s
  | .csEnter => Sys2Proof.Machine.execCsEnter s
  | .csExit b => Sys2Proof.Machine.execCsExit b s
  | .evRxc => Sys2Proof.Machine.execEvRxc s
  | .evTxc => Sys2Proof.Machine.execEvTxc s

end Sys2Proof.Machine
end

