-- ==== Sys2Proof/Machine/Foreground.lean ====
section
/-! DEFINITION. Whose turn it is, and what the foreground does in its turn: the next step of the
command in progress, else the next entry of its program (00_scope.md R11; 10_state.md R25). -/

namespace Sys2Proof.Machine

/-- The next turn: the schedule's, and past its end the foreground's (60_exceptions.md R171; log 4). -/
def State.turn (s : State) : Turn :=
  match s.env.sched with
  | [] => .fg
  | t :: _ => t

/-- The state in which a step begins: its turn is taken off the schedule, and the output ports show
nothing until the step presents something (log 4, log 12). -/
def State.beginStep (s : State) : State :=
  { s with ports := Ports.quiet, env := { s.env with sched := s.env.sched.tail } }

/-- An opcode outside the map changes no state of the block, finishes with `result(ILLEGAL, 0)`, and marks
the run, which from here on counts as refused (30_encoding.md R78; 93_implementation_defined.md U10;
log 7). -/
def illegalOpcode (s : State) : State := { s with runRefused := true }.present .illegal 0

/-- Issue a command word (30_encoding.md R70, R72, R78). -/
def issue (w : Nat) (s : State) : Out :=
  match decodeCmd s.cfg w with
  | .instr i => exec i s
  | .bothEvents => .next s
  | .noEvent => .next s
  | .illegal _ => .next (illegalOpcode s)

/-- The foreground software writes one byte of caller memory, not on loan (20_memory.md R69;
70_reset_and_hazards.md R192). -/
def fgStore (a : Nat) (b : Byte) (s : State) : Out :=
  withSpan a 1 (withoutLoan a 1 (fun s => .next (s.writeMem a [b]))) s

/-- The next entry of the foreground's program; with none the block waits (70_reset_and_hazards.md
R186). -/
def fgIssue (s : State) : Out :=
  match s.env.prog with
  | [] => .next s
  | .cmd w :: rest => issue w { s with env := { s.env with prog := rest } }
  | .store a b :: rest => fgStore a b { s with env := { s.env with prog := rest } }

/-- A turn of the foreground. While a command is in progress no other is issued (10_state.md R25). -/
def fgTurn (s : State) : Out :=
  match s.fg with
  | .idle => fgIssue s
  | .readLine a n .recv => .next (rlByte a n s)
  | .readLine a n (.finish sawCR) => .next (rlFinish a n sawCR s)
  | .enqueue bytes call => .next (fgEnqueue bytes call s)

/-- One turn of one agent (00_scope.md R11). -/
def takeTurn (t : Turn) (s : State) : Out :=
  match t with
  | .fg => fgTurn s
  | .rxArrive b => .next (xpRxArrive b s)
  | .txDone => .next (xpTxDone s)
  | .txSpurious => .next (xpTxSpurious s)
  | .evRxc => exec .evRxc s
  | .evTxc => exec .evTxc s

/-- Place a word on an input port so that the next step runs it (log 13): a command word is the next
entry of the foreground's program, with the foreground free and its turn next; event lines are raised
and their deliveries are next. DESIGN CHOICE (log 13): of two lines raised at once the delivery of
`EV_RXC` is put first. The spec leaves that order open (00_scope.md R6; 30_encoding.md R77;
60_exceptions.md R171: `EVENT_PRIORITY = ANY`), and a schedule may name either (log 4). -/
def State.place (s : State) : PortWord → State
  | .cmd w =>
    { s with
      fg := .idle
      env := { s.env with prog := .cmd w :: s.env.prog, sched := .fg :: s.env.sched } }
  | .evt lines =>
    let t := s.raise (lineRxc lines) (lineTxc lines)
    { t with env := { t.env with
        sched := (if lineRxc lines then [Turn.evRxc] else []) ++
          (if lineTxc lines then [Turn.evTxc] else []) ++ t.env.sched } }

end Sys2Proof.Machine
end

