-- ==== Sys2Proof/Machine/Step.lean ====
section
/-! DEFINITION. One step of the block: one turn of one of its three agents (00_scope.md R11; 20_memory.md
R62). -/

namespace Sys2Proof.Machine

def step (s : State) : Host.Outcome State Fault Refusal := takeTurn s.turn s.beginStep

/-- The table's bits of an instruction, placed on the port they belong to (log 13). -/
def State.withFetchWord (s : State) (nbits w : Nat) : State := s.place (tablePortWord nbits w)

end Sys2Proof.Machine
end

