-- ==== Sys2Proof/Safety.lean ====
section
/-! DEFINITION. What counts as a sound state and a safe run of the block: the invariants of a conformant
run (10_state.md R17, R19, R32), the output stream and its order law (42_transmission.md R134), and the
refusals that only a broken contract of the caller can bring about. -/

namespace Sys2Proof.Machine

/-- The ring-buffer invariants (10_state.md R14, R17; R32 item 1). -/
abbrev Ring.wf (cap : Nat) (r : Ring) : Prop := r.storage.length = cap ∧ r.head < cap ∧ r.tail < cap

/-- Every listed cell of caller memory has an address of the address space (20_memory.md R40). -/
abbrev Memory.inSpace (c : Config) (m : Memory) : Prop := ∀ x ∈ m, x.1 < 2 ^ c.addrW

/-- A line read of `n` slots at `a` is loaded in the driver (41_reception.md R114). -/
abbrev lineLoaded (s : State) (a : Nat) (n : Nat) : Prop :=
  s.drv.requestedLength = n ∧ a + n ≤ 2 ^ s.cfg.addrW

/-- What holds of the foreground sequencer's data in each of its forms (41_reception.md R114 to R116;
42_transmission.md R135). -/
def State.fgOk (s : State) : Prop :=
  match s.fg with
  | .idle => True
  | .readLine a n .recv => lineLoaded s a n ∧ s.drv.receivedCount < n
  | .readLine a n (.finish false) => lineLoaded s a n ∧ s.drv.receivedCount = n ∧ 0 < n
  | .readLine a n (.finish true) =>
    lineLoaded s a n ∧ 1 ≤ lineSlots n true s ∧ lineSlots n true s ≤ n ∧
      Memory.read s.mem (a + lineSlots n true s - 1) = s.cfg.cr
  | .enqueue bytes call =>
    s.cfg.txFallbackSplit = true ∧ bytes ≠ [] ∧
    match call with
    | .transmit => True
    | .writeSync n => n = bytes.length ∧ n < 2 ^ s.cfg.lenW
    | .echo a n => lineLoaded s a n ∧ s.drv.receivedCount < n
    | .line stored => 1 ≤ stored ∧ stored ≤ s.drv.requestedLength

/-- The invariants of a conformant run (10_state.md R32), with what makes them inductive. -/
structure State.Inv (s : State) : Prop where
  /-- the constraints on the parameters (00_scope.md R6) -/
  config : s.cfg.valid
  /-- item 1, and the length of `storage` (R14) -/
  ring : s.ring.wf s.cfg.cap
  /-- caller memory is in canonical form and within the address space -/
  mem : Memory.wf s.mem ∧ Memory.inSpace s.cfg s.mem
  /-- item 2 -/
  count : s.drv.receivedCount ≤ s.drv.requestedLength
  /-- `requestedLength` fits its register (R18) -/
  length : s.drv.requestedLength < 2 ^ s.cfg.lenW
  /-- item 3 -/
  armedInto : ∀ a, s.xp.rxArmed = some a →
    s.drv.busy = true ∧ s.fg.inLine = false ∧ s.drv.cursor = some a
  /-- item 4 -/
  pending : s.arb.pendRxc = true →
    s.drv.busy = true ∧ s.fg.inLine = false ∧ s.xp.rxArmed = none ∧ s.drv.cursor ≠ none
  /-- item 5 -/
  receiving : s.drv.busy = true → s.fg.inLine = false → s.xp.rxArmed.isSome ≠ s.arb.pendRxc
  /-- item 6 -/
  inLine : s.fg.inLine = true →
    s.drv.busy = true ∧ s.xp.rxArmed = none ∧ s.arb.pendRxc = false
  /-- item 7 -/
  spurious : s.arb.pendTxc = true → s.xp.txActive = false → s.cfg.spuriousTxc = true
  /-- the rest of the destination span of a pending reception lies above the cursor and within the
  address space (41_reception.md R112; 43_completion_events.md R144: `c + 1` never wraps) -/
  loan : s.drv.busy = true → s.fg.inLine = false → ∃ c, s.drv.cursor = some c ∧
    s.drv.receivedCount < s.drv.requestedLength ∧ s.drv.receivedCount ≤ c ∧
    c + (s.drv.requestedLength - s.drv.receivedCount) ≤ 2 ^ s.cfg.addrW
  /-- ARMED is a sub-state of IDLE (R20), entered by `RX_INIT` (41_reception.md R111) -/
  armed : s.ghost.armed = true → s.drv.busy = false ∧ s.fg.inLine = false ∧
    2 ≤ s.drv.requestedLength ∧ s.drv.receivedCount = 0
  /-- the set-up window: before the first request nothing of the transport's is in flight, and no
  completion event exists (70_reset_and_hazards.md R188) but a spurious one, in the reading of R143
  (log 16) -/
  setUp : s.ghost.xportUsed = false →
    s.xp.rxArmed = none ∧ s.arb.pendRxc = false ∧ s.xp.txActive = false ∧
      (s.cfg.spuriousInSetUp = false → s.arb.pendTxc = false)
  /-- the foreground sequencer -/
  fg : s.fgOk

/-- Item 8 of 10_state.md R32: bytes wait in the ring buffer only while a transmit-complete event that
will drain them is outstanding or pending. -/
def State.queueCovered (s : State) : Prop := s.ring.isEmpty = false → s.txBusy = true

/-- The output stream: what the transport has accepted, then what waits in the ring buffer
(42_transmission.md R134). -/
def State.outStream (s : State) : List Byte := s.obs.wire ++ s.ring.queue s.cfg.cap

/-- The next foreground step issues one of the ten ring-buffer commands (42_transmission.md R134:
"direct" commands are those of the foreground). -/
def State.issuesRingCommand (s : State) : Bool :=
  match s.turn, s.fg, s.env.prog with
  | .fg, .idle, .cmd w :: _ => decide (fieldOp w ≤ 9)
  | _, _, _ => false

/-- A refusal that only the foreground can bring about, by breaking its contract (00_scope.md R10). -/
def Refusal.callers (r : Refusal) : Bool :=
  decide (r ∈ [Refusal.exclusivityNotHeld, .spanWraps, .rxStartWithoutRxInit,
    .lineReadOfLengthZero, .transmitOfLengthZero, .loanedByteWritten])

/-- The status says that the command failed (60_exceptions.md R161 to R164). -/
def Status.failed : Status → Bool
  | .ok => false
  | .errBusy => true
  | .errFull => true
  | .errEmpty => true
  | .errBadLength => true
  | .errHw => true
  | .illegal => true

/-- Nothing but the ring buffer, caller memory and the output ports differs: the configuration, the
driver, the arbiter, the transport, the foreground sequencer, the ghosts, the observations, the outside
world and the mark on the run are the same. -/
def sameBesideRing (s t : State) : Prop :=
  t.cfg = s.cfg ∧ t.drv = s.drv ∧ t.arb = s.arb ∧ t.xp = s.xp ∧ t.fg = s.fg ∧ t.ghost = s.ghost ∧
    t.obs = s.obs ∧ t.env = s.env ∧ t.runRefused = s.runRefused

/-- Every byte of caller memory reads as before. -/
def sameMemory (s t : State) : Prop := ∀ x, Memory.read t.mem x = Memory.read s.mem x

/-- Caller memory holds `bytes` from `a` upwards and every other byte reads as before. -/
def storesAt (s t : State) (a : Nat) (bytes : List Byte) : Prop :=
  (∀ i, i < bytes.length → Memory.read t.mem (a + i) = bytes.getD i 0) ∧
    ∀ x, ¬ (a ≤ x ∧ x < a + bytes.length) → Memory.read t.mem x = Memory.read s.mem x

/-- The step from `s` to `t` presented this on the result port (30_encoding.md R74), and nothing else
on the output ports. -/
def presents (s t : State) (status : Status) (value : Nat) : Prop :=
  t.ports = { s.ports with res := some { status := status, value := value } }

/-- What a call of `Transmit(bytes)` does to the wire, the transport and the queue (42_transmission.md
R130): accepted whole, queued whole, or nothing. -/
def transmitted (bytes : List Byte) (s t : State) : Prop :=
  (s.txBusy = false ∧ t.obs.wire = s.obs.wire ++ bytes ∧ t.xp.txActive = true ∧ t.ring = s.ring) ∨
  (s.txBusy = true ∧ bytes.length ≤ s.ring.free s.cfg.cap ∧ t.obs.wire = s.obs.wire ∧
    t.xp.txActive = s.xp.txActive ∧ t.ring.head = s.ring.head ∧
    t.ring.queue s.cfg.cap = s.ring.queue s.cfg.cap ++ bytes) ∨
  (s.txBusy = true ∧ s.ring.free s.cfg.cap < bytes.length ∧ t.obs.wire = s.obs.wire ∧
    t.xp.txActive = s.xp.txActive ∧ t.ring = s.ring)

/-- A run in which every `CS_EXIT` is given the value that its matching `CS_ENTER` returned, in last-in
first-out order (44_critical_section.md R157), with the list of the states it passes through after its
first. Between the commands any agent may take its turns (00_scope.md R11). -/
inductive Bracketed : State → List State → State → Prop where
  | done (s : State) : Bracketed s [] s
  | other {s t u : State} {passed : List State} (i : Instr) (notEnter : i ≠ .csEnter)
      (notExit : ∀ b, i ≠ .csExit b) (run : exec i s = .next t) (rest : Bracketed t passed u) :
      Bracketed s (t :: passed) u
  | turn {s t u : State} {passed : List State} (noCommand : s.turn ≠ .fg ∨ s.fg ≠ .idle)
      (run : step s = .next t) (rest : Bracketed t passed u) : Bracketed s (t :: passed) u
  | nested {s t u v w : State} {within after : List State} (value : Nat)
      (enter : exec .csEnter s = .next t)
      (returned : t.ports.res = some { status := .ok, value := value })
      (inside : Bracketed t within u) (leave : exec (.csExit (bitZero value)) u = .next v)
      (rest : Bracketed v after w) : Bracketed s (t :: within ++ v :: after) w

end Sys2Proof.Machine
end

