-- ==== Sys2Proof/Certificates/Slice0/Obligations.lean ====
section
/-! DEFINITION. The statements about the block that the provers settle. Each names the rules of spec/ it
formalises; where it rests on a choice of this model it says so and names the log entry. -/

open Sys2Proof Sys2Proof.Machine

/-! ### Encoding -/

/-- Decoding the word of a well-formed instruction gives it back, every operand at every value its
field admits (30_encoding.md R71, R72, R77). -/
def Obligations.DecodeOfEncodeIsTheInstruction : Prop :=
  ∀ (c : Config) (i : Instr), c.valid → i.wf c = true → decode c (encode c i) = .instr i

/-- What the decoder reads from a command word is a well-formed command, whose own word has the same
opcode (30_encoding.md R71, R72, R79). -/
def Obligations.DecodedCommandIsWellFormed : Prop :=
  ∀ (c : Config) (w : Nat) (i : Instr), c.valid → decodeCmd c w = .instr i →
    i.wf c = true ∧ i.isCommand = true ∧
      ∃ v, encode c i = .cmd v ∧ fieldOp v = fieldOp w ∧ decodeCmd c v = .instr i

/-- The illegal opcodes are exactly those outside the map (30_encoding.md R78). -/
def Obligations.IllegalOpcodesAreThoseOutsideTheMap : Prop :=
  ∀ (c : Config) (w : Nat), decodeCmd c w = .illegal (fieldOp w) ↔
    (0x0A ≤ fieldOp w ∧ fieldOp w ≤ 0x0F) ∨ (0x14 ≤ fieldOp w ∧ fieldOp w ≤ 0x1F) ∨
      (0x22 ≤ fieldOp w ∧ fieldOp w ≤ 0x2F) ∨ (0x32 ≤ fieldOp w ∧ fieldOp w ≤ 0xFF)

/-- A field that a command does not use has no effect (30_encoding.md R71; R72 for which uses which). -/
def Obligations.UnusedFieldsHaveNoEffect : Prop :=
  ∀ (c : Config) (v w : Nat), fieldOp v = fieldOp w →
    (fieldOp w ∈ [0x00, 0x01, 0x02, 0x03, 0x13, 0x30] → decodeCmd c v = decodeCmd c w) ∧
    (fieldOp w ∈ [0x08, 0x09, 0x11] → fieldA c v = fieldA c w → decodeCmd c v = decodeCmd c w) ∧
    (fieldOp w = 0x10 → fieldN c v = fieldN c w → decodeCmd c v = decodeCmd c w) ∧
    (fieldOp w = 0x31 → fieldN c v % 2 = fieldN c w % 2 → decodeCmd c v = decodeCmd c w)

/-- Words the spec writes out (95_test_vectors.md EN-01 to EN-21, at `ADDR_W = 16`, `LEN_W = 8`) decode
to the commands they stand for. -/
def Obligations.WordsOfTheSpecDecode : Prop :=
  decodeCmd Config.reference 0xFF123400 = .instr .rbInit ∧
  decodeCmd Config.reference 0x05010004 = .instr (.rbWrite 0x0100 5) ∧
  decodeCmd Config.reference 0x03020007 = .instr (.rbReadLin 0x0200 3) ∧
  decodeCmd Config.reference 0x00030008 = .instr (.rbFlush 0x0300) ∧
  decodeCmd Config.reference 0x05000010 = .instr (.rxInit 5) ∧
  decodeCmd Config.reference 0x03060012 = .instr (.rxReadLine 0x0600 3) ∧
  decodeCmd Config.reference 0x04051021 = .instr (.txWriteSync 0x0510 4) ∧
  decodeCmd Config.reference 0xFE000031 = .instr (.csExit false) ∧
  decodeCmd Config.reference 0x0000000A = .illegal 0x0A ∧
  decodeEvt 0b01 = .instr .evRxc ∧ decodeEvt 0b10 = .instr .evTxc

/-- The numbers of the status codes (30_encoding.md R76). -/
def Obligations.StatusCodesHaveTheirNumbers : Prop :=
  Status.ok.code = 0x00 ∧ Status.errBusy.code = 0x01 ∧ Status.errFull.code = 0x02 ∧
  Status.errEmpty.code = 0x03 ∧ Status.errBadLength.code = 0x04 ∧ Status.errHw.code = 0x05 ∧
  Status.illegal.code = 0xFF

/-! ### The step -/

/-- A step runs the decoded instruction: in the foreground's turn the next command word of its program,
in the arbiter's turn the event's handler; around it the step takes the turn off the schedule, takes the
word off the program and clears the output ports (00_scope.md R11; the schedule, the program and the
clearing of the ports are this model's, logs 4 and 12). -/
def Obligations.StepRunsTheDecodedInstruction : Prop :=
  (∀ (s : State) (w : Nat) (rest : List FgOp) (i : Instr), s.turn = .fg → s.fg = .idle →
    s.env.prog = .cmd w :: rest → decodeCmd s.cfg w = .instr i →
    step s = exec i { s with
      ports := { res := none, rxDone := false, exchanges := [] }
      env := { s.env with prog := rest, sched := s.env.sched.tail } }) ∧
  (∀ s : State, s.turn = .evRxc → step s = exec .evRxc { s with
      ports := { res := none, rxDone := false, exchanges := [] }
      env := { s.env with sched := s.env.sched.tail } }) ∧
  (∀ s : State, s.turn = .evTxc → step s = exec .evTxc { s with
      ports := { res := none, rxDone := false, exchanges := [] }
      env := { s.env with sched := s.env.sched.tail } })

/-- A word placed on its port runs in the next step, whatever was going on (log 13). -/
def Obligations.PlacedWordRunsNext : Prop :=
  (∀ (s : State) (nbits w : Nat) (i : Instr), 8 ≤ nbits → w < 2 ^ nbits →
    decodeCmd s.cfg w = .instr i →
    step (s.withFetchWord nbits w) = exec i { s with
      fg := .idle
      ports := { res := none, rxDone := false, exchanges := [] } }) ∧
  (∀ s : State, step (s.withFetchWord 1 0b1) = exec .evRxc { s with
      arb := { s.arb with pendRxc := true }
      ports := { res := none, rxDone := false, exchanges := [] } }) ∧
  (∀ s : State, step (s.withFetchWord 2 0b10) = exec .evTxc { s with
      arb := { s.arb with pendTxc := true }
      ports := { res := none, rxDone := false, exchanges := [] } })

/-- An illegal opcode changes no state of the block, presents `ILLEGAL` with value 0 and makes the run
count as refused (30_encoding.md R78; 60_exceptions.md R166; the spec's decision D29); nothing else makes
it so, and the mark stays. The form of the mark is this model's (log 7). -/
def Obligations.IllegalOpcodeChangesNothing : Prop :=
  (∀ (s : State) (w : Nat) (rest : List FgOp), s.turn = .fg → s.fg = .idle →
    s.env.prog = .cmd w :: rest → decodeCmd s.cfg w = .illegal (fieldOp w) →
    step s = .next { s with
      ports := { res := some { status := .illegal, value := 0 }, rxDone := false, exchanges := [] }
      env := { s.env with prog := rest, sched := s.env.sched.tail }
      runRefused := true }) ∧
  (∀ s t : State, step s = .next t → (t.runRefused = true ↔ s.runRefused = true ∨
    (s.turn = .fg ∧ s.fg = .idle ∧ ∃ w rest, s.env.prog = .cmd w :: rest ∧
      decodeCmd s.cfg w = .illegal (fieldOp w))))

/-- With no command in progress and none to issue, the block waits (70_reset_and_hazards.md R186). -/
def Obligations.BlockWaitsForTheNextCommand : Prop :=
  ∀ s : State, s.turn = .fg → s.fg = .idle → s.env.prog = [] →
    step s = .next { s with
      ports := { res := none, rxDone := false, exchanges := [] }
      env := { s.env with sched := s.env.sched.tail } }

/-- The foreground software writes a byte of caller memory that exists and is not on loan, and changes
nothing else (20_memory.md R69, R48); a loaned byte is refused (70_reset_and_hazards.md R192), and so is an
address that does not exist (20_memory.md R47, R40). -/
def Obligations.ForegroundStoresOneByte : Prop :=
  ∀ (s : State) (a : Nat) (b : Byte) (rest : List FgOp), Memory.wf s.mem → s.turn = .fg →
    s.fg = .idle → s.env.prog = .store a b :: rest →
    (a < 2 ^ s.cfg.addrW → s.onLoan a = false → ∃ t, step s = .next t ∧
      storesAt s t a [b] ∧ t = { s with
        mem := t.mem
        ports := { res := none, rxDone := false, exchanges := [] }
        env := { s.env with prog := rest, sched := s.env.sched.tail } }) ∧
    (a < 2 ^ s.cfg.addrW → s.onLoan a = true → step s = .refused .loanedByteWritten) ∧
    (2 ^ s.cfg.addrW ≤ a → step s = .refused .spanWraps)

/-! ### Reset and invariants -/

/-- The values after reset (10_state.md R30, most of them decision D8 of the spec), for every
configuration, every content of `storage` and of caller memory; `State.reset` takes the model's choice
of those (logs 1, 2, 3), and the mark on the run is clear (log 7). -/
def Obligations.ResetValues : Prop :=
  (∀ (c : Config) (storage : List Byte) (m : Memory),
    let s := State.resetWith c storage m
    s.cfg = c ∧ s.ring = { storage := storage, head := 0, tail := 0 } ∧
    s.drv = { busy := false, requestedLength := 0, receivedCount := 0, cursor := none } ∧
    s.arb = { ie := true, pendRxc := false, pendTxc := false } ∧
    s.xp = { rxArmed := none, txActive := false } ∧ s.fg = .idle ∧
    s.ghost = { armed := false, xportUsed := false } ∧ s.obs = { wire := [], cbCount := 0 } ∧
    s.runRefused = false ∧ s.mem = m ∧ s.rxState = .idle) ∧
  State.reset = State.resetWith Config.reference (List.replicate 8 0) []

/-- Reset satisfies the invariants, for every configuration the spec allows and every content of
`storage` and of caller memory (10_state.md R30, R32; U11, U21). -/
def Obligations.ResetSatisfiesInvariant : Prop :=
  (∀ (c : Config) (storage : List Byte) (m : Memory), c.valid → storage.length = c.cap →
    Memory.wf m → Memory.inSpace c m → (State.resetWith c storage m).Inv) ∧ State.reset.Inv

/-- Every step keeps the invariants of a conformant run (10_state.md R17, R19, R32). -/
def Obligations.StepKeepsInvariant : Prop :=
  ∀ s t : State, s.Inv → step s = .next t → t.Inv

/-- From a state with the invariants, a step is refused only because the foreground broke its contract:
the transport's arm is always accepted and no receive-complete event comes without a reception
(00_scope.md R10; 20_memory.md R57; 43_completion_events.md R145). -/
def Obligations.OnlyTheCallerIsRefused : Prop :=
  ∀ (s : State) (r : Refusal), s.Inv → step s = .refused r → r.callers = true

/-- What is fixed at construction never changes (70_reset_and_hazards.md R186). -/
def Obligations.StepKeepsConfiguration : Prop :=
  ∀ s t : State, step s = .next t → t.cfg = s.cfg

/-- The observations are only ever extended (10_state.md R27). -/
def Obligations.ObservationsOnlyGrow : Prop :=
  ∀ s t : State, step s = .next t → s.obs.wire <+: t.obs.wire ∧ s.obs.cbCount ≤ t.obs.cbCount

/-- Storing a byte: it reads back, every other byte reads as before, and the canonical form of caller
memory is kept (20_memory.md R42; the form is this model's, log 3). -/
def Obligations.MemoryReadsWhatWasWritten : Prop :=
  ∀ (m : Memory) (a x : Nat) (v : Byte), Memory.wf m → Memory.wf (Memory.write m a v) ∧
    Memory.read (Memory.write m a v) x = if x = a then v else Memory.read m x

/-! ### Critical section and arbitration -/

/-- `CS_ENTER` (44_critical_section.md R155): the old `ie` is the value, `ie` becomes 0, nothing else
changes. -/
def Obligations.CsEnterMasksAndReturnsOldIe : Prop :=
  ∀ s : State, exec .csEnter s = .next { s with
    arb := { s.arb with ie := false }
    ports := { s.ports with res := some { status := .ok, value := if s.arb.ie then 1 else 0 } } }

/-- `CS_EXIT s` (44_critical_section.md R156): `ie` becomes the given state, nothing else changes. -/
def Obligations.CsExitRestoresGivenIe : Prop :=
  ∀ (s : State) (saved : Bool), exec (.csExit saved) s = .next { s with
    arb := { s.arb with ie := saved }
    ports := { s.ports with res := some { status := .ok, value := 0 } } }

/-- The nesting law (44_critical_section.md R157), which the spec marks as derived: a run whose sections are
matched leaves `ie` as it was before, at every depth; and from the entry of a section to its exit `ie` is
0 in every state, whatever sections are nested in it, and after the exit what it was before the entry. -/
def Obligations.NestedSectionsRestoreIe : Prop :=
  (∀ (s t : State) (passed : List State), Bracketed s passed t → t.arb.ie = s.arb.ie) ∧
  (∀ (s t u v : State) (within : List State) (value : Nat), exec .csEnter s = .next t →
    t.ports.res = some { status := .ok, value := value } → Bracketed t within u →
    exec (.csExit (bitZero value)) u = .next v →
    (∀ x ∈ t :: within, x.arb.ie = false) ∧ u.arb.ie = false ∧ v.arb.ie = s.arb.ie)

/-- Only `CS_ENTER` and `CS_EXIT` change `ie` over a step (10_state.md R22; 44_critical_section.md R158;
60_exceptions.md R174, R177). -/
def Obligations.OnlyCriticalSectionCommandsChangeIe : Prop :=
  ∀ s t : State, step s = .next t → t.arb.ie ≠ s.arb.ie →
    s.turn = .fg ∧ s.fg = .idle ∧ ∃ w rest, s.env.prog = .cmd w :: rest ∧
      (decodeCmd s.cfg w = .instr .csEnter ∨ ∃ b, decodeCmd s.cfg w = .instr (.csExit b))

/-- A pending bit falls only in the delivery of its event, and that only while `ie` is 1
(60_exceptions.md R169; 43_completion_events.md R144, R146). -/
def Obligations.PendingBitFallsOnlyAtDelivery : Prop :=
  ∀ s t : State, step s = .next t →
    (s.arb.pendRxc = true → t.arb.pendRxc = false → s.turn = .evRxc ∧ s.arb.ie = true) ∧
    (s.arb.pendTxc = true → t.arb.pendTxc = false → s.turn = .evTxc ∧ s.arb.ie = true)

/-- An event that is not pending, or is masked, is not delivered: its turn changes nothing (60_exceptions.md
R169; 00_scope.md R10 (c); that the turn passes is this model's, log 5). And in the set-up window no event
exists but a spurious one, and that only where 43_completion_events.md R143 is read to allow it there (log
16): elsewhere neither handler can run in the window (70_reset_and_hazards.md R188, decision D24), and it
closes only at a request of the foreground's, in one of the four commands. It closes for good. -/
def Obligations.UndeliverableEventWaits : Prop :=
  (∀ s : State,
    (s.arb.pendRxc = false ∨ s.arb.ie = false → exec .evRxc s = .next s) ∧
    (s.arb.pendTxc = false ∨ s.arb.ie = false → exec .evTxc s = .next s)) ∧
  (∀ s : State, s.Inv → s.ghost.xportUsed = false →
    s.arb.pendRxc = false ∧ exec .evRxc s = .next s ∧
    (s.arb.pendTxc = true → s.cfg.spuriousTxc = true ∧ s.cfg.spuriousInSetUp = true)) ∧
  (∀ s : State, s.Inv → s.ghost.xportUsed = false →
    s.cfg.spuriousTxc = false ∨ s.cfg.spuriousInSetUp = false →
    s.arb.pendTxc = false ∧ exec .evTxc s = .next s ∧
    ∀ t, step s = .next t → t.ghost.xportUsed = true → s.turn = .fg ∧
      ((∃ a n phase, s.fg = .readLine a n phase) ∨
        (s.fg = .idle ∧ ∃ w rest, s.env.prog = .cmd w :: rest ∧ fieldOp w ∈ [0x11, 0x20, 0x21]))) ∧
  (∀ s t : State, step s = .next t → s.ghost.xportUsed = true → t.ghost.xportUsed = true)

/-- The delivery of an event leaves the foreground as it was: the command in progress, `ie`, the ghost
bit of ARMED, `requestedLength`, caller memory, and it presents no result (60_exceptions.md R173, R174,
R177; 43_completion_events.md R149). -/
def Obligations.EventLeavesForegroundAsItWas : Prop :=
  ∀ (s t : State) (i : Instr), i = .evRxc ∨ i = .evTxc → exec i s = .next t →
    t.fg = s.fg ∧ t.arb.ie = s.arb.ie ∧ t.ghost.armed = s.ghost.armed ∧
    t.drv.requestedLength = s.drv.requestedLength ∧ t.mem = s.mem ∧ t.ports.res = s.ports.res ∧
    t.env.prog = s.env.prog ∧ t.env.sched = s.env.sched

/-- The two orders of two deliverable events give the same wire and the same, empty, queue, and the same
reception (60_exceptions.md R172), when the blocking transfer succeeds and the echo is not lost. -/
def Obligations.EventOrdersAgree : Prop :=
  ∀ s : State, s.Inv → s.arb.ie = true → s.arb.pendRxc = true → s.arb.pendTxc = true →
    s.nextTx = .ok → 1 ≤ s.ring.free s.cfg.cap →
    ∃ t t' u u', exec .evRxc s = .next t ∧ exec .evTxc t = .next t' ∧
      exec .evTxc s = .next u ∧ exec .evRxc u = .next u' ∧
      t'.obs = u'.obs ∧ t'.ring.queue s.cfg.cap = [] ∧ u'.ring.queue s.cfg.cap = [] ∧
      t'.drv = u'.drv ∧ t'.arb = u'.arb ∧ t'.mem = u'.mem ∧ t'.xp.rxArmed = u'.xp.rxArmed ∧
      t'.xp.txActive = false ∧ u'.xp.txActive = true

/-! ### The ring buffer -/

/-- `Stored`, `Free`, `IsEmpty` and `IsFull` (40_ring_buffer.md R90; 10_state.md R17): their closed forms,
the corrected case split of `Free` (90_conflicts.md C2), what the two predicates say of the counts, and
that the counts sum to `CAP - 1` (also R97). -/
def Obligations.StoredAndFreeSumToCapacity : Prop :=
  ∀ (cap : Nat) (r : Ring), 2 ≤ cap → r.wf cap →
    (r.stored cap : Int) = ((r.tail : Int) - r.head) % cap ∧
    (r.free cap : Int) = ((r.head : Int) - r.tail - 1) % cap ∧
    r.stored cap + r.free cap = cap - 1 ∧
    r.free cap = (if r.head ≤ r.tail then cap - (r.tail - r.head) - 1 else r.head - r.tail - 1) ∧
    (r.isEmpty = true ↔ r.head = r.tail) ∧ (r.isEmpty = true ↔ r.stored cap = 0) ∧
    (r.isFull cap = true ↔ (r.tail + 1) % cap = r.head) ∧
    (r.isFull cap = true ↔ r.free cap = 0) ∧ ¬ (r.isEmpty = true ∧ r.isFull cap = true)

/-- `RB_INIT` (40_ring_buffer.md R94): with exclusivity `head` and `tail` become 0 and nothing else
changes; without it the command is refused. -/
def Obligations.RbInitEmptiesTheBuffer : Prop :=
  ∀ s : State,
    (s.arb.ie = false ∨ s.ghost.xportUsed = false → exec .rbInit s = .next { s with
      ring := { s.ring with head := 0, tail := 0 }
      ports := { s.ports with res := some { status := .ok, value := 0 } } }) ∧
    (s.arb.ie = true → s.ghost.xportUsed = true → exec .rbInit s = .refused .exclusivityNotHeld)

/-- `RB_IS_EMPTY` and `RB_IS_FULL` (40_ring_buffer.md R95, R96): the value is the predicate and nothing
changes; empty is 0 stored bytes, full is `CAP - 1`, and never both. -/
def Obligations.EmptyAndFullQueriesAnswer : Prop :=
  ∀ s : State,
    exec .rbIsEmpty s = .next { s with ports := { s.ports with
      res := some { status := .ok, value := if s.ring.head = s.ring.tail then 1 else 0 } } } ∧
    exec .rbIsFull s = .next { s with ports := { s.ports with
      res := some { status := .ok,
                    value := if (s.ring.tail + 1) % s.cfg.cap = s.ring.head then 1 else 0 } } } ∧
    (2 ≤ s.cfg.cap → s.ring.wf s.cfg.cap →
      (s.ring.head = s.ring.tail ↔ s.ring.stored s.cfg.cap = 0) ∧
      ((s.ring.tail + 1) % s.cfg.cap = s.ring.head ↔ s.ring.stored s.cfg.cap = s.cfg.cap - 1) ∧
      ¬ (s.ring.head = s.ring.tail ∧ (s.ring.tail + 1) % s.cfg.cap = s.ring.head))

/-- `RB_FREE_SPACE` (40_ring_buffer.md R97): the value is `Free`, which with the stored bytes makes
`CAP - 1`, and nothing changes; an empty buffer answers `CAP - 1`, a full one 0. -/
def Obligations.FreeSpaceQueryAnswers : Prop :=
  ∀ s : State, s.ring.wf s.cfg.cap →
    exec .rbFreeSpace s = .next { s with ports := { s.ports with
      res := some { status := .ok,
                    value := (((s.ring.head : Int) - s.ring.tail - 1) % s.cfg.cap).toNat } } } ∧
    (((s.ring.head : Int) - s.ring.tail - 1) % s.cfg.cap).toNat + s.ring.stored s.cfg.cap =
      s.cfg.cap - 1 ∧
    (s.ring.head = s.ring.tail →
      (((s.ring.head : Int) - s.ring.tail - 1) % s.cfg.cap).toNat = s.cfg.cap - 1) ∧
    ((s.ring.tail + 1) % s.cfg.cap = s.ring.head →
      (((s.ring.head : Int) - s.ring.tail - 1) % s.cfg.cap).toNat = 0)

/-- `RB_WRITE` and `RB_WRITE_LIN` (40_ring_buffer.md R98, R100): with room they write the span's bytes to
the slots from `tail` on, around the end of the array, and advance `tail`; every other slot, `head`,
caller memory and everything beside the ring buffer are the same; without room nothing changes. The
linear form needs exclusivity (R93). -/
def Obligations.WritesAppendOrFail : Prop :=
  ∀ (s : State) (a n : Nat) (i : Instr), s.ring.wf s.cfg.cap → a + n ≤ 2 ^ s.cfg.addrW →
    i = .rbWrite a n ∨ (i = .rbWriteLin a n ∧ s.excl = true) →
    (n ≤ s.ring.free s.cfg.cap → ∃ t, exec i s = .next t ∧ presents s t .ok 0 ∧
      t.ring.head = s.ring.head ∧ t.ring.tail = (s.ring.tail + n) % s.cfg.cap ∧
      t.ring.storage.length = s.cfg.cap ∧
      (∀ k, k < n →
        t.ring.slot ((s.ring.tail + k) % s.cfg.cap) = Memory.read s.mem (a + k)) ∧
      (∀ j, (∀ k, k < n → j ≠ (s.ring.tail + k) % s.cfg.cap) → t.ring.slot j = s.ring.slot j) ∧
      t.mem = s.mem ∧ sameBesideRing s t) ∧
    (s.ring.free s.cfg.cap < n → exec i s = .next { s with ports := { s.ports with
      res := some { status := .errFull, value := 0 } } })

/-- `RB_READ` and `RB_READ_LIN` (40_ring_buffer.md R99, R101): with enough bytes they deliver the oldest to
the span and advance `head`; `storage`, `tail`, every byte outside the span and everything beside the
ring buffer are the same; with too few nothing changes, on loan or not. The linear form needs exclusivity
(R93); a span that is written is not on loan (70_reset_and_hazards.md R192; log 9). -/
def Obligations.ReadsDeliverOrFail : Prop :=
  ∀ (s : State) (a n : Nat) (i : Instr), s.ring.wf s.cfg.cap → Memory.wf s.mem →
    a + n ≤ 2 ^ s.cfg.addrW → i = .rbRead a n ∨ (i = .rbReadLin a n ∧ s.excl = true) →
    (n ≤ s.ring.stored s.cfg.cap → (∀ x, a ≤ x → x < a + n → s.onLoan x = false) →
      ∃ t, exec i s = .next t ∧ presents s t .ok 0 ∧
      t.ring = { s.ring with head := (s.ring.head + n) % s.cfg.cap } ∧
      (∀ k, k < n →
        Memory.read t.mem (a + k) = s.ring.slot ((s.ring.head + k) % s.cfg.cap)) ∧
      (∀ x, ¬ (a ≤ x ∧ x < a + n) → Memory.read t.mem x = Memory.read s.mem x) ∧
      sameBesideRing s t) ∧
    (s.ring.stored s.cfg.cap < n → exec i s = .next { s with ports := { s.ports with
      res := some { status := .errEmpty, value := 0 } } })

/-- `RB_FLUSH` and `RB_FLUSH_LIN` (40_ring_buffer.md R102, R103): they deliver all stored bytes, oldest
first, leave `head = tail`, and the value is their number; every byte of memory beyond them and everything
beside the ring buffer are the same; they never fail. -/
def Obligations.FlushesDeliverEverything : Prop :=
  ∀ (s : State) (a : Nat) (i : Instr), s.ring.wf s.cfg.cap → Memory.wf s.mem →
    a + (s.cfg.cap - 1) ≤ 2 ^ s.cfg.addrW →
    (∀ x, a ≤ x → x < a + s.ring.stored s.cfg.cap → s.onLoan x = false) →
    i = .rbFlush a ∨ (i = .rbFlushLin a ∧ s.excl = true) →
    ∃ t, exec i s = .next t ∧ presents s t .ok (s.ring.stored s.cfg.cap) ∧
      t.ring = { s.ring with head := s.ring.tail } ∧
      storesAt s t a (s.ring.queue s.cfg.cap) ∧ sameBesideRing s t

/-- The safe and the linear variants agree: from a state in which both may run they have the same outcome
(40_ring_buffer.md R104). -/
def Obligations.LinearVariantsAgreeWithSafeOnes : Prop :=
  ∀ (s : State) (a n : Nat), s.ring.wf s.cfg.cap → s.excl = true →
    exec (.rbWriteLin a n) s = exec (.rbWrite a n) s ∧
    exec (.rbReadLin a n) s = exec (.rbRead a n) s ∧
    exec (.rbFlushLin a) s = exec (.rbFlush a) s

/-- The ring buffer is a bounded FIFO queue (40_ring_buffer.md R105): a completed write appends, a completed
read delivers and removes the first bytes, a flush all of them, `RB_INIT` empties it, a failing command
leaves it, and its length stays below `CAP`. -/
def Obligations.RingBufferIsBoundedFifo : Prop :=
  ∀ (s t : State) (a n : Nat), s.ring.wf s.cfg.cap → Memory.wf s.mem →
    (exec (.rbWrite a n) s = .next t → t.ring.wf s.cfg.cap ∧
      t.ring.queue s.cfg.cap = s.ring.queue s.cfg.cap ++
        (if (s.ring.queue s.cfg.cap).length + n < s.cfg.cap then Memory.readSpan s.mem a n else [])) ∧
    (exec (.rbRead a n) s = .next t → t.ring.wf s.cfg.cap ∧
      if n ≤ (s.ring.queue s.cfg.cap).length then
        Memory.readSpan t.mem a n = (s.ring.queue s.cfg.cap).take n ∧
        t.ring.queue s.cfg.cap = (s.ring.queue s.cfg.cap).drop n
      else t.ring.queue s.cfg.cap = s.ring.queue s.cfg.cap) ∧
    (exec (.rbFlush a) s = .next t → t.ring.wf s.cfg.cap ∧ t.ring.queue s.cfg.cap = [] ∧
      Memory.readSpan t.mem a (s.ring.queue s.cfg.cap).length = s.ring.queue s.cfg.cap) ∧
    (exec .rbInit s = .next t → t.ring.wf s.cfg.cap ∧ t.ring.queue s.cfg.cap = []) ∧
    (s.ring.queue s.cfg.cap).length < s.cfg.cap

/-- Writing `n` bytes into an empty buffer and then flushing returns those bytes in order with length `n`
(40_ring_buffer.md R102; 95_test_vectors.md S5). -/
def Obligations.WriteThenFlushReturnsTheBytes : Prop :=
  ∀ (s : State) (a d n : Nat), s.ring.wf s.cfg.cap → Memory.wf s.mem → s.drv.busy = false →
    s.ring.head = s.ring.tail → n < s.cfg.cap → a + n ≤ 2 ^ s.cfg.addrW →
    d + (s.cfg.cap - 1) ≤ 2 ^ s.cfg.addrW →
    ∃ t u, exec (.rbWrite a n) s = .next t ∧ exec (.rbFlush d) t = .next u ∧
      u.ports.res = some { status := .ok, value := n } ∧
      Memory.readSpan u.mem d n = Memory.readSpan s.mem a n ∧ u.ring.isEmpty = true

/-- Without exclusivity the linear variants are refused (40_ring_buffer.md R93). -/
def Obligations.LinearVariantsNeedExclusivity : Prop :=
  ∀ (s : State) (a n : Nat), s.arb.ie = true → s.ghost.xportUsed = true →
    (a + n ≤ 2 ^ s.cfg.addrW →
      exec (.rbWriteLin a n) s = .refused .exclusivityNotHeld ∧
      exec (.rbReadLin a n) s = .refused .exclusivityNotHeld) ∧
    (a + (s.cfg.cap - 1) ≤ 2 ^ s.cfg.addrW →
      exec (.rbFlushLin a) s = .refused .exclusivityNotHeld)

/-- A command whose span runs past the top of the address space is refused (20_memory.md R47), before its
status is looked at (log 8), and a transmission or a line read of length 0 is refused in every state
(42_transmission.md R133; 41_reception.md R118). -/
def Obligations.SpansAndLengthsOutsideTheRulesAreRefused : Prop :=
  ∀ (s : State) (a n : Nat),
    (2 ^ s.cfg.addrW < a + n → ∀ i ∈ [Instr.rbWrite a n, .rbRead a n, .rbWriteLin a n,
        .rbReadLin a n], exec i s = .refused .spanWraps) ∧
    (2 ^ s.cfg.addrW < a + n → 1 ≤ n → ∀ i ∈ [Instr.rxReadLine a n, .txTransmit a n,
        .txWriteSync a n], exec i s = .refused .spanWraps) ∧
    (2 ^ s.cfg.addrW < a + (s.cfg.cap - 1) → ∀ i ∈ [Instr.rbFlush a, .rbFlushLin a],
        exec i s = .refused .spanWraps) ∧
    (2 ^ s.cfg.addrW < a + s.drv.requestedLength → exec (.rxStart a) s = .refused .spanWraps) ∧
    exec (.txTransmit a 0) s = .refused .transmitOfLengthZero ∧
    exec (.txWriteSync a 0) s = .refused .transmitOfLengthZero ∧
    exec (.rxReadLine a 0) s = .refused .lineReadOfLengthZero

/-- No step of the foreground, outside its own line read, changes a byte on loan to a pending reception
(20_memory.md R48; 70_reset_and_hazards.md R192; for the reads and flushes log 9). -/
def Obligations.LoanedBytesAreNotWrittenByForeground : Prop :=
  ∀ (s t : State) (x : Nat), s.turn = .fg → s.fg.inLine = false → s.onLoan x = true →
    step s = .next t → Memory.read t.mem x = Memory.read s.mem x

/-! ### Reception -/

/-- `RX_INIT n` (41_reception.md R111; 60_exceptions.md R167): the length is tested first, then `busy`; a
failure changes nothing, a success loads the registers and nothing else. -/
def Obligations.RxInitDeclaresAReception : Prop :=
  ∀ (s : State) (n : Nat),
    (n < 2 → exec (.rxInit n) s = .next { s with ports := { s.ports with
      res := some { status := .errBadLength, value := 0 } } }) ∧
    (2 ≤ n → s.drv.busy = true → exec (.rxInit n) s = .next { s with ports := { s.ports with
      res := some { status := .errBusy, value := 0 } } }) ∧
    (2 ≤ n → s.drv.busy = false → exec (.rxInit n) s = .next { s with
      drv := { busy := false, requestedLength := n, receivedCount := 0, cursor := none }
      ghost := { s.ghost with armed := true }
      ports := { s.ports with res := some { status := .ok, value := 0 } } })

/-- `RX_START a` (41_reception.md R112, R113; 20_memory.md R57): in ARMED it arms the transport, sets the
cursor and `busy`; while busy it fails and changes nothing; in IDLE it is refused. The record of the
request on the transport port is this model's (log 12). -/
def Obligations.RxStartArmsTheReception : Prop :=
  ∀ (s : State) (a : Nat), a + s.drv.requestedLength ≤ 2 ^ s.cfg.addrW →
    (s.drv.busy = true → exec (.rxStart a) s = .next { s with ports := { s.ports with
      res := some { status := .errBusy, value := 0 } } }) ∧
    (s.drv.busy = false → s.ghost.armed = false →
      exec (.rxStart a) s = .refused .rxStartWithoutRxInit) ∧
    (s.drv.busy = false → s.ghost.armed = true → s.xp.rxArmed = none → s.arb.pendRxc = false →
      exec (.rxStart a) s = .next { s with
        drv := { s.drv with busy := true, cursor := some a }
        xp := { s.xp with rxArmed := some a }
        ghost := { armed := false, xportUsed := true }
        ports := { s.ports with
          res := some { status := .ok, value := 0 }
          exchanges := s.ports.exchanges ++ [.rxArm a .accepted] } })

/-- `RX_READ_LINE a, n`, first step (41_reception.md R114): it loads the registers and presents nothing; while
busy it fails with `-1` and changes nothing. -/
def Obligations.RxReadLineBegins : Prop :=
  ∀ (s : State) (a n : Nat), 1 ≤ n → a + n ≤ 2 ^ s.cfg.addrW →
    (s.drv.busy = true → exec (.rxReadLine a n) s = .next { s with ports := { s.ports with
      res := some { status := .errBusy, value := 2 ^ (2 * s.cfg.lenW + 1) - 1 } } }) ∧
    (s.drv.busy = false → exec (.rxReadLine a n) s = .next { s with
      drv := { s.drv with busy := true, requestedLength := n, receivedCount := 0 }
      ghost := { s.ghost with armed := false }
      fg := .readLine a n .recv })

/-- `RX_READ_LINE`, byte step (41_reception.md R115, R117; 20_memory.md R58): the answer of the transport,
whatever it is, ends the command with `ERR_HW`, or is stored at the next slot and, unless it is `CR`,
echoed and counted (in the step itself in the default reading of R130 or with a free transport; the split
reading is `SplitTransmitTakesTwoSteps`). -/
def Obligations.LineReadTakesOneByte : Prop :=
  ∀ (s : State) (a n : Nat), s.Inv → s.turn = .fg → s.fg = .readLine a n .recv →
    ∃ t, step s = .next t ∧
      t.cfg = s.cfg ∧ t.arb = s.arb ∧ t.xp.rxArmed = s.xp.rxArmed ∧ t.obs.cbCount = s.obs.cbCount ∧
      t.drv.cursor = s.drv.cursor ∧ t.drv.requestedLength = s.drv.requestedLength ∧
      match s.nextRx with
      | .error => t.fg = .idle ∧ t.drv.busy = false ∧
          t.drv.receivedCount = s.drv.receivedCount ∧ t.mem = s.mem ∧ t.ring = s.ring ∧
          t.obs = s.obs ∧ t.xp = s.xp ∧
          t.ports.res = some { status := .errHw, value := 2 ^ (2 * s.cfg.lenW + 1) - 1 }
      | .ok b => storesAt s t (a + s.drv.receivedCount) [b] ∧ t.drv.busy = true ∧
          t.ports.res = none ∧
          if b = s.cfg.cr then
            t.fg = .readLine a n (.finish true) ∧ t.ring = s.ring ∧ t.obs = s.obs ∧ t.xp = s.xp ∧
            t.drv.receivedCount =
              (if s.cfg.rxCountIncludesCr then s.drv.receivedCount + 1 else s.drv.receivedCount)
          else
            s.cfg.txFallbackSplit = false ∨ s.txBusy = false →
              transmitted [b] s t ∧ t.drv.receivedCount = s.drv.receivedCount + 1 ∧
              t.fg = .readLine a n
                (if s.drv.receivedCount + 1 = n then .finish false else .recv)

/-- `RX_READ_LINE`, last step (41_reception.md R116): the result counts the slots of the line, the last of
which holds `CR`; `CR LF` is transmitted, `busy` falls and the foreground is free (in the step itself in
the default reading of R130 or with a free transport; in the split reading of R135, decision D12, after
the enqueue: that the sequencer keeps the two bytes and the count until then is this model's, log 11).
Every byte of memory but the last slot of a line without `CR` is the same. -/
def Obligations.LineReadEndsWithCarriageReturn : Prop :=
  ∀ (s : State) (a n : Nat) (sawCR : Bool), s.Inv → s.turn = .fg →
    s.fg = .readLine a n (.finish sawCR) → ∃ t k, step s = .next t ∧ 1 ≤ k ∧ k ≤ n ∧
      (sawCR = false → k = n) ∧
      (sawCR = true → k =
        (if s.cfg.rxCountIncludesCr then s.drv.receivedCount else s.drv.receivedCount + 1)) ∧
      Memory.read t.mem (a + k - 1) = s.cfg.cr ∧
      (∀ x, sawCR = true ∨ x ≠ a + n - 1 → Memory.read t.mem x = Memory.read s.mem x) ∧
      t.arb = s.arb ∧ t.xp.rxArmed = s.xp.rxArmed ∧ t.cfg = s.cfg ∧
      t.obs.cbCount = s.obs.cbCount ∧
      (s.cfg.txFallbackSplit = false ∨ s.txBusy = false →
        t.ports.res = some { status := .ok, value := k } ∧
        transmitted [s.cfg.cr, s.cfg.lf] s t ∧ t.drv = { s.drv with busy := false } ∧
        t.fg = .idle) ∧
      (s.cfg.txFallbackSplit = true → s.txBusy = true →
        t.ports.res = none ∧ t.fg = .enqueue [s.cfg.cr, s.cfg.lf] (.line k) ∧ t.drv = s.drv ∧
        t.ring = s.ring ∧ t.obs = s.obs ∧ t.xp = s.xp)

/-- `DRV_STATUS` (41_reception.md R119; 30_encoding.md R75): the value is the concatenation of `busy`,
`requestedLength` and `receivedCount`, read back by its bit positions, and nothing changes. -/
def Obligations.DrvStatusPacksTheRegisters : Prop :=
  ∀ s : State, s.Inv → ∃ v, exec .drvStatus s = .next { s with ports := { s.ports with
      res := some { status := .ok, value := v } } } ∧
    v < 2 ^ (2 * s.cfg.lenW + 1) ∧
    v / 2 ^ (2 * s.cfg.lenW) = (if s.drv.busy then 1 else 0) ∧
    v / 2 ^ s.cfg.lenW % 2 ^ s.cfg.lenW = s.drv.requestedLength ∧
    v % 2 ^ s.cfg.lenW = s.drv.receivedCount

/-- The transitions of the reception state machine: a step goes only where the table lets it
(41_reception.md R120, R121), and nothing leaves RECEIVING except the handler. -/
def Obligations.ReceptionStateMachine : Prop :=
  ∀ s t : State, s.Inv → step s = .next t →
    match s.rxState with
    | .idle => t.rxState = .idle ∨ t.rxState = .armed ∨ t.rxState = .blockingRead
    | .armed => t.rxState = .armed ∨ t.rxState = .receiving ∨ t.rxState = .blockingRead
    | .receiving => t.rxState = .receiving ∨ (t.rxState = .idle ∧ s.turn = .evRxc)
    | .blockingRead => t.rxState = .blockingRead ∨ (t.rxState = .idle ∧ s.turn = .fg)

/-- Only the foreground sets `busy` (70_reset_and_hazards.md R201; 10_state.md R29). -/
def Obligations.OnlyTheForegroundSetsBusy : Prop :=
  ∀ s t : State, s.turn ≠ .fg → step s = .next t → s.drv.busy = false → t.drv.busy = false

/-- `rx_done` is emitted, and counted, exactly when the handler ends an asynchronous reception and a
callback is registered (41_reception.md R122; 43_completion_events.md R144). -/
def Obligations.NotificationExactlyAtEndOfReception : Prop :=
  ∀ s t : State, s.Inv → step s = .next t →
    (t.obs.cbCount = s.obs.cbCount + 1 ∧ t.ports.rxDone = true ∧ s.cfg.cbPresent = true ∧
      s.rxState = .receiving ∧ t.rxState = .idle) ∨
    (t.obs.cbCount = s.obs.cbCount ∧ t.ports.rxDone = false ∧
      (s.cfg.cbPresent = true → s.rxState = .receiving → t.rxState = .receiving))

/-! ### Transmission -/

/-- `TX_TRANSMIT` and `TX_WRITE_SYNC` with a free transport (42_transmission.md R131, R132, R130; 20_memory.md
R53): the whole span is accepted, in both readings of the fallback, and only the wire, `txActive` and the
ghost bit change. The record of the request is this model's (log 12). -/
def Obligations.TransmitIsAcceptedByAFreeTransport : Prop :=
  ∀ (s : State) (a n : Nat) (i : Instr), s.fg = .idle → 1 ≤ n → a + n ≤ 2 ^ s.cfg.addrW →
    s.xp.txActive = false → s.arb.pendTxc = false → i = .txTransmit a n ∨ i = .txWriteSync a n →
    exec i s = .next { s with
      xp := { s.xp with txActive := true }
      obs := { s.obs with wire := s.obs.wire ++ Memory.readSpan s.mem a n }
      ghost := { s.ghost with xportUsed := true }
      ports := { s.ports with
        res := some { status := .ok, value := if i = .txWriteSync a n then n else 0 }
        exchanges := s.ports.exchanges ++ [.txAsync (Memory.readSpan s.mem a n) .accepted] } }

/-- `TX_TRANSMIT` and `TX_WRITE_SYNC` with the transport busy (42_transmission.md R130, R131, R132), in the
default reading: the whole span is queued, or it does not fit and nothing but the ghost bit changes. -/
def Obligations.TransmitIsQueuedWholeOrFails : Prop :=
  ∀ (s : State) (a n : Nat) (i : Instr), s.fg = .idle → s.ring.wf s.cfg.cap →
    s.cfg.txFallbackSplit = false → 1 ≤ n → a + n ≤ 2 ^ s.cfg.addrW →
    s.xp.txActive = true ∨ s.arb.pendTxc = true → i = .txTransmit a n ∨ i = .txWriteSync a n →
    ∃ t, exec i s = .next t ∧ t.cfg = s.cfg ∧ t.drv = s.drv ∧ t.arb = s.arb ∧ t.xp = s.xp ∧
      t.fg = s.fg ∧ t.ghost = { s.ghost with xportUsed := true } ∧ t.obs = s.obs ∧ t.mem = s.mem ∧
      t.env = s.env ∧ t.runRefused = s.runRefused ∧
      (n ≤ s.ring.free s.cfg.cap → t.ring.wf s.cfg.cap ∧ t.ring.head = s.ring.head ∧
        t.ring.queue s.cfg.cap = s.ring.queue s.cfg.cap ++ Memory.readSpan s.mem a n ∧
        t.ports.res = some { status := .ok, value := if i = .txWriteSync a n then n else 0 }) ∧
      (s.ring.free s.cfg.cap < n → t.ring = s.ring ∧
        t.ports.res = some { status := .errFull, value :=
          if i = .txWriteSync a n then 2 ^ (2 * s.cfg.lenW + 1) - 1 else 0 })

/-- The other reading of the fallback (42_transmission.md R135): the step of a refused attempt ends after
the attempt, for a command and for the echo of a line read, and the next foreground step makes the test
and the enqueue and goes on as the call asks (R131, R132; 41_reception.md R115, R116). How the state keeps
the span in between is this model's (log 11). -/
def Obligations.SplitTransmitTakesTwoSteps : Prop :=
  (∀ (s : State) (a n : Nat) (i : Instr) (call : TxCall), s.cfg.txFallbackSplit = true → 1 ≤ n →
    a + n ≤ 2 ^ s.cfg.addrW → s.xp.txActive = true ∨ s.arb.pendTxc = true →
    (i = .txTransmit a n ∧ call = .transmit) ∨ (i = .txWriteSync a n ∧ call = .writeSync n) →
    exec i s = .next { s with
      fg := .enqueue (Memory.readSpan s.mem a n) call
      ghost := { s.ghost with xportUsed := true }
      ports := { s.ports with
        exchanges := s.ports.exchanges ++ [.txAsync (Memory.readSpan s.mem a n) .busy] } }) ∧
  (∀ (s : State) (a n : Nat) (b : Byte), s.Inv → s.cfg.txFallbackSplit = true → s.turn = .fg →
    s.fg = .readLine a n .recv → s.nextRx = .ok b → b ≠ s.cfg.cr →
    s.xp.txActive = true ∨ s.arb.pendTxc = true → ∃ t, step s = .next t ∧
      t.fg = .enqueue [b] (.echo a n) ∧ storesAt s t (a + s.drv.receivedCount) [b] ∧
      t.drv = s.drv ∧ t.ring = s.ring ∧ t.obs = s.obs ∧ t.xp = s.xp ∧ t.arb = s.arb ∧
      t.ports.res = none) ∧
  (∀ (s : State) (bytes : List Byte) (call : TxCall), s.ring.wf s.cfg.cap → s.turn = .fg →
    s.fg = .enqueue bytes call → ∃ t, step s = .next t ∧ t.obs = s.obs ∧ t.xp = s.xp ∧
      t.arb = s.arb ∧ t.mem = s.mem ∧
      (bytes.length ≤ s.ring.free s.cfg.cap →
        t.ring.queue s.cfg.cap = s.ring.queue s.cfg.cap ++ bytes) ∧
      (s.ring.free s.cfg.cap < bytes.length → t.ring = s.ring) ∧
      match call with
      | .transmit => t.fg = .idle ∧ t.drv = s.drv ∧ t.ports.res = some (
          if s.ring.free s.cfg.cap < bytes.length then { status := .errFull, value := 0 }
          else { status := .ok, value := 0 })
      | .writeSync n => t.fg = .idle ∧ t.drv = s.drv ∧ t.ports.res = some (
          if s.ring.free s.cfg.cap < bytes.length then
            { status := .errFull, value := 2 ^ (2 * s.cfg.lenW + 1) - 1 }
          else { status := .ok, value := n })
      | .echo a n => t.ports.res = none ∧
          t.drv = { s.drv with receivedCount := s.drv.receivedCount + 1 } ∧
          t.fg = .readLine a n (if s.drv.receivedCount + 1 = n then .finish false else .recv)
      | .line stored => t.fg = .idle ∧ t.drv = { s.drv with busy := false } ∧
          t.ports.res = some { status := .ok, value := stored })

/-- The transmit procedure never loses, duplicates or reorders (42_transmission.md R130, R134): while waiting
bytes are covered, a successful call appends its bytes to the output stream and a failing one leaves it. -/
def Obligations.TransmitAppendsToTheOutputStream : Prop :=
  ∀ (s : State) (bytes : List Byte), s.ring.wf s.cfg.cap → s.queueCovered →
    ((transmit bytes s).1 = .ok → (transmit bytes s).2.outStream = s.outStream ++ bytes) ∧
    ((transmit bytes s).1 = .errFull → (transmit bytes s).2.outStream = s.outStream) ∧
    ((transmit bytes s).1 = .ok ∨ (transmit bytes s).1 = .errFull)

/-- Order on the wire (42_transmission.md R134; 10_state.md R32 item 8): in the default reading, a step in
which the foreground issues no ring-buffer command and no blocking transmission fails only extends the
output stream, the accepted bytes followed by the waiting ones, and keeps waiting bytes covered. -/
def Obligations.OutputStreamOnlyExtends : Prop :=
  ∀ s t : State, s.Inv → s.queueCovered → s.cfg.txFallbackSplit = false →
    s.issuesRingCommand = false → (s.turn = .evTxc → s.nextTx = .ok) → step s = .next t →
    s.outStream <+: t.outStream ∧ t.queueCovered

/-! ### Completion events and transport steps -/

/-- `EV_RXC` on a byte other than `CR` (43_completion_events.md R144, R148; 41_reception.md R122): it is echoed
and counted; below the requested length the next address is armed, at it the reception ends. Caller
memory, `ie`, the pending transmit event and the foreground are the same. -/
def Obligations.ReceiveHandlerEchoesAndRearms : Prop :=
  ∀ (s : State) (c : Nat), s.Inv → s.arb.ie = true → s.arb.pendRxc = true →
    s.drv.cursor = some c → Memory.read s.mem c ≠ s.cfg.cr →
    ∃ t, exec .evRxc s = .next t ∧ transmitted [Memory.read s.mem c] s t ∧
      t.cfg = s.cfg ∧ t.mem = s.mem ∧ t.fg = s.fg ∧ t.arb = { s.arb with pendRxc := false } ∧
      t.ghost = { s.ghost with xportUsed := true } ∧ t.env = s.env ∧ t.ports.res = s.ports.res ∧
      t.runRefused = s.runRefused ∧
      (s.drv.receivedCount + 1 < s.drv.requestedLength →
        t.drv = { s.drv with receivedCount := s.drv.receivedCount + 1, cursor := some (c + 1) } ∧
        t.xp.rxArmed = some (c + 1) ∧ t.obs.cbCount = s.obs.cbCount) ∧
      (s.drv.receivedCount + 1 = s.drv.requestedLength →
        t.drv = { s.drv with receivedCount := s.drv.receivedCount + 1, busy := false } ∧
        t.xp.rxArmed = none ∧
        t.obs.cbCount = s.obs.cbCount + (if s.cfg.cbPresent then 1 else 0))

/-- `EV_RXC` on `CR` (43_completion_events.md R144, R148; 41_reception.md R122): one `LF` is transmitted, the
count is kept (or grows, under the switch), nothing is re-armed and the reception ends. -/
def Obligations.ReceiveHandlerEndsLineOnCarriageReturn : Prop :=
  ∀ (s : State) (c : Nat), s.Inv → s.arb.ie = true → s.arb.pendRxc = true →
    s.drv.cursor = some c → Memory.read s.mem c = s.cfg.cr →
    ∃ t, exec .evRxc s = .next t ∧ transmitted [s.cfg.lf] s t ∧
      t.drv = { s.drv with
        busy := false
        receivedCount :=
          if s.cfg.rxCountIncludesCr then s.drv.receivedCount + 1 else s.drv.receivedCount } ∧
      t.xp.rxArmed = none ∧ t.obs.cbCount = s.obs.cbCount + (if s.cfg.cbPresent then 1 else 0) ∧
      t.cfg = s.cfg ∧ t.mem = s.mem ∧ t.fg = s.fg ∧ t.arb = { s.arb with pendRxc := false } ∧
      t.ghost = { s.ghost with xportUsed := true } ∧ t.env = s.env ∧ t.ports.res = s.ports.res ∧
      t.runRefused = s.runRefused

/-- A receive-complete event with no reception behind it is refused (43_completion_events.md R145). -/
def Obligations.ReceiveEventWithNoReceptionIsRefused : Prop :=
  ∀ s : State, s.arb.ie = true → s.arb.pendRxc = true → s.drv.cursor = none ∨ s.drv.busy = false →
    exec .evRxc s = .refused .receiveCompleteWithNoReception

/-- `EV_TXC` (43_completion_events.md R146, R147, R150; 20_memory.md R55, R56): `pendTxc` and `txActive` fall;
the whole queue leaves the ring buffer and goes out by one blocking transfer, all of it or, whatever the
transport answers, a prefix; with an empty buffer nothing else happens. Everything else is the same. -/
def Obligations.TransmitHandlerDrainsTheQueue : Prop :=
  ∀ s : State, s.ring.wf s.cfg.cap → s.arb.ie = true → s.arb.pendTxc = true →
    ∃ t, exec .evTxc s = .next t ∧
      t.cfg = s.cfg ∧ t.drv = s.drv ∧ t.arb = { s.arb with pendTxc := false } ∧
      t.xp = { s.xp with txActive := false } ∧ t.fg = s.fg ∧ t.ghost.armed = s.ghost.armed ∧
      t.mem = s.mem ∧ t.obs.cbCount = s.obs.cbCount ∧ t.ports.res = s.ports.res ∧
      t.ports.rxDone = s.ports.rxDone ∧ t.runRefused = s.runRefused ∧
      t.ring = { s.ring with head := s.ring.tail } ∧
      (s.ring.head = s.ring.tail → t.obs = s.obs ∧ t.ghost = s.ghost ∧ t.env = s.env ∧
        t.ports = s.ports) ∧
      (s.ring.head ≠ s.ring.tail → match s.nextTx with
        | .ok => t.obs.wire = s.obs.wire ++ s.ring.queue s.cfg.cap
        | .error sent => t.obs.wire = s.obs.wire ++ (s.ring.queue s.cfg.cap).take sent)

/-- The transport's steps (43_completion_events.md R141, R142, R143): each, where it is enabled, does exactly
what its rule says, and where it is not enabled it does not happen (00_scope.md R10 (c); log 5). With the
model's switch off no spurious event comes in the set-up window (70_reset_and_hazards.md R188; log 16). In
the transport's turn the step of the block is that step, with the turn off the schedule and
the output ports quiet (logs 4 and 12). -/
def Obligations.TransportStepsRaiseEvents : Prop :=
  ∀ (s : State) (b : Byte),
    (∀ c, s.xp.rxArmed = some c → xpRxArrive b s = { s with
      mem := Memory.write s.mem c b
      xp := { s.xp with rxArmed := none }
      arb := { s.arb with pendRxc := true } }) ∧
    (s.xp.rxArmed = none → xpRxArrive b s = s) ∧
    (s.xp.txActive = true → s.arb.pendTxc = false →
      xpTxDone s = { s with arb := { s.arb with pendTxc := true } }) ∧
    (s.xp.txActive = false ∨ s.arb.pendTxc = true → xpTxDone s = s) ∧
    (s.cfg.spuriousTxc = true → s.xp.txActive = false → s.arb.pendTxc = false →
      s.cfg.spuriousInSetUp = true ∨ s.ghost.xportUsed = true →
      xpTxSpurious s = { s with arb := { s.arb with pendTxc := true } }) ∧
    (s.cfg.spuriousTxc = false ∨ s.xp.txActive = true ∨ s.arb.pendTxc = true ∨
      (s.cfg.spuriousInSetUp = false ∧ s.ghost.xportUsed = false) → xpTxSpurious s = s) ∧
    (s.turn = .rxArrive b → step s = .next (xpRxArrive b { s with
      ports := { res := none, rxDone := false, exchanges := [] }
      env := { s.env with sched := s.env.sched.tail } })) ∧
    (s.turn = .txDone → step s = .next (xpTxDone { s with
      ports := { res := none, rxDone := false, exchanges := [] }
      env := { s.env with sched := s.env.sched.tail } })) ∧
    (s.turn = .txSpurious → step s = .next (xpTxSpurious { s with
      ports := { res := none, rxDone := false, exchanges := [] }
      env := { s.env with sched := s.env.sched.tail } }))

/-! ### Status codes -/

/-- A command that fails changes no state (60_exceptions.md R160); the ghost bit of the request that a
failing transmission made of the transport is set (10_state.md R26). -/
def Obligations.FailingCommandChangesNothing : Prop :=
  ∀ (s t : State) (i : Instr) (r : Result), s.fg = .idle → s.ports.res = none →
    s.cfg.txFallbackSplit = false → exec i s = .next t → t.ports.res = some r →
    r.status.failed = true →
    t.cfg = s.cfg ∧ t.ring = s.ring ∧ t.drv = s.drv ∧ t.arb = s.arb ∧ t.xp = s.xp ∧ t.fg = s.fg ∧
      t.obs = s.obs ∧ t.mem = s.mem ∧ t.ghost.armed = s.ghost.armed ∧ t.env = s.env ∧
      t.runRefused = s.runRefused

/-- Every result value fits the `VAL_W` bits of the result port (30_encoding.md R75; 00_scope.md R7). -/
def Obligations.ResultValueFitsThePort : Prop :=
  ∀ (s t : State) (r : Result), s.Inv → step s = .next t → t.ports.res = some r →
    r.value < 2 ^ (2 * s.cfg.lenW + 1)
end

