-- ==== Sys2Proof/Laws/State.lean ====
section
/-! SUPPORT. What each update of the state does to each group of fields: one lemma per group per update,
so that no proof unfolds an update. -/

namespace Sys2Proof.Machine

variable (s : State)

@[simp] theorem State.present_cfg (st : Status) (v : Nat) : (s.present st v).cfg = s.cfg := rfl
@[simp] theorem State.present_ring (st : Status) (v : Nat) : (s.present st v).ring = s.ring := rfl
@[simp] theorem State.present_drv (st : Status) (v : Nat) : (s.present st v).drv = s.drv := rfl
@[simp] theorem State.present_arb (st : Status) (v : Nat) : (s.present st v).arb = s.arb := rfl
@[simp] theorem State.present_xp (st : Status) (v : Nat) : (s.present st v).xp = s.xp := rfl
@[simp] theorem State.present_fg (st : Status) (v : Nat) : (s.present st v).fg = s.fg := rfl
@[simp] theorem State.present_ghost (st : Status) (v : Nat) :
    (s.present st v).ghost =
      s.ghost := rfl
@[simp] theorem State.present_obs (st : Status) (v : Nat) : (s.present st v).obs = s.obs := rfl
@[simp] theorem State.present_mem (st : Status) (v : Nat) : (s.present st v).mem = s.mem := rfl
@[simp] theorem State.present_ports (st : Status) (v : Nat) :
    (s.present st v).ports =
      { s.ports with res := some { status := st, value := v } } := rfl
@[simp] theorem State.present_env (st : Status) (v : Nat) : (s.present st v).env = s.env := rfl
@[simp] theorem State.present_runRefused (st : Status) (v : Nat) :
    (s.present st v).runRefused = s.runRefused := rfl

@[simp] theorem State.writeMem_cfg (a : Nat) (v : List Byte) : (s.writeMem a v).cfg = s.cfg := rfl
@[simp] theorem State.writeMem_ring (a : Nat) (v : List Byte) :
    (s.writeMem a v).ring =
      s.ring := rfl
@[simp] theorem State.writeMem_drv (a : Nat) (v : List Byte) : (s.writeMem a v).drv = s.drv := rfl
@[simp] theorem State.writeMem_arb (a : Nat) (v : List Byte) : (s.writeMem a v).arb = s.arb := rfl
@[simp] theorem State.writeMem_xp (a : Nat) (v : List Byte) : (s.writeMem a v).xp = s.xp := rfl
@[simp] theorem State.writeMem_fg (a : Nat) (v : List Byte) : (s.writeMem a v).fg = s.fg := rfl
@[simp] theorem State.writeMem_ghost (a : Nat) (v : List Byte) :
    (s.writeMem a v).ghost =
      s.ghost := rfl
@[simp] theorem State.writeMem_obs (a : Nat) (v : List Byte) : (s.writeMem a v).obs = s.obs := rfl
@[simp] theorem State.writeMem_mem (a : Nat) (v : List Byte) :
    (s.writeMem a v).mem =
      Memory.writeSpan s.mem a v := rfl
@[simp] theorem State.writeMem_ports (a : Nat) (v : List Byte) :
    (s.writeMem a v).ports =
      s.ports := rfl
@[simp] theorem State.writeMem_env (a : Nat) (v : List Byte) : (s.writeMem a v).env = s.env := rfl
@[simp] theorem State.writeMem_runRefused (a : Nat) (v : List Byte) :
    (s.writeMem a v).runRefused = s.runRefused := rfl

@[simp] theorem State.setCount_cfg (n : Nat) : (s.setCount n).cfg = s.cfg := rfl
@[simp] theorem State.setCount_ring (n : Nat) : (s.setCount n).ring = s.ring := rfl
@[simp] theorem State.setCount_drv (n : Nat) :
    (s.setCount n).drv =
      { s.drv with receivedCount := n } := rfl
@[simp] theorem State.setCount_arb (n : Nat) : (s.setCount n).arb = s.arb := rfl
@[simp] theorem State.setCount_xp (n : Nat) : (s.setCount n).xp = s.xp := rfl
@[simp] theorem State.setCount_fg (n : Nat) : (s.setCount n).fg = s.fg := rfl
@[simp] theorem State.setCount_ghost (n : Nat) : (s.setCount n).ghost = s.ghost := rfl
@[simp] theorem State.setCount_obs (n : Nat) : (s.setCount n).obs = s.obs := rfl
@[simp] theorem State.setCount_mem (n : Nat) : (s.setCount n).mem = s.mem := rfl
@[simp] theorem State.setCount_ports (n : Nat) : (s.setCount n).ports = s.ports := rfl
@[simp] theorem State.setCount_env (n : Nat) : (s.setCount n).env = s.env := rfl
@[simp] theorem State.setCount_runRefused (n : Nat) :
    (s.setCount n).runRefused = s.runRefused := rfl

@[simp] theorem State.exchange_cfg (e : Exchange) : (s.exchange e).cfg = s.cfg := rfl
@[simp] theorem State.exchange_ring (e : Exchange) : (s.exchange e).ring = s.ring := rfl
@[simp] theorem State.exchange_drv (e : Exchange) : (s.exchange e).drv = s.drv := rfl
@[simp] theorem State.exchange_arb (e : Exchange) : (s.exchange e).arb = s.arb := rfl
@[simp] theorem State.exchange_xp (e : Exchange) : (s.exchange e).xp = s.xp := rfl
@[simp] theorem State.exchange_fg (e : Exchange) : (s.exchange e).fg = s.fg := rfl
@[simp] theorem State.exchange_ghost (e : Exchange) :
    (s.exchange e).ghost =
      { s.ghost with xportUsed := true } := rfl
@[simp] theorem State.exchange_obs (e : Exchange) : (s.exchange e).obs = s.obs := rfl
@[simp] theorem State.exchange_mem (e : Exchange) : (s.exchange e).mem = s.mem := rfl
@[simp] theorem State.exchange_ports (e : Exchange) :
    (s.exchange e).ports =
      { s.ports with exchanges := s.ports.exchanges ++ [e] } := rfl
@[simp] theorem State.exchange_env (e : Exchange) : (s.exchange e).env = s.env := rfl
@[simp] theorem State.exchange_runRefused (e : Exchange) :
    (s.exchange e).runRefused = s.runRefused := rfl

@[simp] theorem State.leaveLine_cfg : (s.leaveLine).cfg = s.cfg := rfl
@[simp] theorem State.leaveLine_ring : (s.leaveLine).ring = s.ring := rfl
@[simp] theorem State.leaveLine_drv : (s.leaveLine).drv = { s.drv with busy := false } := rfl
@[simp] theorem State.leaveLine_arb : (s.leaveLine).arb = s.arb := rfl
@[simp] theorem State.leaveLine_xp : (s.leaveLine).xp = s.xp := rfl
@[simp] theorem State.leaveLine_fg : (s.leaveLine).fg = .idle := rfl
@[simp] theorem State.leaveLine_ghost : (s.leaveLine).ghost = s.ghost := rfl
@[simp] theorem State.leaveLine_obs : (s.leaveLine).obs = s.obs := rfl
@[simp] theorem State.leaveLine_mem : (s.leaveLine).mem = s.mem := rfl
@[simp] theorem State.leaveLine_ports : (s.leaveLine).ports = s.ports := rfl
@[simp] theorem State.leaveLine_env : (s.leaveLine).env = s.env := rfl
@[simp] theorem State.leaveLine_runRefused : (s.leaveLine).runRefused = s.runRefused := rfl

@[simp] theorem State.raise_cfg (r t : Bool) : (s.raise r t).cfg = s.cfg := rfl
@[simp] theorem State.raise_ring (r t : Bool) : (s.raise r t).ring = s.ring := rfl
@[simp] theorem State.raise_drv (r t : Bool) : (s.raise r t).drv = s.drv := rfl
@[simp] theorem State.raise_arb (r t : Bool) :
    (s.raise r t).arb =
      { s.arb with pendRxc := s.arb.pendRxc || r, pendTxc := s.arb.pendTxc || t } := rfl
@[simp] theorem State.raise_xp (r t : Bool) : (s.raise r t).xp = s.xp := rfl
@[simp] theorem State.raise_fg (r t : Bool) : (s.raise r t).fg = s.fg := rfl
@[simp] theorem State.raise_ghost (r t : Bool) : (s.raise r t).ghost = s.ghost := rfl
@[simp] theorem State.raise_obs (r t : Bool) : (s.raise r t).obs = s.obs := rfl
@[simp] theorem State.raise_mem (r t : Bool) : (s.raise r t).mem = s.mem := rfl
@[simp] theorem State.raise_ports (r t : Bool) : (s.raise r t).ports = s.ports := rfl
@[simp] theorem State.raise_env (r t : Bool) : (s.raise r t).env = s.env := rfl
@[simp] theorem State.raise_runRefused (r t : Bool) : (s.raise r t).runRefused = s.runRefused := rfl

@[simp] theorem State.beginStep_cfg : (s.beginStep).cfg = s.cfg := rfl
@[simp] theorem State.beginStep_ring : (s.beginStep).ring = s.ring := rfl
@[simp] theorem State.beginStep_drv : (s.beginStep).drv = s.drv := rfl
@[simp] theorem State.beginStep_arb : (s.beginStep).arb = s.arb := rfl
@[simp] theorem State.beginStep_xp : (s.beginStep).xp = s.xp := rfl
@[simp] theorem State.beginStep_fg : (s.beginStep).fg = s.fg := rfl
@[simp] theorem State.beginStep_ghost : (s.beginStep).ghost = s.ghost := rfl
@[simp] theorem State.beginStep_obs : (s.beginStep).obs = s.obs := rfl
@[simp] theorem State.beginStep_mem : (s.beginStep).mem = s.mem := rfl
@[simp] theorem State.beginStep_ports : (s.beginStep).ports = Ports.quiet := rfl
@[simp] theorem State.beginStep_env :
    (s.beginStep).env =
      { s.env with sched := s.env.sched.tail } := rfl
@[simp] theorem State.beginStep_runRefused : (s.beginStep).runRefused = s.runRefused := rfl

@[simp] theorem State.endReception_cfg : (s.endReception).cfg = s.cfg := by
  unfold State.endReception State.notifyRxDone; split <;> rfl
@[simp] theorem State.endReception_ring : (s.endReception).ring = s.ring := by
  unfold State.endReception State.notifyRxDone; split <;> rfl
@[simp] theorem State.endReception_drv : (s.endReception).drv = { s.drv with busy := false } := by
  unfold State.endReception State.notifyRxDone; split <;> rfl
@[simp] theorem State.endReception_arb : (s.endReception).arb = s.arb := by
  unfold State.endReception State.notifyRxDone; split <;> rfl
@[simp] theorem State.endReception_xp : (s.endReception).xp = s.xp := by
  unfold State.endReception State.notifyRxDone; split <;> rfl
@[simp] theorem State.endReception_fg : (s.endReception).fg = s.fg := by
  unfold State.endReception State.notifyRxDone; split <;> rfl
@[simp] theorem State.endReception_ghost : (s.endReception).ghost = s.ghost := by
  unfold State.endReception State.notifyRxDone; split <;> rfl
@[simp] theorem State.endReception_obs :
    (s.endReception).obs =
      (if s.cfg.cbPresent then { s.obs with cbCount := s.obs.cbCount + 1 } else s.obs) := by
  unfold State.endReception State.notifyRxDone; split <;> rfl
@[simp] theorem State.endReception_mem : (s.endReception).mem = s.mem := by
  unfold State.endReception State.notifyRxDone; split <;> rfl
@[simp] theorem State.endReception_ports :
    (s.endReception).ports =
      (if s.cfg.cbPresent then { s.ports with rxDone := true } else s.ports) := by
  unfold State.endReception State.notifyRxDone; split <;> rfl
@[simp] theorem State.endReception_env : (s.endReception).env = s.env := by
  unfold State.endReception State.notifyRxDone; split <;> rfl
@[simp] theorem State.endReception_runRefused : (s.endReception).runRefused = s.runRefused := by
  unfold State.endReception State.notifyRxDone; split <;> rfl

@[simp] theorem State.clearPending_rxc_cfg : (s.clearPending .rxc).cfg = s.cfg := rfl
@[simp] theorem State.clearPending_rxc_ring : (s.clearPending .rxc).ring = s.ring := rfl
@[simp] theorem State.clearPending_rxc_drv : (s.clearPending .rxc).drv = s.drv := rfl
@[simp] theorem State.clearPending_rxc_arb :
    (s.clearPending .rxc).arb =
      { s.arb with pendRxc := false } := rfl
@[simp] theorem State.clearPending_rxc_xp : (s.clearPending .rxc).xp = s.xp := rfl
@[simp] theorem State.clearPending_rxc_fg : (s.clearPending .rxc).fg = s.fg := rfl
@[simp] theorem State.clearPending_rxc_ghost : (s.clearPending .rxc).ghost = s.ghost := rfl
@[simp] theorem State.clearPending_rxc_obs : (s.clearPending .rxc).obs = s.obs := rfl
@[simp] theorem State.clearPending_rxc_mem : (s.clearPending .rxc).mem = s.mem := rfl
@[simp] theorem State.clearPending_rxc_ports : (s.clearPending .rxc).ports = s.ports := rfl
@[simp] theorem State.clearPending_rxc_env : (s.clearPending .rxc).env = s.env := rfl
@[simp] theorem State.clearPending_rxc_runRefused :
    (s.clearPending .rxc).runRefused = s.runRefused := rfl

@[simp] theorem State.clearPending_txc_cfg : (s.clearPending .txc).cfg = s.cfg := rfl
@[simp] theorem State.clearPending_txc_ring : (s.clearPending .txc).ring = s.ring := rfl
@[simp] theorem State.clearPending_txc_drv : (s.clearPending .txc).drv = s.drv := rfl
@[simp] theorem State.clearPending_txc_arb :
    (s.clearPending .txc).arb =
      { s.arb with pendTxc := false } := rfl
@[simp] theorem State.clearPending_txc_xp : (s.clearPending .txc).xp = s.xp := rfl
@[simp] theorem State.clearPending_txc_fg : (s.clearPending .txc).fg = s.fg := rfl
@[simp] theorem State.clearPending_txc_ghost : (s.clearPending .txc).ghost = s.ghost := rfl
@[simp] theorem State.clearPending_txc_obs : (s.clearPending .txc).obs = s.obs := rfl
@[simp] theorem State.clearPending_txc_mem : (s.clearPending .txc).mem = s.mem := rfl
@[simp] theorem State.clearPending_txc_ports : (s.clearPending .txc).ports = s.ports := rfl
@[simp] theorem State.clearPending_txc_env : (s.clearPending .txc).env = s.env := rfl
@[simp] theorem State.clearPending_txc_runRefused :
    (s.clearPending .txc).runRefused = s.runRefused := rfl

@[simp] theorem State.tookRx_cfg : (s.tookRx).cfg = s.cfg := by
  unfold State.tookRx; split <;> rfl
@[simp] theorem State.tookRx_ring : (s.tookRx).ring = s.ring := by
  unfold State.tookRx; split <;> rfl
@[simp] theorem State.tookRx_drv : (s.tookRx).drv = s.drv := by
  unfold State.tookRx; split <;> rfl
@[simp] theorem State.tookRx_arb : (s.tookRx).arb = s.arb := by
  unfold State.tookRx; split <;> rfl
@[simp] theorem State.tookRx_xp : (s.tookRx).xp = s.xp := by
  unfold State.tookRx; split <;> rfl
@[simp] theorem State.tookRx_fg : (s.tookRx).fg = s.fg := by
  unfold State.tookRx; split <;> rfl
@[simp] theorem State.tookRx_ghost : (s.tookRx).ghost = s.ghost := by
  unfold State.tookRx; split <;> rfl
@[simp] theorem State.tookRx_obs : (s.tookRx).obs = s.obs := by
  unfold State.tookRx; split <;> rfl
@[simp] theorem State.tookRx_mem : (s.tookRx).mem = s.mem := by
  unfold State.tookRx; split <;> rfl
@[simp] theorem State.tookRx_ports : (s.tookRx).ports = s.ports := by
  unfold State.tookRx; split <;> rfl
@[simp] theorem State.tookRx_runRefused : (s.tookRx).runRefused = s.runRefused := by
  unfold State.tookRx; split <;> rfl

@[simp] theorem State.tookTx_cfg : (s.tookTx).cfg = s.cfg := by
  unfold State.tookTx; split <;> rfl
@[simp] theorem State.tookTx_ring : (s.tookTx).ring = s.ring := by
  unfold State.tookTx; split <;> rfl
@[simp] theorem State.tookTx_drv : (s.tookTx).drv = s.drv := by
  unfold State.tookTx; split <;> rfl
@[simp] theorem State.tookTx_arb : (s.tookTx).arb = s.arb := by
  unfold State.tookTx; split <;> rfl
@[simp] theorem State.tookTx_xp : (s.tookTx).xp = s.xp := by
  unfold State.tookTx; split <;> rfl
@[simp] theorem State.tookTx_fg : (s.tookTx).fg = s.fg := by
  unfold State.tookTx; split <;> rfl
@[simp] theorem State.tookTx_ghost : (s.tookTx).ghost = s.ghost := by
  unfold State.tookTx; split <;> rfl
@[simp] theorem State.tookTx_obs : (s.tookTx).obs = s.obs := by
  unfold State.tookTx; split <;> rfl
@[simp] theorem State.tookTx_mem : (s.tookTx).mem = s.mem := by
  unfold State.tookTx; split <;> rfl
@[simp] theorem State.tookTx_ports : (s.tookTx).ports = s.ports := by
  unfold State.tookTx; split <;> rfl
@[simp] theorem State.tookTx_runRefused : (s.tookTx).runRefused = s.runRefused := by
  unfold State.tookTx; split <;> rfl

@[simp] theorem Ring.drop_storage (cap : Nat) (r : Ring) : (r.drop cap).storage = r.storage := rfl
@[simp] theorem Ring.drop_head (cap : Nat) (r : Ring) : (r.drop cap).head = (r.head + 1) % cap := rfl
@[simp] theorem Ring.drop_tail (cap : Nat) (r : Ring) : (r.drop cap).tail = r.tail := rfl
@[simp] theorem Ring.push_storage (cap : Nat) (r : Ring) (b : Byte) :
    (r.push cap b).storage = r.storage.set r.tail b := rfl
@[simp] theorem Ring.push_head (cap : Nat) (r : Ring) (b : Byte) : (r.push cap b).head = r.head := rfl
@[simp] theorem Ring.push_tail (cap : Nat) (r : Ring) (b : Byte) :
    (r.push cap b).tail = (r.tail + 1) % cap := rfl

end Sys2Proof.Machine
end

