-- ==== Sys2Proof/Laws/Memory.lean ====
section
/-! SUPPORT. Caller memory: read after write, spans, and the canonical form that every write keeps. -/

namespace Sys2Proof.Machine

theorem Memory.read_unlisted (m : Memory) (a : Nat) (h : ∀ x ∈ m, x.1 ≠ a) :
    Memory.read m a = Config.blankByte := by
  induction m with
  | nil => rfl
  | cons x m ih =>
    obtain ⟨k, b⟩ := x
    have hk : a ≠ k := fun e => h (k, b) List.mem_cons_self e.symm
    rw [Memory.read, if_neg hk]
    exact ih fun y hy => h y (List.mem_cons_of_mem _ hy)

theorem Memory.read_write_other (m : Memory) (a : Nat) (v : Byte) (x : Nat) (hx : x ≠ a) :
    Memory.read (Memory.write m a v) x = Memory.read m x := by
  induction m with
  | nil => by_cases hv : v = Config.blankByte <;> simp [Memory.write, Memory.read, hv, hx]
  | cons y m ih =>
    obtain ⟨k, b⟩ := y
    rw [Memory.write]
    split_ifs with h1 h2 h3 h4
    · rfl
    · rw [Memory.read, if_neg hx]
    · rw [Memory.read, if_neg (h3 ▸ hx)]
    · rw [Memory.read, Memory.read, if_neg hx, if_neg (h3 ▸ hx)]
    · rw [Memory.read, Memory.read, ih]

theorem Memory.wf_tail {x : Host.Cell} {m : Memory} (h : Memory.wf (x :: m)) : Memory.wf m :=
  ⟨(List.pairwise_cons.1 h.1).2, fun y hy => h.2 y (List.mem_cons_of_mem _ hy)⟩

theorem Memory.read_write_same (m : Memory) (hm : Memory.wf m) (a : Nat) (v : Byte) :
    Memory.read (Memory.write m a v) a = v := by
  induction m with
  | nil => by_cases hv : v = Config.blankByte <;> simp [Memory.write, Memory.read, hv]
  | cons y m ih =>
    obtain ⟨k, b⟩ := y
    have hrest : ∀ z ∈ m, k < z.1 := (List.pairwise_cons.1 hm.1).1
    rw [Memory.write]
    split_ifs with h1 h2 h3 h4
    · rw [h2]
      refine Memory.read_unlisted _ _ fun z hz => ?_
      rcases List.mem_cons.1 hz with rfl | hz
      · exact Nat.ne_of_gt h1
      · exact Nat.ne_of_gt (h1.trans (hrest z hz))
    · rw [Memory.read, if_pos rfl]
    · rw [h4]
      exact Memory.read_unlisted _ _ fun z hz => Nat.ne_of_gt (h3 ▸ hrest z hz)
    · rw [Memory.read, if_pos rfl]
    · rw [Memory.read, if_neg h3]
      exact ih (Memory.wf_tail hm)

theorem Memory.mem_write {m : Memory} {a : Nat} {v : Byte} {x : Host.Cell}
    (h : x ∈ Memory.write m a v) : x ∈ m ∨ x = (a, v) := by
  induction m with
  | nil =>
    rw [Memory.write] at h
    split_ifs at h with hv
    · exact absurd h List.not_mem_nil
    · exact .inr (List.mem_singleton.1 h)
  | cons y m ih =>
    obtain ⟨k, b⟩ := y
    rw [Memory.write] at h
    split_ifs at h
    · exact .inl h
    · exact (List.mem_cons.1 h).symm
    · exact .inl (List.mem_cons_of_mem _ h)
    · exact (List.mem_cons.1 h).symm.imp (List.mem_cons_of_mem _) id
    · rcases List.mem_cons.1 h with rfl | h
      · exact .inl List.mem_cons_self
      · exact (ih h).imp (List.mem_cons_of_mem _) id

/-- A write keeps the canonical form. -/
theorem Memory.wf_write {m : Memory} (hm : Memory.wf m) (a : Nat) (v : Byte) :
    Memory.wf (Memory.write m a v) := by
  induction m with
  | nil =>
    rw [Memory.write]
    split_ifs with hv
    · exact hm
    · exact ⟨List.pairwise_singleton _ _, by simpa using hv⟩
  | cons y m ih =>
    obtain ⟨k, b⟩ := y
    obtain ⟨hrest, hpw⟩ := List.pairwise_cons.1 hm.1
    have hb : b ≠ Config.blankByte := hm.2 (k, b) List.mem_cons_self
    have htail : ∀ z ∈ m, z.2 ≠ Config.blankByte := (Memory.wf_tail hm).2
    rw [Memory.write]
    split_ifs with h1 h2 h3 h4
    · exact hm
    · refine ⟨List.pairwise_cons.2 ⟨fun z hz => ?_, hm.1⟩, ?_⟩
      · rcases List.mem_cons.1 hz with rfl | hz
        · exact h1
        · exact h1.trans (hrest z hz)
      · exact List.forall_mem_cons.2 ⟨h2, hm.2⟩
    · exact Memory.wf_tail hm
    · exact ⟨List.pairwise_cons.2 ⟨fun z hz => h3 ▸ hrest z hz, hpw⟩,
        List.forall_mem_cons.2 ⟨h4, htail⟩⟩
    · have hw := ih (Memory.wf_tail hm)
      refine ⟨List.pairwise_cons.2 ⟨fun z hz => ?_, hw.1⟩, List.forall_mem_cons.2 ⟨hb, hw.2⟩⟩
      rcases Memory.mem_write hz with hz | rfl
      · exact hrest z hz
      · exact lt_of_le_of_ne (Nat.not_lt.1 h1) (Ne.symm h3)

/-- A write to an address of the space keeps memory within the space. -/
theorem Memory.inSpace_write {c : Config} {m : Memory} (hm : Memory.inSpace c m) {a : Nat}
    (ha : a < 2 ^ c.addrW) (v : Byte) : Memory.inSpace c (Memory.write m a v) := by
  intro x hx
  rcases Memory.mem_write hx with hx | rfl
  · exact hm x hx
  · exact ha

theorem Memory.wf_writeSpan (v : List Byte) : ∀ {m : Memory}, Memory.wf m → ∀ a : Nat,
    Memory.wf (Memory.writeSpan m a v) := by
  induction v with
  | nil => intro m hm a; exact hm
  | cons b v ih => intro m hm a; exact ih (Memory.wf_write hm a b) (a + 1)

theorem Memory.inSpace_writeSpan {c : Config} (v : List Byte) : ∀ {m : Memory},
    Memory.inSpace c m → ∀ a : Nat, a + v.length ≤ 2 ^ c.addrW →
    Memory.inSpace c (Memory.writeSpan m a v) := by
  induction v with
  | nil => intro m hm a _; exact hm
  | cons b v ih =>
    intro m hm a ha
    simp only [List.length_cons] at ha
    exact ih (Memory.inSpace_write hm (by omega) b) (a + 1) (by omega)

theorem Memory.read_writeSpan_other (v : List Byte) : ∀ (m : Memory) (a x : Nat),
    ¬ (a ≤ x ∧ x < a + v.length) → Memory.read (Memory.writeSpan m a v) x = Memory.read m x := by
  induction v with
  | nil => intro m a x _; rfl
  | cons b v ih =>
    intro m a x hx
    simp only [List.length_cons] at hx
    rw [Memory.writeSpan, ih _ _ _ (by omega), Memory.read_write_other _ _ _ _ (by omega)]

theorem Memory.read_writeSpan_same (v : List Byte) : ∀ (m : Memory), Memory.wf m →
    ∀ (a : Nat) (i : Nat), i < v.length →
    Memory.read (Memory.writeSpan m a v) (a + i) = v.getD i 0 := by
  induction v with
  | nil => intro m _ a i hi; exact absurd hi (Nat.not_lt_zero i)
  | cons b v ih =>
    intro m hm a i hi
    rw [Memory.writeSpan]
    cases i with
    | zero =>
      rw [Memory.read_writeSpan_other _ _ _ _ (by omega), Nat.add_zero,
        Memory.read_write_same _ hm, List.getD_cons_zero]
    | succ i =>
      have hi' : i < v.length := by simpa using hi
      rw [List.getD_cons_succ, ← ih _ (Memory.wf_write hm a b) (a + 1) i hi']
      congr 1
      omega

@[simp] theorem Memory.length_readSpan (m : Memory) (n : Nat) : ∀ a : Nat,
    (Memory.readSpan m a n).length = n := by
  induction n with
  | zero => intro a; rfl
  | succ n ih => intro a; simp [Memory.readSpan, ih]

theorem Memory.getD_readSpan (m : Memory) (n : Nat) : ∀ (a : Nat) (i : Nat), i < n →
    (Memory.readSpan m a n).getD i 0 = Memory.read m (a + i) := by
  induction n with
  | zero => intro a i hi; exact absurd hi (Nat.not_lt_zero i)
  | succ n ih =>
    intro a i hi
    cases i with
    | zero => rfl
    | succ i =>
      rw [Memory.readSpan, List.getD_cons_succ, ih (a + 1) i (by omega)]
      congr 1
      omega

theorem Memory.readSpan_writeSpan_same (v : List Byte) : ∀ (m : Memory), Memory.wf m → ∀ a : Nat,
    Memory.readSpan (Memory.writeSpan m a v) a v.length = v := by
  induction v with
  | nil => intro m _ a; rfl
  | cons b v ih =>
    intro m hm a
    rw [List.length_cons, Memory.readSpan, Memory.writeSpan,
      Memory.read_writeSpan_other _ _ _ _ (by omega), Memory.read_write_same _ hm,
      ih _ (Memory.wf_write hm a b)]

/-- Storing a span, said by reads. -/
theorem storesAt_writeSpan {s t : State} (hm : Memory.wf s.mem) {a : Nat} {v : List Byte}
    (h : t.mem = Memory.writeSpan s.mem a v) : storesAt s t a v := by
  refine ⟨fun i hi => ?_, fun x hx => ?_⟩
  · rw [h, Memory.read_writeSpan_same v _ hm a i hi]
  · rw [h, Memory.read_writeSpan_other v _ a x hx]

end Sys2Proof.Machine
end

