-- ==== Sys2Proof/Laws/Ring.lean ====
section
/-! SUPPORT. The ring buffer: its arithmetic (40_ring_buffer.md R90, R91), its view as a bounded FIFO
queue (R105), and the agreement of the loops and the block copies (R104). -/

namespace Sys2Proof.Machine

variable {cap : Nat} {r : Ring}

/-! ### Arithmetic -/

/-- `Stored` by cases. -/
theorem Ring.stored_eq (h : r.wf cap) :
    r.stored cap = if r.head ≤ r.tail then r.tail - r.head else cap - (r.head - r.tail) := by
  obtain ⟨-, hh, ht⟩ := h
  unfold Ring.stored
  split
  · rw [Int.emod_eq_of_lt (by omega) (by omega)]; omega
  · rw [← Int.add_emod_right, Int.emod_eq_of_lt (by omega) (by omega)]; omega

/-- `Free` by the corrected cases of 90_conflicts.md C2. -/
theorem Ring.free_eq (h : r.wf cap) :
    r.free cap = if r.head ≤ r.tail then cap - (r.tail - r.head) - 1 else r.head - r.tail - 1 := by
  obtain ⟨-, hh, ht⟩ := h
  unfold Ring.free
  split
  · rw [← Int.add_emod_right, Int.emod_eq_of_lt (by omega) (by omega)]; omega
  · rw [Int.emod_eq_of_lt (by omega) (by omega)]; omega

theorem Ring.stored_lt (h : r.wf cap) : r.stored cap < cap := by
  rw [Ring.stored_eq h]
  obtain ⟨-, hh, ht⟩ := h
  split <;> omega

theorem Ring.free_eq_sub_stored (h : r.wf cap) : r.free cap = cap - 1 - r.stored cap := by
  rw [Ring.free_eq h, Ring.stored_eq h]
  obtain ⟨-, hh, ht⟩ := h
  split <;> omega

theorem Ring.stored_eq_sub_free (h : r.wf cap) : cap - 1 - r.free cap = r.stored cap := by
  rw [Ring.free_eq h, Ring.stored_eq h]
  obtain ⟨-, hh, ht⟩ := h
  split <;> omega

theorem Ring.isEmpty_eq_decide (h : r.wf cap) : r.isEmpty = decide (r.stored cap = 0) := by
  rw [Ring.stored_eq h, Bool.eq_iff_iff]
  obtain ⟨-, hh, ht⟩ := h
  simp only [Ring.isEmpty, beq_iff_eq, decide_eq_true_eq]
  split <;> omega

/-- One step of an index around the array. -/
theorem succ_mod_eq_ite {i cap : Nat} (h : i < cap) :
    (i + 1) % cap = if i + 1 = cap then 0 else i + 1 := by
  split
  · next e => rw [e, Nat.mod_self]
  · rw [Nat.mod_eq_of_lt (by omega)]

/-- Any advance of at most one turn of an index around the array. -/
theorem add_mod_eq_ite {i k cap : Nat} (h : i < cap) (hk : k ≤ cap) :
    (i + k) % cap = if i + k < cap then i + k else i + k - cap := by
  split
  · next e => exact Nat.mod_eq_of_lt e
  · next e => rw [Nat.mod_eq_sub_mod (by omega), Nat.mod_eq_of_lt (by omega)]

/-! ### PushByte and PopByte -/

theorem Ring.wf_push (h : r.wf cap) (b : Byte) : (r.push cap b).wf cap :=
  ⟨by rw [Ring.push_storage, List.length_set]; exact h.1, h.2.1,
    Nat.mod_lt _ (Nat.lt_of_le_of_lt (Nat.zero_le _) h.2.1)⟩

theorem Ring.wf_drop (h : r.wf cap) : (r.drop cap).wf cap :=
  ⟨h.1, Nat.mod_lt _ (Nat.lt_of_le_of_lt (Nat.zero_le _) h.2.1), h.2.2⟩

theorem Ring.stored_push (h : r.wf cap) (b : Byte) (hf : r.stored cap + 1 < cap) :
    (r.push cap b).stored cap = r.stored cap + 1 := by
  rw [Ring.stored_eq (Ring.wf_push h b), Ring.push_head, Ring.push_tail,
    succ_mod_eq_ite h.2.2]
  rw [Ring.stored_eq h] at hf ⊢
  obtain ⟨-, hh, ht⟩ := h
  split_ifs at hf ⊢ <;> omega

theorem Ring.stored_drop (h : r.wf cap) (hs : 0 < r.stored cap) :
    (r.drop cap).stored cap = r.stored cap - 1 := by
  rw [Ring.stored_eq (Ring.wf_drop h), Ring.drop_head, Ring.drop_tail, succ_mod_eq_ite h.2.1]
  rw [Ring.stored_eq h] at hs ⊢
  obtain ⟨-, hh, ht⟩ := h
  split_ifs at hs ⊢ <;> omega

/-! ### The queue -/

@[simp] theorem Ring.length_queue : (r.queue cap).length = r.stored cap := by simp [Ring.queue]

theorem Ring.getElem_queue (i : Nat) (hi : i < (r.queue cap).length) :
    (r.queue cap)[i] = r.slot ((r.head + i) % cap) := by simp [Ring.queue]

/-- The slot of the `i`-th stored byte is not the slot that the next push writes. -/
theorem Ring.slot_ne_tail (h : r.wf cap) {i : Nat} (hi : i < r.stored cap) :
    (r.head + i) % cap ≠ r.tail := by
  have hs := Ring.stored_lt h
  rw [add_mod_eq_ite h.2.1 (by omega)]
  rw [Ring.stored_eq h] at hi
  obtain ⟨-, hh, ht⟩ := h
  split_ifs at hi ⊢ <;> omega

theorem Ring.head_add_stored (h : r.wf cap) : (r.head + r.stored cap) % cap = r.tail := by
  have hs := Ring.stored_lt h
  rw [add_mod_eq_ite h.2.1 (by omega), Ring.stored_eq h]
  obtain ⟨-, hh, ht⟩ := h
  split_ifs <;> omega

theorem Ring.slot_push_tail (h : r.wf cap) (b : Byte) : (r.push cap b).slot r.tail = b := by
  have ht : r.tail < r.storage.length := h.1.symm ▸ h.2.2
  simp [Ring.slot, Ring.push, List.getD_eq_getElem?_getD, ht]

theorem Ring.slot_push_other (b : Byte) {i : Nat} (hi : i ≠ r.tail) :
    (r.push cap b).slot i = r.slot i := by
  simp [Ring.slot, Ring.push, List.getD_eq_getElem?_getD, List.getElem?_set_ne hi.symm]

/-- A push appends to the queue (40_ring_buffer.md R105). -/
theorem Ring.queue_push (h : r.wf cap) (b : Byte) (hf : r.stored cap + 1 < cap) :
    (r.push cap b).queue cap = r.queue cap ++ [b] := by
  refine List.ext_getElem (by simp [Ring.stored_push h b hf]) fun i h1 h2 => ?_
  rw [Ring.getElem_queue, Ring.push_head]
  by_cases hi : i < r.stored cap
  · rw [List.getElem_append_left (by simpa using hi), Ring.getElem_queue,
      Ring.slot_push_other _ (Ring.slot_ne_tail h hi)]
  · have hi' : i = r.stored cap := by
      simp only [Ring.length_queue, Ring.stored_push h b hf] at h1
      omega
    subst hi'
    rw [Ring.head_add_stored h, Ring.slot_push_tail h]
    simp

/-- A pop takes the first byte off the queue (40_ring_buffer.md R105). -/
theorem Ring.queue_eq_cons (h : r.wf cap) (hs : 0 < r.stored cap) :
    r.queue cap = r.front :: (r.drop cap).queue cap := by
  have hd := Ring.stored_drop h hs
  refine List.ext_getElem (by simp [hd]; omega) fun i h1 h2 => ?_
  rw [Ring.getElem_queue]
  cases i with
  | zero => simp [Ring.front, Nat.mod_eq_of_lt h.2.1]
  | succ i =>
    rw [List.getElem_cons_succ, Ring.getElem_queue, Ring.drop_head]
    simp only [Ring.slot, Ring.drop_storage]
    congr 1
    rw [Nat.mod_add_mod]
    congr 1
    omega

/-! ### The loops -/

theorem Ring.wf_pushAll (bs : List Byte) : ∀ {r : Ring}, r.wf cap → (r.pushAll cap bs).wf cap := by
  induction bs with
  | nil => intro r h; exact h
  | cons b bs ih => intro r h; exact ih (Ring.wf_push h b)

@[simp] theorem Ring.head_pushAll (bs : List Byte) : ∀ (r : Ring), (r.pushAll cap bs).head = r.head := by
  induction bs with
  | nil => intro r; rfl
  | cons b bs ih => intro r; exact ih (r.push cap b)

theorem Ring.tail_pushAll (bs : List Byte) : ∀ {r : Ring}, r.wf cap →
    (r.pushAll cap bs).tail = (r.tail + bs.length) % cap := by
  induction bs with
  | nil => intro r h; exact (Nat.mod_eq_of_lt h.2.2).symm
  | cons b bs ih =>
    intro r h
    rw [Ring.pushAll, ih (Ring.wf_push h b), Ring.push_tail, Nat.mod_add_mod, List.length_cons]
    congr 1
    omega

/-- A successful write appends its bytes to the queue (40_ring_buffer.md R105). -/
theorem Ring.queue_pushAll (bs : List Byte) : ∀ {r : Ring}, r.wf cap →
    r.stored cap + bs.length < cap → (r.pushAll cap bs).queue cap = r.queue cap ++ bs := by
  induction bs with
  | nil => intro r _ _; simp [Ring.pushAll]
  | cons b bs ih =>
    intro r h hf
    simp only [List.length_cons] at hf
    have h1 := Ring.stored_push h b (by omega)
    rw [Ring.pushAll, ih (Ring.wf_push h b) (by omega), Ring.queue_push h b (by omega)]
    simp

theorem Ring.stored_pushAll (bs : List Byte) {r : Ring} (h : r.wf cap)
    (hf : r.stored cap + bs.length < cap) :
    (r.pushAll cap bs).stored cap = r.stored cap + bs.length := by
  rw [← Ring.length_queue, Ring.queue_pushAll bs h hf, List.length_append, Ring.length_queue]

theorem Ring.wf_popN (n : Nat) : ∀ {r : Ring}, r.wf cap → (r.popN cap n).wf cap := by
  induction n with
  | zero => intro r h; exact h
  | succ n ih => intro r h; exact ih (Ring.wf_drop h)

@[simp] theorem Ring.storage_popN (n : Nat) : ∀ (r : Ring), (r.popN cap n).storage = r.storage := by
  induction n with
  | zero => intro r; rfl
  | succ n ih => intro r; exact ih (r.drop cap)

@[simp] theorem Ring.tail_popN (n : Nat) : ∀ (r : Ring), (r.popN cap n).tail = r.tail := by
  induction n with
  | zero => intro r; rfl
  | succ n ih => intro r; exact ih (r.drop cap)

theorem Ring.head_popN (n : Nat) : ∀ {r : Ring}, r.wf cap →
    (r.popN cap n).head = (r.head + n) % cap := by
  induction n with
  | zero => intro r h; exact (Nat.mod_eq_of_lt h.2.1).symm
  | succ n ih =>
    intro r h
    rw [Ring.popN, ih (Ring.wf_drop h), Ring.drop_head, Nat.mod_add_mod]
    congr 1
    omega

@[simp] theorem Ring.length_popBytes (n : Nat) : ∀ (r : Ring), (r.popBytes cap n).length = n := by
  induction n with
  | zero => intro r; rfl
  | succ n ih => intro r; simp [Ring.popBytes, ih]

theorem Ring.getD_popBytes (n : Nat) : ∀ {r : Ring}, r.wf cap → ∀ i, i < n →
    (r.popBytes cap n).getD i 0 = r.slot ((r.head + i) % cap) := by
  induction n with
  | zero => intro r _ i hi; exact absurd hi (Nat.not_lt_zero i)
  | succ n ih =>
    intro r h i hi
    cases i with
    | zero => simp [Ring.popBytes, Ring.front, Nat.mod_eq_of_lt h.2.1]
    | succ i =>
      rw [Ring.popBytes, List.getD_cons_succ, ih (Ring.wf_drop h) i (by omega), Ring.drop_head]
      simp only [Ring.slot, Ring.drop_storage]
      congr 1
      rw [Nat.mod_add_mod]
      congr 1
      omega

/-- A successful read delivers the first bytes of the queue (40_ring_buffer.md R105). -/
theorem Ring.popBytes_eq_take (n : Nat) : ∀ {r : Ring}, r.wf cap → n ≤ r.stored cap →
    r.popBytes cap n = (r.queue cap).take n := by
  induction n with
  | zero => intro r _ _; rfl
  | succ n ih =>
    intro r h hn
    have hd := Ring.stored_drop h (by omega)
    rw [Ring.popBytes, ih (Ring.wf_drop h) (by omega), Ring.queue_eq_cons h (by omega),
      List.take_succ_cons]

/-- A successful read removes the bytes it delivers (40_ring_buffer.md R105). -/
theorem Ring.queue_popN (n : Nat) : ∀ {r : Ring}, r.wf cap → n ≤ r.stored cap →
    (r.popN cap n).queue cap = (r.queue cap).drop n := by
  induction n with
  | zero => intro r _ _; rfl
  | succ n ih =>
    intro r h hn
    have hd := Ring.stored_drop h (by omega)
    rw [Ring.popN, ih (Ring.wf_drop h) (by omega), Ring.queue_eq_cons h (by omega),
      List.drop_succ_cons]

theorem Ring.popBytes_stored (h : r.wf cap) : r.popBytes cap (r.stored cap) = r.queue cap := by
  rw [Ring.popBytes_eq_take _ h le_rfl, ← Ring.length_queue, List.take_length]

/-- Popping everything leaves `head = tail` (40_ring_buffer.md R102; 43_completion_events.md R146). -/
theorem Ring.popN_stored (h : r.wf cap) :
    r.popN cap (r.stored cap) = { r with head := r.tail } := by
  have e := Ring.head_popN (r.stored cap) h
  rw [Ring.head_add_stored h] at e
  have h1 := Ring.storage_popN (cap := cap) (r.stored cap) r
  have h2 := Ring.tail_popN (cap := cap) (r.stored cap) r
  cases hr : r.popN cap (r.stored cap)
  simp_all

/-! ### The block copies agree with the loops (40_ring_buffer.md R104) -/

theorem Ring.pushAll_append (bs cs : List Byte) : ∀ (r : Ring),
    r.pushAll cap (bs ++ cs) = (r.pushAll cap bs).pushAll cap cs := by
  induction bs with
  | nil => intro r; rfl
  | cons b bs ih => intro r; exact ih (r.push cap b)

/-- Pushes that do not pass the end of the array are one block copy. -/
theorem Ring.storage_pushAll_eq_copyIn (bs : List Byte) : ∀ {r : Ring}, r.wf cap →
    r.tail + bs.length ≤ cap → (r.pushAll cap bs).storage = copyIn r.storage r.tail bs := by
  induction bs with
  | nil => intro r _ _; rfl
  | cons b bs ih =>
    intro r h hl
    simp only [List.length_cons] at hl
    rw [Ring.pushAll, copyIn]
    cases bs with
    | nil => rfl
    | cons c cs =>
      simp only [List.length_cons] at hl
      have ht : (r.tail + 1) % cap = r.tail + 1 := Nat.mod_eq_of_lt (by omega)
      rw [ih (Ring.wf_push h b) (by rw [Ring.push_tail, ht]; simp only [List.length_cons]; omega),
        Ring.push_tail, ht, Ring.push_storage]

/-- A linear write leaves the registers that the loop of pushes leaves. -/
theorem Ring.writeLinear_eq_pushAll (h : r.wf cap) (bs : List Byte) (hl : bs.length < cap) :
    r.writeLinear cap bs = r.pushAll cap bs := by
  have hn : bs.take (min bs.length (cap - r.tail)) ++ bs.drop (min bs.length (cap - r.tail)) = bs :=
    List.take_append_drop _ _
  have hw := Ring.wf_pushAll (bs.take (min bs.length (cap - r.tail))) h
  have hs : (r.pushAll cap bs).storage =
      copyIn (copyIn r.storage r.tail (bs.take (min bs.length (cap - r.tail)))) 0
        (bs.drop (min bs.length (cap - r.tail))) := by
    conv_lhs => rw [← hn, Ring.pushAll_append]
    have h1 := Ring.storage_pushAll_eq_copyIn (bs.take (min bs.length (cap - r.tail))) h
      (by rw [List.length_take]; have := h.2.2; omega)
    rcases Nat.lt_or_ge (cap - r.tail) bs.length with hlt | hge
    · have e : min bs.length (cap - r.tail) = cap - r.tail := by omega
      have ht : (r.pushAll cap (bs.take (min bs.length (cap - r.tail)))).tail = 0 := by
        rw [Ring.tail_pushAll _ h, List.length_take, e, Nat.min_eq_left hlt.le]
        have := h.2.2
        rw [show r.tail + (cap - r.tail) = cap by omega, Nat.mod_self]
      rw [Ring.storage_pushAll_eq_copyIn _ hw (by rw [ht, List.length_drop]; omega), h1, ht]
    · have e : min bs.length (cap - r.tail) = bs.length := by omega
      rw [e] at h1 ⊢
      rw [List.drop_length, Ring.pushAll, h1, copyIn]
  have ht := Ring.tail_pushAll bs h
  have hh := Ring.head_pushAll (cap := cap) bs r
  unfold Ring.writeLinear
  cases hr : r.pushAll cap bs
  simp_all

theorem Ring.popBytes_add (m n : Nat) : ∀ (r : Ring),
    r.popBytes cap (m + n) = r.popBytes cap m ++ (r.popN cap m).popBytes cap n := by
  induction m with
  | zero => intro r; simp [Ring.popBytes, Ring.popN]
  | succ m ih => intro r; rw [Nat.succ_add, Ring.popBytes, ih, Ring.popBytes, Ring.popN]; rfl

theorem Ring.copyOut_congr {q : Ring} (h : q.storage = r.storage) (n : Nat) : ∀ i,
    q.copyOut i n = r.copyOut i n := by
  induction n with
  | zero => intro i; rfl
  | succ n ih => intro i; rw [Ring.copyOut, Ring.copyOut, ih, Ring.slot, Ring.slot, h]

/-- Pops that do not pass the end of the array are one block copy. -/
theorem Ring.popBytes_eq_copyOut (n : Nat) : ∀ {r : Ring}, r.wf cap → r.head + n ≤ cap →
    r.popBytes cap n = r.copyOut r.head n := by
  induction n with
  | zero => intro r _ _; rfl
  | succ n ih =>
    intro r h hl
    rw [Ring.popBytes, Ring.copyOut, Ring.front]
    cases n with
    | zero => rfl
    | succ n =>
      have hh : (r.head + 1) % cap = r.head + 1 := Nat.mod_eq_of_lt (by omega)
      rw [ih (Ring.wf_drop h) (by rw [Ring.drop_head, hh]; omega), Ring.drop_head, hh,
        Ring.copyOut_congr (Ring.drop_storage cap r)]

/-- A linear read delivers the bytes that the loop of pops delivers. -/
theorem Ring.linearBytes_eq_popBytes (h : r.wf cap) {n : Nat} (hn : n < cap) :
    r.linearBytes cap n = r.popBytes cap n := by
  unfold Ring.linearBytes
  have hsum : min n (cap - r.head) + (n - min n (cap - r.head)) = n := by omega
  conv_rhs => rw [← hsum, Ring.popBytes_add]
  simp only
  rw [Ring.popBytes_eq_copyOut _ h (by have := h.2.1; omega)]
  congr 1
  rcases Nat.lt_or_ge (cap - r.head) n with hlt | hge
  · have e : min n (cap - r.head) = cap - r.head := by omega
    have hh : (r.popN cap (min n (cap - r.head))).head = 0 := by
      rw [Ring.head_popN _ h, e]
      have := h.2.1
      rw [show r.head + (cap - r.head) = cap by omega, Nat.mod_self]
    rw [Ring.popBytes_eq_copyOut _ (Ring.wf_popN _ h) (by rw [hh]; omega), hh,
      Ring.copyOut_congr (Ring.storage_popN _ r)]
  · have e : n - min n (cap - r.head) = 0 := by omega
    rw [e]
    rfl

/-- A linear read leaves the registers that the loop of pops leaves. -/
theorem Ring.dropLinear_eq_popN (h : r.wf cap) (n : Nat) : r.dropLinear cap n = r.popN cap n := by
  have h0 := Ring.head_popN n h
  have h1 := Ring.storage_popN (cap := cap) n r
  have h2 := Ring.tail_popN (cap := cap) n r
  unfold Ring.dropLinear
  cases hr : r.popN cap n
  simp_all

end Sys2Proof.Machine
end

