-- ==== Sys2Proof/Laws/Ops.lean ====
section
/-! SUPPORT. What each shared operation can do, said once: its cases, each as an equation for the state it
leaves. The proofs about meanings cite these and do not unfold the operations. -/

namespace Sys2Proof.Machine

variable {s t : State}

/-! ### Preconditions -/

theorem withSpan_fits {a n : Nat} {k : State → Out} (h : a + n ≤ 2 ^ s.cfg.addrW) :
    withSpan a n k s = k s := by
  simp [withSpan, spanFits, h]

theorem withSpan_wraps {a n : Nat} {k : State → Out} (h : 2 ^ s.cfg.addrW < a + n) :
    withSpan a n k s = .refused .spanWraps := by
  simp [withSpan, spanFits, h]

/-- If a command with a span precondition goes on, its span fits and it goes on with its body. -/
theorem withSpan_next {a n : Nat} {k : State → Out} (h : withSpan a n k s = .next t) :
    a + n ≤ 2 ^ s.cfg.addrW ∧ k s = .next t := by
  unfold withSpan at h
  split at h
  · next hf => exact ⟨by simpa [spanFits] using hf, h⟩
  · cases h

theorem withExcl_holds {k : State → Out} (h : s.excl = true) : withExcl k s = k s := by
  simp [withExcl, h]

theorem withExcl_fails {k : State → Out} (h : s.excl = false) :
    withExcl k s = .refused .exclusivityNotHeld := by
  simp [withExcl, h]

/-- If a command that needs exclusivity goes on, it has it and goes on with its body. -/
theorem withExcl_next {k : State → Out} (h : withExcl k s = .next t) :
    s.excl = true ∧ k s = .next t := by
  unfold withExcl at h
  split at h
  · next hf => exact ⟨hf, h⟩
  · cases h

theorem withoutLoan_free {a n : Nat} {k : State → Out} (h : s.spanOnLoan a n = false) :
    withoutLoan a n k s = k s := by
  simp [withoutLoan, h]

theorem withoutLoan_loaned {a n : Nat} {k : State → Out} (h : s.spanOnLoan a n = true) :
    withoutLoan a n k s = .refused .loanedByteWritten := by
  simp [withoutLoan, h]

/-- If a foreground write goes on, no byte of its span is on loan. -/
theorem withoutLoan_next {a n : Nat} {k : State → Out} (h : withoutLoan a n k s = .next t) :
    s.spanOnLoan a n = false ∧ k s = .next t := by
  unfold withoutLoan at h
  split at h
  · cases h
  · next hf => exact ⟨by simpa using hf, h⟩

/-- A span is on loan exactly where one of its bytes is (20_memory.md R48). -/
theorem spanOnLoan_eq_true {a n : Nat} :
    s.spanOnLoan a n = true ↔ ∃ x, a ≤ x ∧ x < a + n ∧ s.onLoan x = true := by
  induction n generalizing a with
  | zero => simp [State.spanOnLoan]; omega
  | succ n ih =>
    rw [State.spanOnLoan, Bool.or_eq_true, ih]
    constructor
    · rintro (h | ⟨x, h1, h2, h3⟩)
      · exact ⟨a, le_rfl, by omega, h⟩
      · exact ⟨x, by omega, by omega, h3⟩
    · rintro ⟨x, h1, h2, h3⟩
      by_cases e : x = a
      · exact .inl (e ▸ h3)
      · exact .inr ⟨x, by omega, by omega, h3⟩

/-! ### The bracket of a critical section -/

/-- The bracket gives back the interrupt-enable state (44_critical_section.md R158). -/
theorem critical_ie {α : Type} (body : State → α × State) (s : State) :
    (critical body s).2.arb.ie = s.arb.ie := rfl

/-- Around a body that leaves the arbiter alone, the bracket leaves the whole arbiter alone. -/
theorem critical_eq {α : Type} {body : State → α × State} {x : α} {u : State}
    (h : body { s with arb := { s.arb with ie := false } } =
      (x, { u with arb := { s.arb with ie := false } })) :
    critical body s = (x, { u with arb := s.arb }) := by
  simp [critical, h]

/-! ### Enqueue -/

theorem enqueueBytes_full {bytes : List Byte} (h : s.ring.free s.cfg.cap < bytes.length) :
    enqueueBytes bytes s = (.errFull, s) := if_pos h

theorem enqueueBytes_fits {bytes : List Byte} (h : bytes.length ≤ s.ring.free s.cfg.cap) :
    enqueueBytes bytes s = (.ok, { s with ring := s.ring.pushAll s.cfg.cap bytes }) :=
  if_neg (Nat.not_lt.2 h)

theorem critical_enqueueBytes (bytes : List Byte) :
    critical (enqueueBytes bytes) s = enqueueBytes bytes s := by
  unfold critical enqueueBytes
  dsimp only
  split <;> rfl

/-! ### The transport port -/

/-- What a request leaves of an accepted asynchronous transmission (20_memory.md R53). -/
def acceptedTx (bytes : List Byte) (s : State) : State :=
  { s.exchange (.txAsync bytes .accepted) with
    xp := { s.xp with txActive := true }
    obs := { s.obs with wire := s.obs.wire ++ bytes } }

theorem xportTxAsync_busy (bytes : List Byte) (h : s.txBusy = true) :
    xportTxAsync bytes s = (.busy, s.exchange (.txAsync bytes .busy)) := if_pos h

theorem xportTxAsync_idle (bytes : List Byte) (h : s.txBusy = false) :
    xportTxAsync bytes s = (.accepted, acceptedTx bytes s) := by
  unfold xportTxAsync
  rw [if_neg (by simp [h])]
  rfl

theorem critical_xportTxAsync (bytes : List Byte) :
    critical (xportTxAsync bytes) s = xportTxAsync bytes s := by
  unfold critical xportTxAsync State.txBusy
  dsimp only
  split <;> rfl

theorem xportRxArm_free (a : Nat) (h1 : s.xp.rxArmed = none) (h2 : s.arb.pendRxc = false) :
    xportRxArm a s = (.accepted,
      { s.exchange (.rxArm a .accepted) with xp := { s.xp with rxArmed := some a } }) := by
  unfold xportRxArm
  rw [if_neg (by simp [h1, h2])]
  rfl

theorem armThen_free {a : Nat} {k : State → Out} (h1 : s.xp.rxArmed = none)
    (h2 : s.arb.pendRxc = false) :
    armThen a k s =
      k { s.exchange (.rxArm a .accepted) with xp := { s.xp with rxArmed := some a } } := by
  rw [armThen, xportRxArm_free a h1 h2]

/-- If a command that arms a reception goes on, the transport was free and has accepted. -/
theorem armThen_next {a : Nat} {k : State → Out} (h : armThen a k s = .next t) :
    s.xp.rxArmed = none ∧ s.arb.pendRxc = false ∧
      k { s.exchange (.rxArm a .accepted) with xp := { s.xp with rxArmed := some a } } = .next t := by
  by_cases hb : (s.xp.rxArmed.isSome || s.arb.pendRxc) = true
  · rw [armThen, xportRxArm, if_pos hb] at h
    cases h
  · have h1 : s.xp.rxArmed = none := by
      cases e : s.xp.rxArmed <;> simp_all
    have h2 : s.arb.pendRxc = false := by
      cases e : s.arb.pendRxc <;> simp_all
    exact ⟨h1, h2, by rw [armThen_free h1 h2] at h; exact h⟩

/-! ### The transmit procedure (42_transmission.md R130) -/

theorem transmit_accepted (bytes : List Byte) (h : s.txBusy = false) :
    transmit bytes s = (.ok, acceptedTx bytes s) := by
  unfold transmit
  refine (critical_eq (x := .ok) (u := acceptedTx bytes s) ?_).trans rfl
  rw [xportTxAsync_idle bytes (s := { s with arb := { s.arb with ie := false } }) h]
  rfl

theorem transmit_full {bytes : List Byte} (h : s.txBusy = true)
    (hf : s.ring.free s.cfg.cap < bytes.length) :
    transmit bytes s = (.errFull, s.exchange (.txAsync bytes .busy)) := by
  unfold transmit
  refine (critical_eq (x := .errFull) (u := s.exchange (.txAsync bytes .busy)) ?_).trans rfl
  rw [xportTxAsync_busy bytes (s := { s with arb := { s.arb with ie := false } }) h]
  exact enqueueBytes_full (by exact hf)

theorem transmit_queued {bytes : List Byte} (h : s.txBusy = true)
    (hf : bytes.length ≤ s.ring.free s.cfg.cap) :
    transmit bytes s = (.ok, { s.exchange (.txAsync bytes .busy) with
      ring := s.ring.pushAll s.cfg.cap bytes }) := by
  unfold transmit
  refine (critical_eq (x := .ok) (u := { s.exchange (.txAsync bytes .busy) with
    ring := s.ring.pushAll s.cfg.cap bytes }) ?_).trans rfl
  rw [xportTxAsync_busy bytes (s := { s with arb := { s.arb with ie := false } }) h]
  exact enqueueBytes_fits (by exact hf)

/-- All that the transmit procedure can do: accepted whole, queued whole, or nothing. -/
theorem transmit_cases (bytes : List Byte) (s : State) :
    (s.txBusy = false ∧ transmit bytes s = (.ok, acceptedTx bytes s)) ∨
    (s.txBusy = true ∧ s.ring.free s.cfg.cap < bytes.length ∧
      transmit bytes s = (.errFull, s.exchange (.txAsync bytes .busy))) ∨
    (s.txBusy = true ∧ bytes.length ≤ s.ring.free s.cfg.cap ∧
      transmit bytes s = (.ok, { s.exchange (.txAsync bytes .busy) with
        ring := s.ring.pushAll s.cfg.cap bytes })) := by
  cases h : s.txBusy
  · exact .inl ⟨rfl, transmit_accepted bytes h⟩
  · rcases Nat.lt_or_ge (s.ring.free s.cfg.cap) bytes.length with hf | hf
    · exact .inr (.inl ⟨rfl, hf, transmit_full h hf⟩)
    · exact .inr (.inr ⟨rfl, hf, transmit_queued h hf⟩)

/-- A foreground transmission in the default reading is one atomic piece. -/
theorem fgTransmit_whole {bytes : List Byte} {call : TxCall} (h : s.cfg.txFallbackSplit = false) :
    fgTransmit bytes call s = afterTransmit call (transmit bytes s).1 (transmit bytes s).2 := by
  simp [fgTransmit, h]

/-- An accepted foreground transmission is one step in both readings. -/
theorem fgTransmit_accepted {bytes : List Byte} {call : TxCall} (h : s.txBusy = false) :
    fgTransmit bytes call s = afterTransmit call .ok (acceptedTx bytes s) := by
  unfold fgTransmit
  rw [critical_xportTxAsync, xportTxAsync_idle bytes h, transmit_accepted bytes h]
  simp

/-- A refused foreground transmission in the split reading leaves its enqueue for the next step
(42_transmission.md R135). -/
theorem fgTransmit_split {bytes : List Byte} {call : TxCall} (h : s.cfg.txFallbackSplit = true)
    (hb : s.txBusy = true) :
    fgTransmit bytes call s = { s.exchange (.txAsync bytes .busy) with fg := .enqueue bytes call } := by
  unfold fgTransmit
  rw [critical_xportTxAsync, xportTxAsync_busy bytes hb]
  simp [h]

/-- The two cases of the second step of a split transmission (42_transmission.md R135). -/
theorem fgEnqueue_eq (bytes : List Byte) (call : TxCall) :
    fgEnqueue bytes call s =
      if s.ring.free s.cfg.cap < bytes.length then afterTransmit call .errFull s
      else afterTransmit call .ok { s with ring := s.ring.pushAll s.cfg.cap bytes } := by
  unfold fgEnqueue
  rw [critical_enqueueBytes]
  unfold enqueueBytes
  split <;> rfl

/-! ### Blocking transfers -/

theorem xportTxBlocking_idle (bytes : List Byte) (h : s.xp.txActive = false) :
    xportTxBlocking bytes s = (s.nextTx,
      { s.tookTx.exchange (.txBlocking bytes s.cfg.maxWait s.nextTx) with
        obs := { s.obs with wire := s.obs.wire ++ sentBytes s.nextTx bytes } }) := by
  unfold xportTxBlocking
  rw [if_neg (by simp [h])]
  simp

/-- What reaches the wire of a blocking transmission is a prefix of it (20_memory.md R56). -/
theorem sentBytes_prefix (r : BlockingTx) (bytes : List Byte) : sentBytes r bytes <+: bytes := by
  cases r with
  | ok => exact List.prefix_rfl
  | error k => exact List.take_prefix k bytes

/-! ### Taking an event -/

theorem deliver_enabled {e : Event} {handler : State → Out} (h : s.deliverable e = true) :
    deliver e handler s = handler (s.clearPending e) := if_pos h

theorem deliver_waits {e : Event} {handler : State → Out} (h : s.deliverable e = false) :
    deliver e handler s = .next s := by
  simp [deliver, h]

end Sys2Proof.Machine
end

