-- ==== Sys2Proof/Laws/Commands.lean ====
section
/-! SUPPORT. What each instruction can do, said once: the equation of its meaning where its preconditions
hold, and what a next state of it looks like. Proofs about steps cite these and unfold no meaning. -/

namespace Sys2Proof.Machine

variable {s t : State}

/-! ### The ring buffer's commands -/

/-- After the pushes of a write the slots from `tail` on hold the bytes and the others are the same
(40_ring_buffer.md R92, R98). -/
theorem Ring.slot_pushAll {cap : Nat} (bs : List Byte) : ∀ {r : Ring}, r.wf cap →
    bs.length ≤ r.free cap →
    (∀ k, k < bs.length → (r.pushAll cap bs).slot ((r.tail + k) % cap) = bs.getD k 0) ∧
    (∀ j, (∀ k, k < bs.length → j ≠ (r.tail + k) % cap) →
      (r.pushAll cap bs).slot j = r.slot j) := by
  induction bs with
  | nil => intro r _ _; exact ⟨fun k hk => absurd hk (Nat.not_lt_zero k), fun _ _ => rfl⟩
  | cons b bs ih =>
    intro r h hf
    simp only [List.length_cons] at hf
    have hs := Ring.stored_lt h
    rw [Ring.free_eq_sub_stored h] at hf
    have h1 := Ring.stored_push h b (by omega)
    have h2 := Ring.wf_push h b
    obtain ⟨i1, i2⟩ := ih h2 (by rw [Ring.free_eq_sub_stored h2, h1]; omega)
    rw [Ring.push_tail] at i1 i2
    refine ⟨fun k hk => ?_, fun j hj => ?_⟩
    · cases k with
      | zero =>
        rw [Nat.add_zero, Nat.mod_eq_of_lt h.2.2, Ring.pushAll, i2]
        · rw [Ring.slot_push_tail h]
          rfl
        · intro k hk
          rw [Nat.mod_add_mod, Nat.add_assoc, add_mod_eq_ite h.2.2 (by omega)]
          have := h.2.2
          split_ifs <;> omega
      | succ k =>
        have := i1 k (by simpa using hk)
        rw [Nat.mod_add_mod] at this
        rw [Ring.pushAll, List.getD_cons_succ, ← this]
        congr 2
        omega
    · rw [Ring.pushAll, i2]
      · refine Ring.slot_push_other _ ?_
        have := hj 0 (by simp)
        rwa [Nat.add_zero, Nat.mod_eq_of_lt h.2.2] at this
      · intro k hk
        have := hj (k + 1) (by simpa using hk)
        rw [Nat.mod_add_mod]
        convert this using 2
        omega

/-- No byte of the span is on loan, said of the span (20_memory.md R48). -/
theorem spanOnLoan_eq_false {a n : Nat} (h : ∀ x, a ≤ x → x < a + n → s.onLoan x = false) :
    s.spanOnLoan a n = false := by
  by_contra hh
  obtain ⟨x, h1, h2, h3⟩ := spanOnLoan_eq_true.1 (by simpa using hh)
  rw [h x h1 h2] at h3
  cases h3

/-- Outside a reception nothing is on loan (20_memory.md R48). -/
theorem onLoan_idle (h : s.drv.busy = false) (x : Nat) : s.onLoan x = false := by
  unfold State.onLoan
  split <;> simp [h]

theorem execRbInit_next (h : execRbInit s = .next t) :
    s.excl = true ∧ t = { s with ring := { s.ring with head := 0, tail := 0 } }.present .ok 0 := by
  obtain ⟨he, h⟩ := withExcl_next h
  cases h
  exact ⟨he, rfl⟩

/-- `RB_WRITE` within the address space (40_ring_buffer.md R98). -/
theorem execRbWrite_eq {a n : Nat} (h : a + n ≤ 2 ^ s.cfg.addrW) :
    execRbWrite a n s =
      if s.ring.free s.cfg.cap < n then .next (s.present .errFull 0)
      else .next ({ s with
        ring := s.ring.pushAll s.cfg.cap (Memory.readSpan s.mem a n) }.present .ok 0) := by
  rw [execRbWrite, withSpan_fits h]
  dsimp only
  rw [show critical (ringWrite a n) s = enqueueBytes (Memory.readSpan s.mem a n) s from
    critical_enqueueBytes _]
  unfold enqueueBytes
  rw [Memory.length_readSpan]
  split <;> rfl

theorem execRbWrite_next {a n : Nat} (h : execRbWrite a n s = .next t) :
    a + n ≤ 2 ^ s.cfg.addrW ∧
      ((s.ring.free s.cfg.cap < n ∧ t = s.present .errFull 0) ∨
        (n ≤ s.ring.free s.cfg.cap ∧ t = { s with
          ring := s.ring.pushAll s.cfg.cap (Memory.readSpan s.mem a n) }.present .ok 0)) := by
  have hf := (withSpan_next h).1
  rw [execRbWrite_eq hf] at h
  refine ⟨hf, ?_⟩
  split at h <;> cases h
  · exact .inl ⟨‹_›, rfl⟩
  · exact .inr ⟨Nat.not_lt.1 ‹_›, rfl⟩

/-- `RB_READ` within the address space (40_ring_buffer.md R99). -/
theorem execRbRead_eq {a n : Nat} (h : a + n ≤ 2 ^ s.cfg.addrW) :
    execRbRead a n s =
      if s.ring.stored s.cfg.cap < n then .next (s.present .errEmpty 0)
      else if s.spanOnLoan a n then .refused .loanedByteWritten
      else .next ((ringTake a n s).present .ok 0) := by
  rw [execRbRead, withSpan_fits h]
  dsimp only
  split
  · next h =>
    rw [withoutLoan_free rfl]
    unfold critical ringRead
    dsimp only
    rw [if_pos h]
  · next h =>
    unfold withoutLoan
    split
    · rfl
    · unfold critical ringRead
      dsimp only
      rw [if_neg h]
      rfl

theorem execRbRead_next {a n : Nat} (h : execRbRead a n s = .next t) :
    a + n ≤ 2 ^ s.cfg.addrW ∧
      ((s.ring.stored s.cfg.cap < n ∧ t = s.present .errEmpty 0) ∨
        (n ≤ s.ring.stored s.cfg.cap ∧ s.spanOnLoan a n = false ∧
          t = (ringTake a n s).present .ok 0)) := by
  have hf := (withSpan_next h).1
  rw [execRbRead_eq hf] at h
  refine ⟨hf, ?_⟩
  split at h
  · cases h
    exact .inl ⟨‹_›, rfl⟩
  · split at h
    · cases h
    · next hn hl =>
      cases h
      exact .inr ⟨Nat.not_lt.1 hn, by simpa using hl, rfl⟩

theorem execRbWriteLin_next {a n : Nat} (h : execRbWriteLin a n s = .next t) :
    a + n ≤ 2 ^ s.cfg.addrW ∧ s.excl = true ∧
      ((s.ring.free s.cfg.cap < n ∧ t = s.present .errFull 0) ∨
        (n ≤ s.ring.free s.cfg.cap ∧ t = { s with
          ring := s.ring.writeLinear s.cfg.cap (Memory.readSpan s.mem a n) }.present .ok 0)) := by
  obtain ⟨hf, h⟩ := withSpan_next h
  obtain ⟨he, h⟩ := withExcl_next h
  refine ⟨hf, he, ?_⟩
  split at h <;> cases h
  · exact .inl ⟨‹_›, rfl⟩
  · exact .inr ⟨Nat.not_lt.1 ‹_›, rfl⟩

/-- The two block copies of a linear read do what the loop of pops does (40_ring_buffer.md R101). -/
theorem ringTakeLin_eq_ringTake (h : s.ring.wf s.cfg.cap) (a : Nat) {n : Nat} (hn : n < s.cfg.cap) :
    ringTakeLin a n s = ringTake a n s := by
  unfold ringTakeLin ringTake
  rw [Ring.linearBytes_eq_popBytes h hn, Ring.dropLinear_eq_popN h]

theorem execRbReadLin_next {a n : Nat} (h : execRbReadLin a n s = .next t) :
    a + n ≤ 2 ^ s.cfg.addrW ∧ s.excl = true ∧
      ((s.ring.stored s.cfg.cap < n ∧ t = s.present .errEmpty 0) ∨
        (n ≤ s.ring.stored s.cfg.cap ∧ s.spanOnLoan a n = false ∧
          t = (ringTakeLin a n s).present .ok 0)) := by
  obtain ⟨hf, h⟩ := withSpan_next h
  obtain ⟨he, h⟩ := withExcl_next h
  refine ⟨hf, he, ?_⟩
  split at h
  · cases h
    exact .inl ⟨‹_›, rfl⟩
  · obtain ⟨hl, h⟩ := withoutLoan_next h
    cases h
    exact .inr ⟨Nat.not_lt.1 ‹_›, hl, rfl⟩

theorem flushCount_eq_stored (h : s.ring.wf s.cfg.cap) : flushCount s = s.ring.stored s.cfg.cap :=
  Ring.stored_eq_sub_free h

/-- `RB_FLUSH` within the address space (40_ring_buffer.md R102). -/
theorem execRbFlush_eq {a : Nat} (h : a + (s.cfg.cap - 1) ≤ 2 ^ s.cfg.addrW) :
    execRbFlush a s =
      if s.spanOnLoan a (flushCount s) then .refused .loanedByteWritten
      else .next ((ringTake a (flushCount s) s).present .ok (flushCount s)) := by
  rw [execRbFlush, withSpan_fits (by exact h)]
  rfl

theorem execRbFlush_next {a : Nat} (h : execRbFlush a s = .next t) :
    a + (s.cfg.cap - 1) ≤ 2 ^ s.cfg.addrW ∧ s.spanOnLoan a (flushCount s) = false ∧
      t = (ringTake a (flushCount s) s).present .ok (flushCount s) := by
  obtain ⟨hf, h⟩ := withSpan_next h
  obtain ⟨hl, h⟩ := withoutLoan_next h
  cases h
  exact ⟨hf, hl, rfl⟩

theorem execRbFlushLin_next {a : Nat} (h : execRbFlushLin a s = .next t) :
    a + (s.cfg.cap - 1) ≤ 2 ^ s.cfg.addrW ∧ s.excl = true ∧
      s.spanOnLoan a (flushCount s) = false ∧
      t = (ringTakeLin a (flushCount s) s).present .ok (flushCount s) := by
  obtain ⟨hf, h⟩ := withSpan_next h
  obtain ⟨he, h⟩ := withExcl_next h
  obtain ⟨hl, h⟩ := withoutLoan_next h
  cases h
  exact ⟨hf, he, hl, rfl⟩

/-! ### Reception and transmission -/

theorem execRxInit_next {n : Nat} (h : execRxInit n s = .next t) :
    (n < 2 ∧ t = s.present .errBadLength 0) ∨
    (2 ≤ n ∧ s.drv.busy = true ∧ t = s.present .errBusy 0) ∨
    (2 ≤ n ∧ s.drv.busy = false ∧ t = { s with
      drv := { s.drv with requestedLength := n, receivedCount := 0, cursor := none }
      ghost := { s.ghost with armed := true } }.present .ok 0) := by
  unfold execRxInit at h
  split at h
  · cases h
    exact .inl ⟨‹_›, rfl⟩
  · split at h
    · cases h
      exact .inr (.inl ⟨by omega, ‹_›, rfl⟩)
    · next hb =>
      cases h
      exact .inr (.inr ⟨by omega, by simpa using hb, rfl⟩)

theorem execRxStart_next {a : Nat} (h : execRxStart a s = .next t) :
    a + s.drv.requestedLength ≤ 2 ^ s.cfg.addrW ∧
      ((s.drv.busy = true ∧ t = s.present .errBusy 0) ∨
        (s.drv.busy = false ∧ s.ghost.armed = true ∧ s.xp.rxArmed = none ∧
          s.arb.pendRxc = false ∧ t = { s.exchange (.rxArm a .accepted) with
            xp := { s.xp with rxArmed := some a }
            drv := { s.drv with busy := true, cursor := some a }
            ghost := { armed := false, xportUsed := true } }.present .ok 0)) := by
  obtain ⟨hf, h⟩ := withSpan_next h
  refine ⟨hf, ?_⟩
  split at h
  · cases h
    exact .inl ⟨‹_›, rfl⟩
  · next hb =>
    split at h
    · cases h
    · next ha =>
      obtain ⟨h1, h2, h⟩ := armThen_next h
      cases h
      exact .inr ⟨by simpa using hb, by simpa using ha, h1, h2, rfl⟩

theorem execRxReadLine_next {a n : Nat} (h : execRxReadLine a n s = .next t) :
    0 < n ∧ a + n ≤ 2 ^ s.cfg.addrW ∧
      ((s.drv.busy = true ∧ t = s.present .errBusy (minusOne s.cfg)) ∨
        (s.drv.busy = false ∧ t = { s with
          drv := { s.drv with busy := true, requestedLength := n, receivedCount := 0 }
          ghost := { s.ghost with armed := false }
          fg := .readLine a n .recv })) := by
  unfold execRxReadLine at h
  split at h
  · cases h
  · obtain ⟨hf, h⟩ := withSpan_next h
    refine ⟨by omega, hf, ?_⟩
    split at h
    · cases h
      exact .inl ⟨‹_›, rfl⟩
    · next hb =>
      cases h
      exact .inr ⟨by simpa using hb, rfl⟩

theorem sendSpan_next {a n : Nat} {call : TxCall} (h : sendSpan a n call s = .next t) :
    0 < n ∧ a + n ≤ 2 ^ s.cfg.addrW ∧ t = fgTransmit (Memory.readSpan s.mem a n) call s := by
  unfold sendSpan at h
  split at h
  · cases h
  · obtain ⟨hf, h⟩ := withSpan_next h
    cases h
    exact ⟨by omega, hf, rfl⟩

/-- All that a foreground call of `Transmit` can do in one step (42_transmission.md R130, R135). -/
theorem fgTransmit_cases (bytes : List Byte) (call : TxCall) (s : State) :
    (s.txBusy = false ∧ fgTransmit bytes call s = afterTransmit call .ok (acceptedTx bytes s)) ∨
    (s.txBusy = true ∧ s.cfg.txFallbackSplit = false ∧ s.ring.free s.cfg.cap < bytes.length ∧
      fgTransmit bytes call s = afterTransmit call .errFull (s.exchange (.txAsync bytes .busy))) ∨
    (s.txBusy = true ∧ s.cfg.txFallbackSplit = false ∧ bytes.length ≤ s.ring.free s.cfg.cap ∧
      fgTransmit bytes call s = afterTransmit call .ok { s.exchange (.txAsync bytes .busy) with
        ring := s.ring.pushAll s.cfg.cap bytes }) ∨
    (s.txBusy = true ∧ s.cfg.txFallbackSplit = true ∧ fgTransmit bytes call s =
      { s.exchange (.txAsync bytes .busy) with fg := .enqueue bytes call }) := by
  cases h : s.txBusy
  · exact .inl ⟨rfl, fgTransmit_accepted h⟩
  · cases hs : s.cfg.txFallbackSplit
    · rw [fgTransmit_whole hs]
      rcases transmit_cases bytes s with ⟨hb, -⟩ | ⟨-, hf, e⟩ | ⟨-, hf, e⟩
      · rw [h] at hb
        cases hb
      · exact .inr (.inl ⟨rfl, rfl, hf, by rw [e]⟩)
      · exact .inr (.inr (.inl ⟨rfl, rfl, hf, by rw [e]⟩))
    · exact .inr (.inr (.inr ⟨rfl, rfl, fgTransmit_split hs h⟩))

/-- Both cases of the second step of a split transmission (42_transmission.md R135). -/
theorem fgEnqueue_cases (bytes : List Byte) (call : TxCall) (s : State) :
    (s.ring.free s.cfg.cap < bytes.length ∧
      fgEnqueue bytes call s = afterTransmit call .errFull s) ∨
    (bytes.length ≤ s.ring.free s.cfg.cap ∧ fgEnqueue bytes call s =
      afterTransmit call .ok { s with ring := s.ring.pushAll s.cfg.cap bytes }) := by
  rw [fgEnqueue_eq]
  split
  · exact .inl ⟨‹_›, rfl⟩
  · exact .inr ⟨Nat.not_lt.1 ‹_›, rfl⟩

/-! ### Completion events -/

/-- A delivery of `EV_RXC` that goes on: the event waits, or a reception was behind it
(43_completion_events.md R144, R145). -/
theorem execEvRxc_next (h : execEvRxc s = .next t) :
    (s.rxcDeliverable = false ∧ t = s) ∨
    (s.arb.pendRxc = true ∧ s.arb.ie = true ∧ s.drv.busy = true ∧ ∃ c, s.drv.cursor = some c ∧
      receiveByte c (s.clearPending .rxc) = .next t) := by
  cases hd : s.deliverable .rxc
  · rw [execEvRxc, deliver_waits hd] at h
    cases h
    exact .inl ⟨hd, rfl⟩
  · rw [execEvRxc, deliver_enabled hd] at h
    have hp : s.arb.pendRxc = true ∧ s.arb.ie = true := by
      simpa [State.deliverable, State.rxcDeliverable] using hd
    unfold handleRxc at h
    rw [State.clearPending_rxc_drv] at h
    split at h
    · cases h
    · next c hc =>
      split at h
      · exact .inr ⟨hp.1, hp.2, ‹_›, c, hc, h⟩
      · cases h

/-- The handler's work on one byte: an echo or a line feed, then the end of the reception or the next arm
(43_completion_events.md R144). -/
theorem receiveByte_next {c : Nat} (h : receiveByte c s = .next t) :
    (Memory.read s.mem c = s.cfg.cr ∧
      t = ((transmit [s.cfg.lf] s).2.setCount
        (countAfterCr s.cfg s.drv.receivedCount)).endReception) ∨
    (Memory.read s.mem c ≠ s.cfg.cr ∧ s.drv.receivedCount + 1 < s.drv.requestedLength ∧
      s.xp.rxArmed = none ∧ s.arb.pendRxc = false ∧ ∃ u,
      u = (transmit [Memory.read s.mem c] s).2 ∧
      t = { u.exchange (.rxArm (c + 1) .accepted) with
        drv := { s.drv with receivedCount := s.drv.receivedCount + 1, cursor := some (c + 1) }
        xp := { u.xp with rxArmed := some (c + 1) } }) ∨
    (Memory.read s.mem c ≠ s.cfg.cr ∧ s.drv.requestedLength ≤ s.drv.receivedCount + 1 ∧
      t = ((transmit [Memory.read s.mem c] s).2.setCount
        (s.drv.receivedCount + 1)).endReception) := by
  have key : ∀ bs, (transmit bs s).2.cfg = s.cfg ∧ (transmit bs s).2.drv = s.drv ∧
      (transmit bs s).2.xp.rxArmed = s.xp.rxArmed ∧
      (transmit bs s).2.arb.pendRxc = s.arb.pendRxc := by
    intro bs
    rcases transmit_cases bs s with ⟨-, e⟩ | ⟨-, -, e⟩ | ⟨-, -, e⟩ <;> rw [e] <;>
      exact ⟨rfl, rfl, rfl, rfl⟩
  unfold receiveByte at h
  dsimp only at h
  split at h
  · next hb =>
    cases h
    refine .inl ⟨hb, ?_⟩
    rw [(key _).1, (key _).2.1]
  · next hb =>
    obtain ⟨k1, k2, k3, k4⟩ := key [Memory.read s.mem c]
    unfold countAndRearm at h
    dsimp only at h
    rw [State.setCount_drv, k2] at h
    split at h
    · next hl =>
      obtain ⟨h1, h2, h⟩ := armThen_next h
      cases h
      refine .inr (.inl ⟨hb, hl, k3.symm.trans h1, k4.symm.trans h2, _, rfl, ?_⟩)
      simp [State.exchange, State.setCount]
    · next hl =>
      cases h
      exact .inr (.inr ⟨hb, Nat.not_lt.1 hl, rfl⟩)

/-- A delivery of `EV_TXC`: the event waits, or the queue is drained (43_completion_events.md R146). -/
theorem execEvTxc_next (h : execEvTxc s = .next t) :
    (s.txcDeliverable = false ∧ t = s) ∨
    (s.arb.pendTxc = true ∧ s.arb.ie = true ∧ s.ring.isEmpty = true ∧
      t = { s with arb := { s.arb with pendTxc := false }, xp := { s.xp with txActive := false } }) ∨
    (s.arb.pendTxc = true ∧ s.arb.ie = true ∧ s.ring.isEmpty = false ∧
      t = drain { s with
        arb := { s.arb with pendTxc := false }
        xp := { s.xp with txActive := false } }) := by
  cases hd : s.deliverable .txc
  · rw [execEvTxc, deliver_waits hd] at h
    cases h
    exact .inl ⟨hd, rfl⟩
  · rw [execEvTxc, deliver_enabled hd] at h
    have hp : s.arb.pendTxc = true ∧ s.arb.ie = true := by
      simpa [State.deliverable, State.txcDeliverable] using hd
    unfold handleTxc at h
    cases h
    cases he : s.ring.isEmpty
    · refine .inr (.inr ⟨hp.1, hp.2, rfl, ?_⟩)
      dsimp only
      rw [State.clearPending_txc_ring, he]
      rfl
    · refine .inr (.inl ⟨hp.1, hp.2, rfl, ?_⟩)
      dsimp only
      rw [State.clearPending_txc_ring, he]
      rfl

/-- The drain takes the whole queue by one blocking transfer (43_completion_events.md R146). -/
theorem drain_eq (h : s.ring.wf s.cfg.cap) (hx : s.xp.txActive = false) :
    drain s = { s.tookTx.exchange (.txBlocking (s.ring.queue s.cfg.cap) s.cfg.maxWait s.nextTx) with
      ring := { s.ring with head := s.ring.tail }
      obs := { s.obs with
        wire := s.obs.wire ++ sentBytes s.nextTx (s.ring.queue s.cfg.cap) } } := by
  unfold drain
  dsimp only
  rw [Ring.popBytes_stored h, Ring.popN_stored h]
  generalize s.ring.queue s.cfg.cap = q
  unfold xportTxBlocking
  rw [if_neg (show ¬ s.xp.txActive = true by simp [hx])]
  unfold State.tookTx State.nextTx
  dsimp only
  cases s.env.txAns <;> rfl

end Sys2Proof.Machine
end

