-- ==== Sys2Proof/Laws/Encoding.lean ====
section
/-! SUPPORT. The fields of a command word read back what was put in them, and the opcode map read
backwards. -/

namespace Sys2Proof

theorem fieldOp_cmd (c : Config) {op : Nat} (a n : Nat) (h : op < 2 ^ 8) :
    fieldOp (op + a * 2 ^ 8 + n * 2 ^ (8 + c.addrW)) = op := by
  unfold fieldOp
  rw [Nat.pow_add, show n * (2 ^ 8 * 2 ^ c.addrW) = n * 2 ^ c.addrW * 2 ^ 8 by ring]
  omega

theorem fieldA_cmd (c : Config) {op a : Nat} (n : Nat) (h : op < 2 ^ 8) (ha : a < 2 ^ c.addrW) :
    fieldA c (op + a * 2 ^ 8 + n * 2 ^ (8 + c.addrW)) = a := by
  unfold fieldA
  rw [Nat.pow_add,
    show op + a * 2 ^ 8 + n * (2 ^ 8 * 2 ^ c.addrW) = op + (a + n * 2 ^ c.addrW) * 2 ^ 8 by ring,
    Nat.add_mul_div_right _ _ (by norm_num), Nat.div_eq_of_lt h, Nat.zero_add,
    Nat.add_mul_mod_self_right, Nat.mod_eq_of_lt ha]

theorem fieldN_cmd (c : Config) {op a n : Nat} (h : op < 2 ^ 8) (ha : a < 2 ^ c.addrW)
    (hn : n < 2 ^ c.lenW) : fieldN c (op + a * 2 ^ 8 + n * 2 ^ (8 + c.addrW)) = n := by
  have h1 : op + a * 2 ^ 8 < 2 ^ (8 + c.addrW) := by
    rw [Nat.pow_add]
    have : (a + 1) * 2 ^ 8 ≤ 2 ^ c.addrW * 2 ^ 8 := Nat.mul_le_mul_right _ ha
    omega
  unfold fieldN
  rw [Nat.add_mul_div_right _ _ (by positivity), Nat.div_eq_of_lt h1, Nat.zero_add,
    Nat.mod_eq_of_lt hn]

/-- Decoding a command word reads the opcode map at its three fields (30_encoding.md R71, R72). -/
theorem decode_cmdWord (c : Config) {op a n : Nat} (h : op < 2 ^ 8) (ha : a < 2 ^ c.addrW)
    (hn : n < 2 ^ c.lenW) :
    decode c (cmdWord c op a n) =
      match commandOf op a n with
      | some i => .instr i
      | none => .illegal op := by
  have key : ∀ w, fieldOp w = op → fieldA c w = a → fieldN c w = n → decodeCmd c w =
      match commandOf op a n with
      | some i => .instr i
      | none => .illegal op := by
    rintro w rfl rfl rfl
    rfl
  exact key _ (fieldOp_cmd c a n h) (fieldA_cmd c n h ha) (fieldN_cmd c h ha hn)

/-- The opcode map read backwards (30_encoding.md R72). -/
theorem commandOf_some {op a n : Nat} {i : Instr} (h : commandOf op a n = some i) :
    (op = 0x00 ∧ i = .rbInit) ∨ (op = 0x01 ∧ i = .rbIsEmpty) ∨ (op = 0x02 ∧ i = .rbIsFull) ∨
    (op = 0x03 ∧ i = .rbFreeSpace) ∨ (op = 0x04 ∧ i = .rbWrite a n) ∨ (op = 0x05 ∧ i = .rbRead a n) ∨
    (op = 0x06 ∧ i = .rbWriteLin a n) ∨ (op = 0x07 ∧ i = .rbReadLin a n) ∨
    (op = 0x08 ∧ i = .rbFlush a) ∨ (op = 0x09 ∧ i = .rbFlushLin a) ∨ (op = 0x10 ∧ i = .rxInit n) ∨
    (op = 0x11 ∧ i = .rxStart a) ∨ (op = 0x12 ∧ i = .rxReadLine a n) ∨ (op = 0x13 ∧ i = .drvStatus) ∨
    (op = 0x20 ∧ i = .txTransmit a n) ∨ (op = 0x21 ∧ i = .txWriteSync a n) ∨
    (op = 0x30 ∧ i = .csEnter) ∨ (op = 0x31 ∧ i = .csExit (bitZero n)) := by
  unfold commandOf at h
  split at h <;> cases h <;> simp

/-- A decoded command is well formed (30_encoding.md R71): its operands are the fields of its word. -/
theorem decodeCmd_wf {c : Config} {w : Nat} {i : Instr} (h : decodeCmd c w = .instr i) :
    i.wf c = true ∧ i.isCommand = true := by
  have hA : fieldA c w < 2 ^ c.addrW := Nat.mod_lt _ (by positivity)
  have hN : fieldN c w < 2 ^ c.lenW := Nat.mod_lt _ (by positivity)
  unfold decodeCmd at h
  split at h
  · next j hj =>
    cases h
    rcases commandOf_some hj with h | h | h | h | h | h | h | h | h | h | h | h | h | h | h | h | h | h <;>
      obtain ⟨-, rfl⟩ := h <;> simp [Instr.wf, Instr.isCommand, hA, hN]
  · cases h

end Sys2Proof
end

