-- ==== Sys2Proof/Laws/Frames.lean ====
section
/-! SUPPORT. What the shared operations leave as it was, whatever they did: the transmit procedure, its
foreground calls, and the deliveries of the two events. -/

namespace Sys2Proof.Machine

variable {s t : State}

/-- `Transmit` touches the ring buffer, `txActive`, the wire, the ghost bit and the transport port, and
nothing else (42_transmission.md R130). -/
theorem transmit_frame (bytes : List Byte) (s : State) :
    (transmit bytes s).2.runRefused = s.runRefused ∧
    (transmit bytes s).2.cfg = s.cfg ∧ (transmit bytes s).2.drv = s.drv ∧
    (transmit bytes s).2.arb = s.arb ∧ (transmit bytes s).2.xp.rxArmed = s.xp.rxArmed ∧
    (transmit bytes s).2.fg = s.fg ∧ (transmit bytes s).2.mem = s.mem ∧
    (transmit bytes s).2.env = s.env ∧ (transmit bytes s).2.obs.cbCount = s.obs.cbCount ∧
    (transmit bytes s).2.ghost = { s.ghost with xportUsed := true } ∧
    (transmit bytes s).2.ports.res = s.ports.res ∧
    (transmit bytes s).2.ports.rxDone = s.ports.rxDone := by
  rcases transmit_cases bytes s with ⟨-, e⟩ | ⟨-, -, e⟩ | ⟨-, -, e⟩ <;> rw [e] <;>
    exact ⟨rfl, rfl, rfl, rfl, rfl, rfl, rfl, rfl, rfl, rfl, rfl, rfl⟩

/-- `Transmit` only extends the wire and keeps the ring buffer well formed (42_transmission.md R130). -/
theorem transmit_extends (bytes : List Byte) (s : State) :
    s.obs.wire <+: (transmit bytes s).2.obs.wire ∧
    (s.ring.wf s.cfg.cap → (transmit bytes s).2.ring.wf s.cfg.cap) ∧
    (s.txBusy = true → (transmit bytes s).2.txBusy = true) := by
  rcases transmit_cases bytes s with ⟨-, e⟩ | ⟨hb, -, e⟩ | ⟨hb, -, e⟩ <;> rw [e]
  · exact ⟨List.prefix_append _ _, id, fun _ => rfl⟩
  · exact ⟨List.prefix_refl _, id, id⟩
  · exact ⟨List.prefix_refl _, Ring.wf_pushAll _, id⟩

/-- What follows a foreground transmission changes the sequencer, the driver and the result port only
(42_transmission.md R131, R132; 41_reception.md R115, R116). -/
theorem afterTransmit_frame (call : TxCall) (status : Status) (s : State) :
    (afterTransmit call status s).runRefused = s.runRefused ∧
    (afterTransmit call status s).cfg = s.cfg ∧ (afterTransmit call status s).ring = s.ring ∧
    (afterTransmit call status s).arb = s.arb ∧ (afterTransmit call status s).xp = s.xp ∧
    (afterTransmit call status s).obs = s.obs ∧ (afterTransmit call status s).mem = s.mem ∧
    (afterTransmit call status s).ghost = s.ghost ∧ (afterTransmit call status s).env = s.env ∧
    (afterTransmit call status s).ports.rxDone = s.ports.rxDone ∧
    (afterTransmit call status s).drv.requestedLength = s.drv.requestedLength ∧
    (afterTransmit call status s).drv.cursor = s.drv.cursor ∧
    (s.drv.busy = false → (afterTransmit call status s).drv.busy = false) := by
  cases call <;> unfold afterTransmit <;> dsimp only
  · exact ⟨rfl, rfl, rfl, rfl, rfl, rfl, rfl, rfl, rfl, rfl, rfl, rfl, id⟩
  · split <;> exact ⟨rfl, rfl, rfl, rfl, rfl, rfl, rfl, rfl, rfl, rfl, rfl, rfl, id⟩
  · exact ⟨rfl, rfl, rfl, rfl, rfl, rfl, rfl, rfl, rfl, rfl, rfl, rfl, id⟩
  · exact ⟨rfl, rfl, rfl, rfl, rfl, rfl, rfl, rfl, rfl, rfl, rfl, rfl, fun _ => rfl⟩

/-- A foreground call of `Transmit`, in both readings (42_transmission.md R130, R135). -/
theorem fgTransmit_frame (bytes : List Byte) (call : TxCall) (s : State) :
    (fgTransmit bytes call s).runRefused = s.runRefused ∧
    (fgTransmit bytes call s).cfg = s.cfg ∧ (fgTransmit bytes call s).arb = s.arb ∧
    (fgTransmit bytes call s).xp.rxArmed = s.xp.rxArmed ∧
    s.obs.wire <+: (fgTransmit bytes call s).obs.wire ∧
    (fgTransmit bytes call s).obs.cbCount = s.obs.cbCount ∧
    (fgTransmit bytes call s).mem = s.mem ∧
    (fgTransmit bytes call s).ghost.armed = s.ghost.armed ∧
    (fgTransmit bytes call s).env = s.env ∧
    (fgTransmit bytes call s).ports.rxDone = s.ports.rxDone ∧
    (fgTransmit bytes call s).drv.requestedLength = s.drv.requestedLength ∧
    (fgTransmit bytes call s).drv.cursor = s.drv.cursor ∧
    (s.drv.busy = false → (fgTransmit bytes call s).drv.busy = false) := by
  have key : (∃ u status, fgTransmit bytes call s = afterTransmit call status u ∧
      u.runRefused = s.runRefused ∧ u.cfg = s.cfg ∧
      u.arb = s.arb ∧ u.xp.rxArmed = s.xp.rxArmed ∧ s.obs.wire <+: u.obs.wire ∧
      u.obs.cbCount = s.obs.cbCount ∧ u.mem = s.mem ∧ u.ghost.armed = s.ghost.armed ∧
      u.env = s.env ∧ u.ports.rxDone = s.ports.rxDone ∧ u.drv = s.drv) ∨
      fgTransmit bytes call s =
        { s.exchange (.txAsync bytes .busy) with fg := .enqueue bytes call } := by
    rcases fgTransmit_cases bytes call s with ⟨-, e⟩ | ⟨-, -, -, e⟩ | ⟨-, -, -, e⟩ | ⟨-, -, e⟩
    · exact .inl ⟨_, _, e, rfl, rfl, rfl, rfl, List.prefix_append _ _, rfl, rfl, rfl, rfl, rfl, rfl⟩
    · exact .inl ⟨_, _, e, rfl, rfl, rfl, rfl, List.prefix_refl _, rfl, rfl, rfl, rfl, rfl, rfl⟩
    · exact .inl ⟨_, _, e, rfl, rfl, rfl, rfl, List.prefix_refl _, rfl, rfl, rfl, rfl, rfl, rfl⟩
    · exact .inr e
  rcases key with ⟨u, status, e, h0, h1, h2, h3, h4, h5, h6, h7, h8, h9, h10⟩ | e
  · obtain ⟨k0, k1, -, k2, k3, k4, k5, k6, k7, k8, k9, k10, k11⟩ :=
      afterTransmit_frame call status u
    rw [h10] at k9 k10 k11
    rw [e, k0, k1, k2, k3, k4, k5, k6, k7, k8, k9, k10]
    exact ⟨h0, h1, h2, h3, h4, h5, h6, h7, h8, h9, rfl, rfl, k11⟩
  · rw [e]
    exact ⟨rfl, rfl, rfl, rfl, List.prefix_refl _, rfl, rfl, rfl, rfl, rfl, rfl, rfl, id⟩

/-- The second step of a split foreground transmission (42_transmission.md R135). -/
theorem fgEnqueue_frame (bytes : List Byte) (call : TxCall) (s : State) :
    (fgEnqueue bytes call s).runRefused = s.runRefused ∧
    (fgEnqueue bytes call s).cfg = s.cfg ∧ (fgEnqueue bytes call s).arb = s.arb ∧
    (fgEnqueue bytes call s).xp = s.xp ∧ (fgEnqueue bytes call s).obs = s.obs ∧
    (fgEnqueue bytes call s).mem = s.mem ∧ (fgEnqueue bytes call s).ghost = s.ghost ∧
    (fgEnqueue bytes call s).env = s.env ∧
    (fgEnqueue bytes call s).ports.rxDone = s.ports.rxDone ∧
    (fgEnqueue bytes call s).drv.requestedLength = s.drv.requestedLength ∧
    (fgEnqueue bytes call s).drv.cursor = s.drv.cursor ∧
    (s.drv.busy = false → (fgEnqueue bytes call s).drv.busy = false) := by
  rcases fgEnqueue_cases bytes call s with ⟨-, e⟩ | ⟨-, e⟩ <;> rw [e]
  · obtain ⟨k0, k1, -, k2, k3, k4, k5, k6, k7, k8, k9, k10, k11⟩ :=
      afterTransmit_frame call .errFull s
    exact ⟨k0, k1, k2, k3, k4, k5, k6, k7, k8, k9, k10, k11⟩
  · obtain ⟨k0, k1, -, k2, k3, k4, k5, k6, k7, k8, k9, k10, k11⟩ :=
      afterTransmit_frame call .ok { s with ring := s.ring.pushAll s.cfg.cap bytes }
    exact ⟨k0, k1, k2, k3, k4, k5, k6, k7, k8, k9, k10, k11⟩

/-- A delivery of `EV_RXC`, whatever it did: `ie`, the pending transmit event, the sequencer, caller
memory, the outside world, ARMED, `requestedLength` and the result port are the same
(43_completion_events.md R144, R149; 60_exceptions.md R177). -/
theorem execEvRxc_frame (h : execEvRxc s = .next t) :
    t.runRefused = s.runRefused ∧
    t.cfg = s.cfg ∧ t.arb.ie = s.arb.ie ∧ t.arb.pendTxc = s.arb.pendTxc ∧ t.fg = s.fg ∧
    t.mem = s.mem ∧ t.env = s.env ∧ t.ghost.armed = s.ghost.armed ∧
    t.drv.requestedLength = s.drv.requestedLength ∧ t.ports.res = s.ports.res ∧
    s.obs.wire <+: t.obs.wire ∧ (s.drv.busy = false → t.drv.busy = false) := by
  have ended : ∀ (u : State) (n : Nat),
      (u.setCount n).endReception.runRefused = u.runRefused ∧
      (u.setCount n).endReception.cfg = u.cfg ∧ (u.setCount n).endReception.arb = u.arb ∧
      (u.setCount n).endReception.fg = u.fg ∧ (u.setCount n).endReception.mem = u.mem ∧
      (u.setCount n).endReception.env = u.env ∧ (u.setCount n).endReception.ghost = u.ghost ∧
      (u.setCount n).endReception.drv.requestedLength = u.drv.requestedLength ∧
      (u.setCount n).endReception.ports.res = u.ports.res ∧
      (u.setCount n).endReception.obs.wire = u.obs.wire ∧
      (u.setCount n).endReception.drv.busy = false := by
    intro u n
    unfold State.endReception State.notifyRxDone
    dsimp only
    split <;> exact ⟨rfl, rfl, rfl, rfl, rfl, rfl, rfl, rfl, rfl, rfl, rfl⟩
  rcases execEvRxc_next h with ⟨-, rfl⟩ | ⟨-, -, hb, c, -, hr⟩
  · exact ⟨rfl, rfl, rfl, rfl, rfl, rfl, rfl, rfl, rfl, rfl, List.prefix_refl _, id⟩
  · have sent := fun bytes => transmit_frame bytes (s.clearPending .rxc)
    have wire := fun bytes => (transmit_extends bytes (s.clearPending .rxc)).1
    rcases receiveByte_next hr with ⟨-, rfl⟩ | ⟨-, -, -, -, u, rfl, rfl⟩ | ⟨-, -, rfl⟩
    · obtain ⟨k0, k1, k2, k3, -, k4, k5, k6, -, k7, k8, -⟩ := sent [(s.clearPending .rxc).cfg.lf]
      obtain ⟨e0, e1, e2, e3, e4, e5, e6, e7, e8, e9, e10⟩ := ended
        (transmit [(s.clearPending .rxc).cfg.lf] (s.clearPending .rxc)).2
        (countAfterCr (s.clearPending .rxc).cfg (s.clearPending .rxc).drv.receivedCount)
      rw [e0, e1, e2, e3, e4, e5, e6, e7, e8, e9, e10, k0, k1, k2, k3, k4, k5, k6, k7, k8]
      exact ⟨rfl, rfl, rfl, rfl, rfl, rfl, rfl, rfl, rfl, rfl, wire _, fun _ => rfl⟩
    · obtain ⟨k0, k1, k2, k3, -, k4, k5, k6, -, k7, k8, -⟩ :=
        sent [Memory.read (s.clearPending .rxc).mem c]
      refine ⟨k0, k1, ?_, ?_, k4, k5, k6, ?_, rfl, k8, wire _, fun hf => ?_⟩
      · simpa using congrArg Arbiter.ie k3
      · simpa using congrArg Arbiter.pendTxc k3
      · simpa using congrArg Ghost.armed k7
      · rw [hb] at hf
        cases hf
    · obtain ⟨k0, k1, k2, k3, -, k4, k5, k6, -, k7, k8, -⟩ :=
        sent [Memory.read (s.clearPending .rxc).mem c]
      obtain ⟨e0, e1, e2, e3, e4, e5, e6, e7, e8, e9, e10⟩ := ended
        (transmit [Memory.read (s.clearPending .rxc).mem c] (s.clearPending .rxc)).2
        ((s.clearPending .rxc).drv.receivedCount + 1)
      rw [e0, e1, e2, e3, e4, e5, e6, e7, e8, e9, e10, k0, k1, k2, k3, k4, k5, k6, k7, k8]
      exact ⟨rfl, rfl, rfl, rfl, rfl, rfl, rfl, rfl, rfl, rfl, wire _, fun _ => rfl⟩

/-- A delivery of `EV_TXC`, whatever it did: the driver, `ie`, the pending receive event, the sequencer,
caller memory and the result port are the same (43_completion_events.md R146, R149). -/
theorem execEvTxc_frame (h : execEvTxc s = .next t) :
    t.runRefused = s.runRefused ∧
    t.cfg = s.cfg ∧ t.arb.ie = s.arb.ie ∧ t.arb.pendRxc = s.arb.pendRxc ∧ t.fg = s.fg ∧
    t.mem = s.mem ∧ t.env.prog = s.env.prog ∧ t.env.sched = s.env.sched ∧
    t.ghost.armed = s.ghost.armed ∧ t.drv = s.drv ∧ t.ports.res = s.ports.res ∧
    t.ports.rxDone = s.ports.rxDone ∧ t.obs.cbCount = s.obs.cbCount ∧
    t.xp.rxArmed = s.xp.rxArmed ∧ s.obs.wire <+: t.obs.wire := by
  rcases execEvTxc_next h with ⟨-, rfl⟩ | ⟨-, -, -, rfl⟩ | ⟨-, -, -, rfl⟩
  · exact ⟨rfl, rfl, rfl, rfl, rfl, rfl, rfl, rfl, rfl, rfl, rfl, rfl, rfl, rfl,
      List.prefix_refl _⟩
  · exact ⟨rfl, rfl, rfl, rfl, rfl, rfl, rfl, rfl, rfl, rfl, rfl, rfl, rfl, rfl,
      List.prefix_refl _⟩
  · unfold drain xportTxBlocking
    dsimp only
    rw [if_neg Bool.false_ne_true]
    unfold State.tookTx
    dsimp only
    cases s.env.txAns <;>
      exact ⟨rfl, rfl, rfl, rfl, rfl, rfl, rfl, rfl, rfl, rfl, rfl, rfl, rfl, rfl,
        List.prefix_append _ _⟩

/-- No instruction marks the run: only an opcode outside the map does (30_encoding.md R78; log 7). -/
theorem exec_runRefused {i : Instr} (h : exec i s = .next t) : t.runRefused = s.runRefused := by
  cases i with
  | rbInit => obtain ⟨-, rfl⟩ := execRbInit_next h; rfl
  | rbIsEmpty => cases h; rfl
  | rbIsFull => cases h; rfl
  | rbFreeSpace => cases h; rfl
  | rbWrite => obtain ⟨-, ⟨-, rfl⟩ | ⟨-, rfl⟩⟩ := execRbWrite_next h <;> rfl
  | rbRead => obtain ⟨-, ⟨-, rfl⟩ | ⟨-, -, rfl⟩⟩ := execRbRead_next h <;> rfl
  | rbWriteLin => obtain ⟨-, -, ⟨-, rfl⟩ | ⟨-, rfl⟩⟩ := execRbWriteLin_next h <;> rfl
  | rbReadLin => obtain ⟨-, -, ⟨-, rfl⟩ | ⟨-, -, rfl⟩⟩ := execRbReadLin_next h <;> rfl
  | rbFlush => obtain ⟨-, -, rfl⟩ := execRbFlush_next h; rfl
  | rbFlushLin => obtain ⟨-, -, -, rfl⟩ := execRbFlushLin_next h; rfl
  | rxInit => obtain ⟨-, rfl⟩ | ⟨-, -, rfl⟩ | ⟨-, -, rfl⟩ := execRxInit_next h <;> rfl
  | rxStart => obtain ⟨-, ⟨-, rfl⟩ | ⟨-, -, -, -, rfl⟩⟩ := execRxStart_next h <;> rfl
  | rxReadLine => obtain ⟨-, -, ⟨-, rfl⟩ | ⟨-, rfl⟩⟩ := execRxReadLine_next h <;> rfl
  | drvStatus => cases h; rfl
  | txTransmit => obtain ⟨-, -, rfl⟩ := sendSpan_next h; exact (fgTransmit_frame _ _ _).1
  | txWriteSync => obtain ⟨-, -, rfl⟩ := sendSpan_next h; exact (fgTransmit_frame _ _ _).1
  | csEnter => cases h; rfl
  | csExit => cases h; rfl
  | evRxc => exact (execEvRxc_frame h).1
  | evTxc => exact (execEvTxc_frame h).1

end Sys2Proof.Machine
end

