-- ==== Sys2Proof/Laws/PerInstr.lean ====
section
/-! SUPPORT. Statements about every instruction, one lemma for each. The family `WordFits`: the word of a
well-formed instruction has no bit outside its format (30_encoding.md R70, R71, R79). -/

namespace Sys2Proof.Laws.WordFits

open Sys2Proof

/-- The encoded word of a well-formed instruction fits the `8 + ADDR_W + LEN_W` bits of the command port;
an event raises one of the two lines. -/
def Statement (i : Instr) : Prop :=
  ∀ c : Config, c.valid → i.wf c = true →
    match encode c i with
    | .cmd w => w < 2 ^ (8 + c.addrW + c.lenW)
    | .evt lines => lines = 0b01 ∨ lines = 0b10

/-- Three fields within their widths make a word within the format. -/
theorem cmd_fits {c : Config} {op a n : Nat} (h : op < 2 ^ 8) (ha : a < 2 ^ c.addrW)
    (hn : n < 2 ^ c.lenW) :
    op + a * 2 ^ 8 + n * 2 ^ (8 + c.addrW) < 2 ^ (8 + c.addrW + c.lenW) := by
  have h1 : op + a * 2 ^ 8 < 2 ^ (8 + c.addrW) := by
    rw [Nat.pow_add]
    have : (a + 1) * 2 ^ 8 ≤ 2 ^ c.addrW * 2 ^ 8 := Nat.mul_le_mul_right _ ha
    omega
  have h2 : (n + 1) * 2 ^ (8 + c.addrW) ≤ 2 ^ c.lenW * 2 ^ (8 + c.addrW) :=
    Nat.mul_le_mul_right _ hn
  rw [Nat.pow_add 2 (8 + c.addrW)]
  rw [Nat.add_mul, Nat.one_mul, Nat.mul_comm (2 ^ c.lenW)] at h2
  omega

/-- A field of any width holds 0. -/
theorem zero_fits (k : Nat) : 0 < 2 ^ k := Nat.two_pow_pos k

theorem rbInit : Statement .rbInit := fun _ _ _ =>
  cmd_fits (by norm_num) (zero_fits _) (zero_fits _)
theorem rbIsEmpty : Statement .rbIsEmpty := fun _ _ _ =>
  cmd_fits (by norm_num) (zero_fits _) (zero_fits _)
theorem rbIsFull : Statement .rbIsFull := fun _ _ _ =>
  cmd_fits (by norm_num) (zero_fits _) (zero_fits _)
theorem rbFreeSpace : Statement .rbFreeSpace := fun _ _ _ =>
  cmd_fits (by norm_num) (zero_fits _) (zero_fits _)
theorem rbWrite (a : Nat) (n : Nat) : Statement (.rbWrite a n) := fun c _ h => by
  have h : a < 2 ^ c.addrW ∧ n < 2 ^ c.lenW := by simpa [Instr.wf] using h
  exact cmd_fits (by norm_num) h.1 h.2
theorem rbRead (a : Nat) (n : Nat) : Statement (.rbRead a n) := fun c _ h => by
  have h : a < 2 ^ c.addrW ∧ n < 2 ^ c.lenW := by simpa [Instr.wf] using h
  exact cmd_fits (by norm_num) h.1 h.2
theorem rbWriteLin (a : Nat) (n : Nat) : Statement (.rbWriteLin a n) := fun c _ h => by
  have h : a < 2 ^ c.addrW ∧ n < 2 ^ c.lenW := by simpa [Instr.wf] using h
  exact cmd_fits (by norm_num) h.1 h.2
theorem rbReadLin (a : Nat) (n : Nat) : Statement (.rbReadLin a n) := fun c _ h => by
  have h : a < 2 ^ c.addrW ∧ n < 2 ^ c.lenW := by simpa [Instr.wf] using h
  exact cmd_fits (by norm_num) h.1 h.2
theorem rbFlush (a : Nat) : Statement (.rbFlush a) := fun c _ h => by
  have h : a < 2 ^ c.addrW := by simpa [Instr.wf] using h
  exact cmd_fits (by norm_num) h (zero_fits _)
theorem rbFlushLin (a : Nat) : Statement (.rbFlushLin a) := fun c _ h => by
  have h : a < 2 ^ c.addrW := by simpa [Instr.wf] using h
  exact cmd_fits (by norm_num) h (zero_fits _)
theorem rxInit (n : Nat) : Statement (.rxInit n) := fun c _ h => by
  have h : n < 2 ^ c.lenW := by simpa [Instr.wf] using h
  exact cmd_fits (by norm_num) (zero_fits _) h
theorem rxStart (a : Nat) : Statement (.rxStart a) := fun c _ h => by
  have h : a < 2 ^ c.addrW := by simpa [Instr.wf] using h
  exact cmd_fits (by norm_num) h (zero_fits _)
theorem rxReadLine (a : Nat) (n : Nat) : Statement (.rxReadLine a n) := fun c _ h => by
  have h : a < 2 ^ c.addrW ∧ n < 2 ^ c.lenW := by simpa [Instr.wf] using h
  exact cmd_fits (by norm_num) h.1 h.2
theorem drvStatus : Statement .drvStatus := fun _ _ _ =>
  cmd_fits (by norm_num) (zero_fits _) (zero_fits _)
theorem txTransmit (a : Nat) (n : Nat) : Statement (.txTransmit a n) := fun c _ h => by
  have h : a < 2 ^ c.addrW ∧ n < 2 ^ c.lenW := by simpa [Instr.wf] using h
  exact cmd_fits (by norm_num) h.1 h.2
theorem txWriteSync (a : Nat) (n : Nat) : Statement (.txWriteSync a n) := fun c _ h => by
  have h : a < 2 ^ c.addrW ∧ n < 2 ^ c.lenW := by simpa [Instr.wf] using h
  exact cmd_fits (by norm_num) h.1 h.2
theorem csEnter : Statement .csEnter := fun _ _ _ =>
  cmd_fits (by norm_num) (zero_fits _) (zero_fits _)
theorem csExit (s : Bool) : Statement (.csExit s) := fun c hc _ => by
  have h : s.toNat < 2 ^ c.lenW := by
    have := hc.1
    have := hc.2.2.1
    cases s <;> simp only [Bool.toNat_false, Bool.toNat_true] <;> omega
  exact cmd_fits (by norm_num) (zero_fits _) h
theorem evRxc : Statement .evRxc := fun _ _ _ => .inl rfl
theorem evTxc : Statement .evTxc := fun _ _ _ => .inr rfl

end Sys2Proof.Laws.WordFits
end

