-- ==== Sys2Proof/Laws/Step.lean ====
section
/-! SUPPORT. All that one step can do, said once: whose turn it was and what the turn ran. -/

namespace Sys2Proof.Machine

variable {s t : State}

/-- The state in which the next entry of the foreground's program runs: the step has begun and the entry
is off the program (log 4). -/
def State.issued (s : State) (rest : List FgOp) : State :=
  { s.beginStep with env := { s.beginStep.env with prog := rest } }

@[simp] theorem State.issued_runRefused (rest : List FgOp) :
    (s.issued rest).runRefused = s.runRefused := rfl
@[simp] theorem illegalOpcode_runRefused : (illegalOpcode s).runRefused = true := rfl

/-- But for the mark, an illegal opcode does what presenting `ILLEGAL`, 0 does (30_encoding.md R78). -/
theorem illegalOpcode_eq (s : State) :
    illegalOpcode s = { s.present .illegal 0 with runRefused := true } := rfl

/-- A turn of the foreground (00_scope.md R11; 10_state.md R25). -/
theorem fgTurn_next (h : fgTurn s.beginStep = .next t) :
    (s.fg = .idle ∧ s.env.prog = [] ∧ t = s.beginStep) ∨
    (s.fg = .idle ∧ ∃ a b rest, s.env.prog = .store a b :: rest ∧ a + 1 ≤ 2 ^ s.cfg.addrW ∧
      s.onLoan a = false ∧ t = (s.issued rest).writeMem a [b]) ∨
    (s.fg = .idle ∧ ∃ w rest, s.env.prog = .cmd w :: rest ∧
      decodeCmd s.cfg w = .illegal (fieldOp w) ∧ t = illegalOpcode (s.issued rest)) ∨
    (s.fg = .idle ∧ ∃ w rest i, s.env.prog = .cmd w :: rest ∧ decodeCmd s.cfg w = .instr i ∧
      exec i (s.issued rest) = .next t) ∨
    (∃ a n, s.fg = .readLine a n .recv ∧ t = rlByte a n s.beginStep) ∨
    (∃ a n sawCR, s.fg = .readLine a n (.finish sawCR) ∧ t = rlFinish a n sawCR s.beginStep) ∨
    (∃ bytes call, s.fg = .enqueue bytes call ∧ t = fgEnqueue bytes call s.beginStep) := by
  unfold fgTurn at h
  rw [State.beginStep_fg] at h
  split at h
  · next hi =>
    unfold fgIssue at h
    rw [State.beginStep_env] at h
    dsimp only at h
    split at h
    · next hp =>
      cases h
      exact .inl ⟨hi, hp, rfl⟩
    · next w rest hp =>
      unfold issue at h
      rw [State.beginStep_cfg] at h
      split at h
      · next i hd => exact .inr (.inr (.inr (.inl ⟨hi, w, rest, i, hp, hd, h⟩)))
      · next hd =>
        unfold decodeCmd at hd
        split at hd <;> cases hd
      · next hd =>
        unfold decodeCmd at hd
        split at hd <;> cases hd
      · next op hd =>
        cases h
        refine .inr (.inr (.inl ⟨hi, w, rest, hp, ?_, rfl⟩))
        unfold decodeCmd at hd ⊢
        split at hd
        · cases hd
        · rfl
    · next a b rest hp =>
      obtain ⟨h1, h⟩ := withSpan_next h
      obtain ⟨h2, h⟩ := withoutLoan_next h
      cases h
      refine .inr (.inl ⟨hi, a, b, rest, hp, h1, ?_, rfl⟩)
      exact (Bool.or_eq_false_iff.1 h2).1
  · next a n hi =>
    cases h
    exact .inr (.inr (.inr (.inr (.inl ⟨a, n, hi, rfl⟩))))
  · next a n sawCR hi =>
    cases h
    exact .inr (.inr (.inr (.inr (.inr (.inl ⟨a, n, sawCR, hi, rfl⟩)))))
  · next bytes call hi =>
    cases h
    exact .inr (.inr (.inr (.inr (.inr (.inr ⟨bytes, call, hi, rfl⟩)))))

/-- A step is one turn of one agent (00_scope.md R11). -/
theorem step_next (h : step s = .next t) :
    (s.turn = .fg ∧ fgTurn s.beginStep = .next t) ∨
    (∃ b, s.turn = .rxArrive b ∧ t = xpRxArrive b s.beginStep) ∨
    (s.turn = .txDone ∧ t = xpTxDone s.beginStep) ∨
    (s.turn = .txSpurious ∧ t = xpTxSpurious s.beginStep) ∨
    (s.turn = .evRxc ∧ execEvRxc s.beginStep = .next t) ∨
    (s.turn = .evTxc ∧ execEvTxc s.beginStep = .next t) := by
  unfold step takeTurn at h
  split at h
  · next e => exact .inl ⟨e, h⟩
  · next b e =>
    cases h
    exact .inr (.inl ⟨b, e, rfl⟩)
  · next e =>
    cases h
    exact .inr (.inr (.inl ⟨e, rfl⟩))
  · next e =>
    cases h
    exact .inr (.inr (.inr (.inl ⟨e, rfl⟩)))
  · next e => exact .inr (.inr (.inr (.inr (.inl ⟨e, h⟩))))
  · next e => exact .inr (.inr (.inr (.inr (.inr ⟨e, h⟩))))

/-- The two halves of the transport's steps (43_completion_events.md R141 to R143). -/
theorem xpRxArrive_cases (b : Byte) (s : State) :
    (s.xp.rxArmed = none ∧ xpRxArrive b s = s) ∨
    (∃ c, s.xp.rxArmed = some c ∧ xpRxArrive b s = { s with
      mem := Memory.write s.mem c b
      xp := { s.xp with rxArmed := none }
      arb := { s.arb with pendRxc := true } }) := by
  unfold xpRxArrive
  split
  · next h => exact .inl ⟨h, rfl⟩
  · next c h => exact .inr ⟨c, h, by simp [State.raise, State.writeMem, Memory.writeSpan]⟩

theorem xpTxDone_cases (s : State) :
    xpTxDone s = s ∨ (s.xp.txActive = true ∧ s.arb.pendTxc = false ∧
      xpTxDone s = { s with arb := { s.arb with pendTxc := true } }) := by
  unfold xpTxDone
  split
  · next h =>
    rw [Bool.and_eq_true] at h
    exact .inr ⟨h.1, by simpa using h.2, by simp [State.raise]⟩
  · exact .inl rfl

/-- The set-up window is the time before the first request (70_reset_and_hazards.md R188). -/
@[simp] theorem State.setUpWindow_eq (s : State) : s.setUpWindow = !s.ghost.xportUsed := rfl

/-- When the transport may raise a spurious event (43_completion_events.md R143; log 16). -/
theorem spuriousEnabled_eq_true : s.spuriousEnabled = true ↔
    s.cfg.spuriousTxc = true ∧ s.xp.txActive = false ∧ s.arb.pendTxc = false ∧
      (s.cfg.spuriousInSetUp = true ∨ s.ghost.xportUsed = true) := by
  simp [State.spuriousEnabled, and_assoc]

theorem xpTxSpurious_cases (s : State) :
    (s.spuriousEnabled = false ∧ xpTxSpurious s = s) ∨
    (s.cfg.spuriousTxc = true ∧ s.xp.txActive = false ∧ s.arb.pendTxc = false ∧
      (s.cfg.spuriousInSetUp = true ∨ s.ghost.xportUsed = true) ∧
      xpTxSpurious s = { s with arb := { s.arb with pendTxc := true } }) := by
  unfold xpTxSpurious
  cases h : s.spuriousEnabled
  · exact .inl ⟨rfl, rfl⟩
  · obtain ⟨h1, h2, h3, h4⟩ := spuriousEnabled_eq_true.1 h
    exact .inr ⟨h1, h2, h3, h4, by simp [State.raise]⟩

/-- The byte step of a line read, by the transport's answer (41_reception.md R115, R117). -/
theorem rlByte_eq (a n : Nat) (s : State) :
    rlByte a n s = match s.nextRx with
      | .error => (s.tookRx.exchange (.rxBlocking s.cfg.maxWait .error)).leaveLine.present .errHw
          (minusOne s.cfg)
      | .ok b =>
        let u := (s.tookRx.exchange (.rxBlocking s.cfg.maxWait (.ok b))).writeMem
          (a + s.drv.receivedCount) [b]
        if b = s.cfg.cr then
          { u.setCount (countAfterCr s.cfg s.drv.receivedCount) with
            fg := .readLine a n (.finish true) }
        else fgTransmit [b] (.echo a n) u := by
  unfold rlByte xportRxBlocking
  cases s.nextRx <;> simp

/-- The invariants speak of no output port, of nothing outside the block and of no observation. -/
theorem State.Inv.congr (h : s.Inv) (h1 : t.cfg = s.cfg) (h2 : t.ring = s.ring) (h3 : t.drv = s.drv)
    (h4 : t.arb.pendRxc = s.arb.pendRxc) (h5 : t.arb.pendTxc = s.arb.pendTxc) (h6 : t.xp = s.xp)
    (h7 : t.fg = s.fg) (h8 : t.ghost = s.ghost) (h9 : t.mem = s.mem) : t.Inv := by
  have hf : t.fgOk ↔ s.fgOk := by
    unfold State.fgOk lineLoaded lineSlots
    rw [h1, h3, h7, h9]
  exact {
    config := h1 ▸ h.config
    ring := by rw [h1, h2]; exact h.ring
    mem := by rw [h1, h9]; exact h.mem
    count := by rw [h3]; exact h.count
    length := by rw [h1, h3]; exact h.length
    armedInto := by rw [h3, h6, h7]; exact h.armedInto
    pending := by rw [h3, h4, h6, h7]; exact h.pending
    receiving := by rw [h3, h4, h6, h7]; exact h.receiving
    inLine := by rw [h3, h4, h6, h7]; exact h.inLine
    spurious := by rw [h1, h5, h6]; exact h.spurious
    loan := by rw [h1, h3, h7]; exact h.loan
    armed := by rw [h3, h7, h8]; exact h.armed
    setUp := by rw [h1, h4, h5, h6, h8]; exact h.setUp
    fg := hf.2 h.fg }

end Sys2Proof.Machine
end

