-- ==== Sys2Proof/Tests/Slice0.lean ====
section
/-! SUPPORT. The model's own tests, all on small states. The expected results are the words and vectors of
95_test_vectors.md, named by their numbers there, or follow by hand from the rule named. After them, for
every statement with hypotheses, a state and operands that meet all of them together. -/

namespace Sys2Proof.Tests

open Sys2Proof Sys2Proof.Machine

/-! ### WellFormed refuses what does not fit a field (30_encoding.md R71) -/

theorem test_wf_address_of_write : (Instr.rbWrite 0x10000 1).wf .reference = false := by decide
theorem test_wf_length_of_write : (Instr.rbWrite 0 0x100).wf .reference = false := by decide
theorem test_wf_address_of_read : (Instr.rbRead 0x10000 1).wf .reference = false := by decide
theorem test_wf_length_of_read : (Instr.rbRead 0 0x100).wf .reference = false := by decide
theorem test_wf_address_of_writel : (Instr.rbWriteLin 0x10000 1).wf .reference = false := by decide
theorem test_wf_length_of_writel : (Instr.rbWriteLin 0 0x100).wf .reference = false := by decide
theorem test_wf_address_of_readl : (Instr.rbReadLin 0x10000 1).wf .reference = false := by decide
theorem test_wf_length_of_readl : (Instr.rbReadLin 0 0x100).wf .reference = false := by decide
theorem test_wf_address_of_flush : (Instr.rbFlush 0x10000).wf .reference = false := by decide
theorem test_wf_address_of_flushl : (Instr.rbFlushLin 0x10000).wf .reference = false := by decide
theorem test_wf_length_of_rx_init : (Instr.rxInit 0x100).wf .reference = false := by decide
theorem test_wf_address_of_rx_start : (Instr.rxStart 0x10000).wf .reference = false := by decide
theorem test_wf_address_of_readline : (Instr.rxReadLine 0x10000 1).wf .reference = false := by decide
theorem test_wf_length_of_readline : (Instr.rxReadLine 0 0x100).wf .reference = false := by decide
theorem test_wf_address_of_send : (Instr.txTransmit 0x10000 1).wf .reference = false := by decide
theorem test_wf_length_of_send : (Instr.txTransmit 0 0x100).wf .reference = false := by decide
theorem test_wf_address_of_tx_write : (Instr.txWriteSync 0x10000 1).wf .reference = false := by decide
theorem test_wf_length_of_tx_write : (Instr.txWriteSync 0 0x100).wf .reference = false := by decide
theorem test_wf_accepts_the_largest : (Instr.rbWrite 0xFFFF 0xFF).wf .reference = true := by decide

/-! ### Decoding: the words EN-01 to EN-21 -/

/-- Decoding at `ADDR_W = 16`, `LEN_W = 8`. -/
abbrev dec (w : Nat) : Decoded := decodeCmd .reference w

theorem test_decode_rb_init : dec 0x00000000 = .instr .rbInit := by decide
theorem test_decode_rb_empty : dec 0x00000001 = .instr .rbIsEmpty := by decide
theorem test_decode_rb_full : dec 0x00000002 = .instr .rbIsFull := by decide
theorem test_decode_rb_free : dec 0x00000003 = .instr .rbFreeSpace := by decide
theorem test_decode_rb_write : dec 0x05010004 = .instr (.rbWrite 0x0100 5) := by decide
theorem test_decode_rb_read : dec 0x03020005 = .instr (.rbRead 0x0200 3) := by decide
theorem test_decode_rb_writel : dec 0x05011006 = .instr (.rbWriteLin 0x0110 5) := by decide
theorem test_decode_rb_readl : dec 0x03020007 = .instr (.rbReadLin 0x0200 3) := by decide
theorem test_decode_rb_flush : dec 0x00030008 = .instr (.rbFlush 0x0300) := by decide
theorem test_decode_rb_flushl : dec 0x00030009 = .instr (.rbFlushLin 0x0300) := by decide
theorem test_decode_rx_init : dec 0x05000010 = .instr (.rxInit 5) := by decide
theorem test_decode_rx_start : dec 0x00040011 = .instr (.rxStart 0x0400) := by decide
theorem test_decode_rx_readline : dec 0x03060012 = .instr (.rxReadLine 0x0600 3) := by decide
theorem test_decode_drv_status : dec 0x00000013 = .instr .drvStatus := by decide
theorem test_decode_tx_send : dec 0x03050020 = .instr (.txTransmit 0x0500 3) := by decide
theorem test_decode_tx_write : dec 0x04051021 = .instr (.txWriteSync 0x0510 4) := by decide
theorem test_decode_cs_enter : dec 0x00000030 = .instr .csEnter := by decide
theorem test_decode_cs_exit : dec 0x01000031 = .instr (.csExit true) := by decide
/-- The word of `RB_WRITE` written bit by bit: 8 bits of `n`, 16 of `a`, 8 of the opcode. -/
theorem test_decode_bits_of_rb_write :
    dec 0b00000101000000010000000000000100 = .instr (.rbWrite 0x0100 5) := by decide
theorem test_decode_illegal :
    dec 0x0A = .illegal 0x0A ∧ dec 0x14 = .illegal 0x14 ∧ dec 0x22 = .illegal 0x22 ∧
      dec 0x32 = .illegal 0x32 ∧ dec 0xFF = .illegal 0xFF := by decide
theorem test_decode_event_lines :
    decodeEvt 0b01 = .instr .evRxc ∧ decodeEvt 0b10 = .instr .evTxc ∧ decodeEvt 0b11 = .bothEvents ∧
      decodeEvt 0b00 = .noEvent := by decide
theorem test_decode_table_word :
    decodeTableWord 8 0x21 = some (.txWriteSync 0 0) ∧ decodeTableWord 1 1 = some .evRxc ∧
      decodeTableWord 2 2 = some .evTxc ∧ decodeTableWord 8 0x0A = none := by decide

/-! ### The states of the tests -/

/-- The next state, if there is one. -/
def nextOf (o : Out) : Option State :=
  match o with
  | .next t => some t
  | .fault _ => none
  | .refused _ => none

/-- The refusal, if there is one. -/
def refusalOf (o : Out) : Option Refusal :=
  match o with
  | .next _ => none
  | .fault _ => none
  | .refused r => some r

/-- What a test looks at in the outcome of a step. -/
def look {α : Type} (o : Out) (f : State → α) : Option α := (nextOf o).map f

/-- The result port. -/
def res (t : State) : Option (Status × Nat) := t.ports.res.map fun r => (r.status, r.value)

/-- `head`, `tail`, `storage`. -/
def ringOf (t : State) : Nat × Nat × List Byte := (t.ring.head, t.ring.tail, t.ring.storage)

/-- The bytes at `0x100`, `0x110`, `0x120` and `0x500` that the vectors read. -/
def someBytes : Memory :=
  [(0x100, 0x10), (0x101, 0x11), (0x102, 0x12), (0x103, 0x13), (0x104, 0x14), (0x110, 0x20),
    (0x111, 0x21), (0x112, 0x22), (0x113, 0x23), (0x114, 0x24), (0x120, 0x31), (0x121, 0x32),
    (0x122, 0x33), (0x500, 0x58), (0x501, 0x59), (0x502, 0x5A)]

/-- Reset with those bytes in caller memory. -/
def start : State := State.resetWith .reference (List.replicate 8 0) someBytes

/-- The `storage` of RB-21. -/
def bytes21 : List Byte := [0x23, 0x24, 0x12, 0x13, 0x14, 0x20, 0x21, 0x22]

end Sys2Proof.Tests

namespace Sys2Proof.Machine

/-- A ring buffer of the vectors. -/
def State.withRing (s : State) (head tail : Nat) (storage : List Byte) : State :=
  { s with ring := { storage := storage, head := head, tail := tail } }

/-- Outside the set-up window. -/
def State.used (s : State) : State := { s with ghost := { s.ghost with xportUsed := true } }

/-- With `ie = 0`. -/
def State.masked (s : State) : State := { s with arb := { s.arb with ie := false } }

/-- With a transmission in flight. -/
def State.sending (s : State) : State :=
  { s with
    xp := { s.xp with txActive := true }
    ghost := { s.ghost with xportUsed := true } }

/-- With a transmit-complete event pending. -/
def State.txcWaits (s : State) : State := { s with arb := { s.arb with pendTxc := true } }

/-- A reception of `len` bytes, `count` of them received, the next one armed into `c`. -/
def State.receivingInto (s : State) (len count c : Nat) : State :=
  { s with
    drv := { busy := true, requestedLength := len, receivedCount := count, cursor := some c }
    xp := { s.xp with rxArmed := some c }
    ghost := { armed := false, xportUsed := true } }

/-- The same with the byte `b` arrived and its event pending. -/
def State.arrived (s : State) (len count c : Nat) (b : Byte) : State :=
  let t := s.receivingInto len count c
  { t with
    mem := Memory.write t.mem c b
    xp := { t.xp with rxArmed := none }
    arb := { t.arb with pendRxc := true } }

/-- ARMED for `len` bytes. -/
def State.armedFor (s : State) (len : Nat) : State :=
  { s with
    drv := { s.drv with requestedLength := len, receivedCount := 0, cursor := none }
    ghost := { s.ghost with armed := true } }

/-- A line read of `len` slots at `a`, `count` bytes received, in a phase, with answers to come. -/
def State.reading (s : State) (a len count : Nat) (p : Phase) (answers : List BlockingRx) : State :=
  { s with
    drv := { s.drv with busy := true, requestedLength := len, receivedCount := count }
    fg := .readLine a len p
    ghost := { s.ghost with armed := false }
    env := { s.env with rxAns := answers } }

/-- In the split reading of the fallback (42_transmission.md R135). -/
def State.splitting (s : State) : State := { s with cfg := { s.cfg with txFallbackSplit := true } }

/-- In the reading in which no event comes in the set-up window (log 16). -/
def State.quietSetUp (s : State) : State := { s with cfg := { s.cfg with spuriousInSetUp := false } }

/-- With these entries next in the foreground's program. -/
def State.program (s : State) (p : List FgOp) : State := { s with env := { s.env with prog := p } }

/-- With these turns next. -/
def State.turns (s : State) (ts : List Turn) : State := { s with env := { s.env with sched := ts } }

/-- With these answers to the next blocking transmissions. -/
def State.txAnswers (s : State) (l : List BlockingTx) : State :=
  { s with env := { s.env with txAns := l } }

end Sys2Proof.Machine

namespace Sys2Proof.Tests

open Sys2Proof Sys2Proof.Machine

/-! ### One step of each instruction -/

theorem test_rb_init_RB23 :
    look (exec .rbInit (start.withRing 3 6 bytes21)) (fun t => (res t, ringOf t)) =
      some (some (.ok, 0), 0, 0, bytes21) := by decide
theorem test_rb_init_RB24 :
    refusalOf (exec .rbInit start.used) = some .exclusivityNotHeld := by decide
theorem test_rb_empty_RB06 :
    look (exec .rbIsEmpty (start.withRing 7 7 bytes21)) res = some (some (.ok, 1)) := by decide
theorem test_rb_empty_RB07 :
    look (exec .rbIsEmpty (start.withRing 7 0 bytes21)) res = some (some (.ok, 0)) := by decide
theorem test_rb_full_RB04 :
    look (exec .rbIsFull (start.withRing 3 2 bytes21)) res = some (some (.ok, 1)) := by decide
theorem test_rb_full_RB05 :
    look (exec .rbIsFull (start.withRing 5 1 bytes21)) res = some (some (.ok, 0)) := by decide
theorem test_rb_free_RB05 :
    look (exec .rbFreeSpace (start.withRing 5 1 bytes21)) res = some (some (.ok, 3)) := by decide
theorem test_rb_free_RB06 :
    look (exec .rbFreeSpace (start.withRing 7 7 bytes21)) res = some (some (.ok, 7)) := by decide
theorem test_rb_write_RB16 :
    look (exec (.rbWrite 0x110 5) (start.withRing 3 5 [1, 2, 3, 4, 5, 6, 7, 8]))
        (fun t => (res t, ringOf t)) =
      some (some (.ok, 0), 3, 2, [0x23, 0x24, 3, 4, 5, 0x20, 0x21, 0x22]) := by decide
theorem test_rb_write_RB12 :
    look (exec (.rbWrite 0x100 6) (start.withRing 3 5 bytes21)) (fun t => (res t, ringOf t)) =
      some (some (.errFull, 0), 3, 5, bytes21) := by decide
theorem test_rb_read_RB19 :
    look (exec (.rbRead 0x200 4) (start.withRing 6 2 [3, 4, 0, 0, 0, 0, 1, 2]))
        (fun t => (res t, t.ring.head, Memory.readSpan t.mem 0x200 5)) =
      some (some (.ok, 0), 2, [1, 2, 3, 4, 0]) := by decide
theorem test_rb_read_RB15 :
    look (exec (.rbRead 0x200 3) (start.withRing 3 5 bytes21))
        (fun t => (res t, ringOf t, Memory.readSpan t.mem 0x200 3)) =
      some (some (.errEmpty, 0), (3, 5, bytes21), [0, 0, 0]) := by decide
theorem test_rb_writel_RB17 :
    look (exec (.rbWriteLin 0x110 5) (start.withRing 3 5 [1, 2, 3, 4, 5, 6, 7, 8]).used.masked)
        (fun t => (res t, ringOf t, t.arb.ie)) =
      some (some (.ok, 0), (3, 2, [0x23, 0x24, 3, 4, 5, 0x20, 0x21, 0x22]), false) := by decide
theorem test_rb_writel_RB25 :
    look (exec (.rbWriteLin 0x120 3) (start.withRing 4 5 [1, 2, 3, 4, 5, 6, 7, 8]).masked)
        (fun t => (res t, ringOf t)) =
      some (some (.ok, 0), 4, 0, [1, 2, 3, 4, 5, 0x31, 0x32, 0x33]) := by decide
theorem test_rb_readl_RB18 :
    look (exec (.rbReadLin 0x200 3) (start.withRing 6 2 [3, 4, 0, 0, 0, 0, 1, 2]).masked)
        (fun t => (res t, t.ring.head, Memory.readSpan t.mem 0x200 4)) =
      some (some (.ok, 0), 1, [1, 2, 3, 0]) := by decide
theorem test_rb_readl_RB24 :
    refusalOf (exec (.rbReadLin 0x200 3) start.used) = some .exclusivityNotHeld := by decide
theorem test_rb_flush_RB21 :
    look (exec (.rbFlush 0x300) (start.withRing 3 2 bytes21))
        (fun t => (res t, ringOf t, Memory.readSpan t.mem 0x300 8)) =
      some (some (.ok, 7), (2, 2, bytes21), [0x13, 0x14, 0x20, 0x21, 0x22, 0x23, 0x24, 0]) := by decide
theorem test_rb_flush_RB27 :
    refusalOf (exec (.rbFlush 0xFFFA) start) = some .spanWraps ∧
      look (exec (.rbFlush 0xFFF9) start) res = some (some (.ok, 0)) := by decide
theorem test_rb_flushl_RB22 :
    look (exec (.rbFlushLin 0x300) (start.withRing 3 2 bytes21).masked)
        (fun t => (res t, ringOf t, Memory.readSpan t.mem 0x300 8)) =
      some (some (.ok, 7), (2, 2, bytes21), [0x13, 0x14, 0x20, 0x21, 0x22, 0x23, 0x24, 0]) := by decide
theorem test_rx_init_RX06 :
    look (exec (.rxInit 9) (start.armedFor 5)) (fun t => (res t, t.drv, t.rxState)) =
      some (some (.ok, 0), ⟨false, 9, 0, none⟩, .armed) := by decide
theorem test_rx_init_RX04 :
    look (exec (.rxInit 1) (start.receivingInto 5 2 0x402)) (fun t => (res t, t.drv)) =
      some (some (.errBadLength, 0), ⟨true, 5, 2, some 0x402⟩) := by decide
theorem test_rx_start_RX07 :
    look (exec (.rxStart 0x400) (start.armedFor 5))
        (fun t => (res t, t.drv, t.xp.rxArmed, t.rxState)) =
      some (some (.ok, 0), ⟨true, 5, 0, some 0x400⟩, some 0x400, .receiving) := by decide
theorem test_rx_start_RX10 :
    refusalOf (exec (.rxStart 0xFFFC) (start.armedFor 5)) = some .spanWraps := by decide
theorem test_rx_readline_RL05 :
    look (exec (.rxReadLine 0x600 3) (start.armedFor 5))
        (fun t => (res t, t.drv, t.fg, t.ghost.armed)) =
      some (none, ⟨true, 3, 0, none⟩, .readLine 0x600 3 .recv, false) := by decide
theorem test_rx_readline_RX12 :
    look (exec (.rxReadLine 0x600 3) (start.receivingInto 5 0 0x400)) res =
      some (some (.errBusy, 0x1FFFF)) := by decide
/-- The second step of RL-03: `68` is stored and echoed. -/
theorem test_readline_byte_RL03 :
    look (step (start.reading 0x600 5 0 .recv [.ok 0x68]))
        (fun t => (t.fg, t.drv.receivedCount, Memory.read t.mem 0x600, t.obs.wire)) =
      some (.readLine 0x600 5 .recv, 1, 0x68, [0x68]) := by decide
/-- The last step of RL-01: the byte that fills the slots is overwritten by `CR`. -/
theorem test_readline_finish_RL01 :
    look (step (({ start with mem := [(0x600, 0x7A)] } : State).reading 0x600 1 1
        (.finish false) [])) (fun t => (res t, t.fg, Memory.read t.mem 0x600, t.obs.wire)) =
      some (some (.ok, 1), .idle, 0x0D, [0x0D, 0x0A]) := by decide
theorem test_drv_status_value :
    look (exec .drvStatus (start.receivingInto 5 2 0x402)) res = some (some (.ok, 0x10502)) := by
  decide
theorem test_tx_send_TX01 :
    look (exec (.txTransmit 0x500 3) start) (fun t => (res t, t.obs.wire, t.xp.txActive, t.ring.tail)) =
      some (some (.ok, 0), [0x58, 0x59, 0x5A], true, 0) := by decide
theorem test_tx_send_TX08 :
    look (exec (.txTransmit 0x500 3) start.txcWaits) (fun t => (res t, t.obs.wire, ringOf t)) =
      some (some (.ok, 0), [], 0, 3, [0x58, 0x59, 0x5A, 0, 0, 0, 0, 0]) := by decide
theorem test_tx_write_TX04 :
    look (exec (.txWriteSync 0x500 3) (start.withRing 0 4 [1, 2, 3, 4, 5, 6, 7, 8]).sending)
        (fun t => (res t, ringOf t, t.obs.wire)) =
      some (some (.ok, 3), (0, 7, [1, 2, 3, 4, 0x58, 0x59, 0x5A, 8]), []) := by decide
theorem test_tx_write_TX05 :
    look (exec (.txWriteSync 0x500 1) (start.withRing 0 7 bytes21).sending)
        (fun t => (res t, ringOf t)) =
      some (some (.errFull, 0x1FFFF), 0, 7, bytes21) := by decide
theorem test_cs_enter_CS01 :
    look (exec .csEnter start) (fun t => (res t, t.arb.ie)) = some (some (.ok, 1), false) := by decide
theorem test_cs_enter_CS02 :
    look (exec .csEnter start.masked) (fun t => (res t, t.arb.ie)) =
      some (some (.ok, 0), false) := by decide
theorem test_cs_exit_CS03 :
    look (exec (.csExit true) start.masked) (fun t => (res t, t.arb.ie)) =
      some (some (.ok, 0), true) := by decide
theorem test_ev_rxc_EV03 :
    look (exec .evRxc (start.arrived 5 0 0x400 0x61))
        (fun t => (t.obs, t.xp, t.drv, t.arb.pendRxc)) =
      some (⟨[0x61], 0⟩, ⟨some 0x401, true⟩, ⟨true, 5, 1, some 0x401⟩, false) := by decide
theorem test_ev_rxc_EV06 :
    look (exec .evRxc (start.arrived 5 3 0x403 0x0D)) (fun t => (t.obs, t.xp, t.drv, t.ports.rxDone)) =
      some (⟨[0x0A], 1⟩, ⟨none, true⟩, ⟨false, 5, 3, some 0x403⟩, true) := by decide
theorem test_ev_txc_EV25 :
    look (exec .evTxc
        (((start.withRing 0 4 [0x31, 0x32, 0x33, 0x34, 0, 0, 0, 0]).sending.txcWaits).txAnswers
          [.error 2])) (fun t => (t.ring.head, t.ring.tail, t.xp.txActive, t.arb.pendTxc, t.obs.wire)) =
      some (4, 4, false, false, [0x31, 0x32]) := by decide
theorem test_ev_txc_EV28 :
    look (exec .evTxc (((start.withRing 3 2 bytes21).sending.txcWaits).txAnswers [.ok]))
        (fun t => (t.ring.head, t.obs.wire)) =
      some (2, [0x13, 0x14, 0x20, 0x21, 0x22, 0x23, 0x24]) := by decide
theorem test_xp_rx_EV01 :
    look (step ((start.receivingInto 5 0 0x400).turns [.rxArrive 0x61]))
        (fun t => (Memory.read t.mem 0x400, t.xp.rxArmed, t.arb.pendRxc)) =
      some (0x61, none, true) := by decide
theorem test_xp_txspur_EV22 :
    look (step (start.turns [.txSpurious])) (fun t => (t.arb.pendTxc, t.xp.txActive)) =
      some (true, false) := by decide
/-- R188, in the reading that keeps it: in the set-up window no completion event can exist. -/
theorem test_xp_txspur_set_up_R188 :
    look (step (start.quietSetUp.turns [.txSpurious])) (fun t => t.arb.pendTxc) = some false ∧
      look (step (start.quietSetUp.used.turns [.txSpurious])) (fun t => t.arb.pendTxc) =
        some true := by decide
/-- Every row of the opcode table, placed at reset, runs in the very next step. -/
theorem test_placed_word_runs :
    look (step (State.reset.withFetchWord 8 0x13)) res = some (some (.ok, 0)) ∧
      refusalOf (step (State.reset.withFetchWord 8 0x11)) = some .rxStartWithoutRxInit := by decide

/-! ### Witnesses: for every statement with hypotheses, a state and operands that meet them -/

/-- The invariants but the last, as one check that runs. -/
def checkInv (s : State) : Bool :=
  decide s.cfg.valid && decide (s.ring.wf s.cfg.cap) && decide (Memory.wf s.mem) &&
  decide (Memory.inSpace s.cfg s.mem) && decide (s.drv.receivedCount ≤ s.drv.requestedLength) &&
  decide (s.drv.requestedLength < 2 ^ s.cfg.lenW) &&
  (match s.xp.rxArmed with
    | some a => s.drv.busy && !s.fg.inLine && decide (s.drv.cursor = some a)
    | none => true) &&
  (!s.arb.pendRxc || (s.drv.busy && !s.fg.inLine && decide (s.xp.rxArmed = none) &&
    decide (s.drv.cursor ≠ none))) &&
  (!s.drv.busy || s.fg.inLine || decide (s.xp.rxArmed.isSome ≠ s.arb.pendRxc)) &&
  (!s.fg.inLine || (s.drv.busy && decide (s.xp.rxArmed = none) && !s.arb.pendRxc)) &&
  (!s.arb.pendTxc || s.xp.txActive || s.cfg.spuriousTxc) &&
  (!s.drv.busy || s.fg.inLine || (match s.drv.cursor with
    | some c => decide (s.drv.receivedCount < s.drv.requestedLength ∧ s.drv.receivedCount ≤ c ∧
        c + (s.drv.requestedLength - s.drv.receivedCount) ≤ 2 ^ s.cfg.addrW)
    | none => false)) &&
  (!s.ghost.armed || (!s.drv.busy && !s.fg.inLine && decide (2 ≤ s.drv.requestedLength) &&
    decide (s.drv.receivedCount = 0))) &&
  (s.ghost.xportUsed || (decide (s.xp.rxArmed = none) && !s.arb.pendRxc && !s.xp.txActive &&
    decide (s.cfg.spuriousInSetUp = false → s.arb.pendTxc = false)))

theorem inv_of_check {s : State} (h : checkInv s = true) (hf : s.fgOk) : s.Inv := by
  unfold checkInv at h
  simp only [Bool.and_eq_true, Bool.or_eq_true, Bool.not_eq_true', decide_eq_true_eq] at h
  obtain ⟨⟨⟨⟨⟨⟨⟨⟨⟨⟨⟨⟨⟨h1, h2⟩, h3⟩, h4⟩, h5⟩, h6⟩, h7⟩, h8⟩, h9⟩, h10⟩, h11⟩, h12⟩, h13⟩, h14⟩ := h
  refine ⟨h1, h2, ⟨h3, h4⟩, h5, h6, ?_, ?_, ?_, ?_, ?_, ?_, ?_, ?_, hf⟩
  · intro a ha
    rw [ha] at h7
    simpa [and_assoc] using h7
  · intro hp
    simpa [hp, and_assoc] using h8
  · intro hb hl
    simpa [hb, hl] using h9
  · intro hl
    simpa [hl, and_assoc] using h10
  · intro hp hx
    simpa [hp, hx] using h11
  · intro hb hl
    simp only [hb, hl] at h12
    cases hc : s.drv.cursor with
    | none => simp [hc] at h12
    | some c => exact ⟨c, rfl, by simpa [hc] using h12⟩
  · intro ha
    simpa [ha, and_assoc] using h13
  · intro hu
    simpa [hu, and_assoc] using h14

/-- `CAP = 2`, one-bit addresses, two-bit lengths: the smallest block the spec allows. -/
def smallest : Config :=
  { Config.reference with cap := 2, addrW := 1, lenW := 2 }

theorem test_meets_DecodeOfEncodeIsTheInstruction :
    Config.reference.valid ∧ (Instr.rbWrite 0xFFFF 0xFF).wf .reference = true ∧
      smallest.valid ∧ (Instr.txWriteSync 1 3).wf smallest = true := by decide
theorem test_meets_DecodedCommandIsWellFormed :
    Config.reference.valid ∧ dec 0xFFFFFF21 = .instr (.txWriteSync 0xFFFF 0xFF) := by decide
theorem test_bounds_of_IllegalOpcodesAreThoseOutsideTheMap :
    dec 0x09 ≠ .illegal 0x09 ∧ dec 0x0F = .illegal 0x0F ∧ dec 0x10 ≠ .illegal 0x10 ∧
      dec 0x13 ≠ .illegal 0x13 ∧ dec 0x1F = .illegal 0x1F ∧ dec 0x20 ≠ .illegal 0x20 ∧
      dec 0x21 ≠ .illegal 0x21 ∧ dec 0x2F = .illegal 0x2F ∧ dec 0x30 ≠ .illegal 0x30 ∧
      dec 0x31 ≠ .illegal 0x31 := by decide
theorem test_meets_UnusedFieldsHaveNoEffect :
    (fieldOp 0xFF123400 = fieldOp 0 ∧ fieldOp 0 ∈ [0x00, 0x01, 0x02, 0x03, 0x13, 0x30]) ∧
    (fieldOp 0xFF030008 = fieldOp 0x00030008 ∧ fieldOp 0x00030008 ∈ [0x08, 0x09, 0x11] ∧
      fieldA .reference 0xFF030008 = fieldA .reference 0x00030008) ∧
    (fieldOp 0x05FFFF10 = 0x10 ∧ fieldN .reference 0x05FFFF10 = fieldN .reference 0x05000010) ∧
    (fieldOp 0xFE000031 = 0x31 ∧
      fieldN .reference 0xFE000031 % 2 = fieldN .reference 0x00000031 % 2) := by decide
theorem test_meets_StepRunsTheDecodedInstruction :
    (start.program [.cmd 0x05010004]).turn = .fg ∧ start.fg = .idle ∧
      decodeCmd start.cfg 0x05010004 = .instr (.rbWrite 0x100 5) ∧
      (start.turns [.evRxc]).turn = .evRxc ∧ (start.turns [.evTxc]).turn = .evTxc := by decide
theorem test_meets_PlacedWordRunsNext :
    (8 ≤ 32 ∧ 0x05010004 < 2 ^ 32) ∧
      decodeCmd start.cfg 0x05010004 = .instr (.rbWrite 0x100 5) := by decide
theorem test_meets_IllegalOpcodeChangesNothing :
    (start.program [.cmd 0x0A]).turn = .fg ∧ (start.program [.cmd 0x0A]).fg = .idle ∧
      (start.program [.cmd 0x0A]).env.prog = [.cmd 0x0A] ∧
      decodeCmd start.cfg 0x0A = .illegal (fieldOp 0x0A) := by decide
theorem test_meets_IllegalOpcodeChangesNothing_mark :
    look (step (start.program [.cmd 0x0A])) State.runRefused = some true ∧
      look (step (start.program [.cmd 0x01])) State.runRefused = some false := by decide
theorem test_meets_BlockWaitsForTheNextCommand :
    start.turn = .fg ∧ start.fg = .idle ∧ start.env.prog = [] := by decide

/-- A reception of two bytes at the very top of the address space. -/
def topReception : State := start.receivingInto 2 0 0xFFFE

theorem test_meets_ForegroundStoresOneByte :
    Memory.wf topReception.mem ∧ (topReception.program [.store 0xFFFD 1]).turn = .fg ∧
      topReception.fg = .idle ∧
      (0xFFFD < 2 ^ topReception.cfg.addrW ∧ topReception.onLoan 0xFFFD = false) ∧
      (0xFFFF < 2 ^ topReception.cfg.addrW ∧ topReception.onLoan 0xFFFF = true) ∧
      2 ^ topReception.cfg.addrW ≤ 0x10000 := by decide
theorem test_meets_ResetSatisfiesInvariant :
    smallest.valid ∧ ([1, 2] : List Byte).length = smallest.cap ∧ Memory.wf [(1, 7)] ∧
      Memory.inSpace smallest [(1, 7)] := by decide

theorem test_inv_start : start.Inv := inv_of_check (by decide) trivial
theorem test_inv_armed : (start.armedFor 5).Inv := inv_of_check (by decide) trivial
theorem test_inv_receiving : topReception.Inv := inv_of_check (by decide) trivial

/-- A byte has arrived, a queue waits and the transmit-complete event is pending as well. -/
def bothEvents : State :=
  ((((start.arrived 5 0 0x400 0x61).withRing 3 1 bytes21).sending).txcWaits).txAnswers [.ok, .ok]

theorem test_inv_both_events : bothEvents.Inv := inv_of_check (by decide) trivial

/-- The line read of RL-03 before its first byte, and before its carriage return. -/
def lineStart : State := start.reading 0x600 5 0 .recv [.ok 0x68]
def lineAtCr : State := start.reading 0x600 5 1 .recv [.ok 0x0D]
def lineAtError : State := start.reading 0x600 5 1 .recv [.error]
/-- The line read of RL-01 before the byte that fills it. -/
def lineAtLast : State := start.reading 0x600 1 0 .recv [.ok 0x7A]

theorem test_inv_line :
    lineStart.Inv ∧ lineAtCr.Inv ∧ lineAtError.Inv ∧ lineAtLast.Inv :=
  ⟨inv_of_check (by decide) ⟨by decide, by decide⟩, inv_of_check (by decide) ⟨by decide, by decide⟩,
    inv_of_check (by decide) ⟨by decide, by decide⟩, inv_of_check (by decide) ⟨by decide, by decide⟩⟩

/-- The last step of a line read, without and with its carriage return. -/
def lineFull : State := start.reading 0x100 3 3 (.finish false) []
def lineCr : State :=
  (({ start with mem := [(0x600, 0x68), (0x601, 0x0D)] } : State)).reading 0x600 5 1 (.finish true) []

theorem test_inv_line_finish : lineFull.Inv ∧ lineCr.Inv :=
  ⟨inv_of_check (by decide) ⟨by decide, by decide, by decide⟩,
    inv_of_check (by decide) ⟨by decide, by decide, by decide, by decide⟩⟩

/-- In the split reading, the enqueue of an echo is the next step. -/
def echoWaits : State :=
  { start.splitting.sending.reading 0x600 5 0 .recv [] with fg := .enqueue [0x68] (.echo 0x600 5) }

theorem test_inv_enqueue : echoWaits.Inv :=
  inv_of_check (by decide) ⟨by decide, by decide, by decide, by decide⟩

theorem test_meets_StepKeepsInvariant :
    (bothEvents.turns [.evRxc]).Inv ∧ ∃ t, step (bothEvents.turns [.evRxc]) = .next t :=
  ⟨inv_of_check (by decide) trivial, _, rfl⟩
theorem test_meets_OnlyTheCallerIsRefused :
    ((topReception.program [.store 0xFFFE 1]).Inv) ∧
      step (topReception.program [.store 0xFFFE 1]) = .refused .loanedByteWritten :=
  ⟨inv_of_check (by decide) trivial, by rfl⟩
theorem test_meets_StepKeepsConfiguration : ∃ t, step (bothEvents.turns [.evTxc]) = .next t :=
  ⟨_, rfl⟩
theorem test_meets_ObservationsOnlyGrow : ∃ t, step (bothEvents.turns [.evTxc]) = .next t := ⟨_, rfl⟩
theorem test_meets_MemoryReadsWhatWasWritten : Memory.wf someBytes := by decide
/-- CS-05: a section inside a section. -/
theorem test_meets_NestedSectionsRestoreIe : ∃ passed t, Bracketed start passed t :=
  ⟨_, _, .nested 1 rfl rfl (.nested 0 rfl rfl (.done _) rfl (.done _)) rfl (.done _)⟩
/-- A section with a section and a turn of the transport inside it. -/
theorem test_meets_NestedSectionsRestoreIe_within :
    ∃ t within u v, exec .csEnter (start.turns [.txDone]) = .next t ∧
      t.ports.res = some { status := .ok, value := 1 } ∧ Bracketed t within u ∧
      exec (.csExit (bitZero 1)) u = .next v ∧ within.length = 3 :=
  ⟨_, _, _, _, rfl, rfl,
    .turn (.inl nofun) rfl (.nested 0 rfl rfl (.done _) rfl (.done _)), rfl, rfl⟩
theorem test_meets_OnlyCriticalSectionCommandsChangeIe :
    ∃ t, step (start.program [.cmd 0x30]) = .next t ∧ t.arb.ie ≠ (start.program [.cmd 0x30]).arb.ie :=
  ⟨_, rfl, by decide⟩
theorem test_meets_PendingBitFallsOnlyAtDelivery :
    (∃ t, step (bothEvents.turns [.evRxc]) = .next t ∧
      bothEvents.arb.pendRxc = true ∧ t.arb.pendRxc = false) ∧
    (∃ t, step (bothEvents.turns [.evTxc]) = .next t ∧
      bothEvents.arb.pendTxc = true ∧ t.arb.pendTxc = false) :=
  ⟨⟨_, rfl, by decide, by decide⟩, ⟨_, rfl, by decide, by decide⟩⟩
theorem test_meets_UndeliverableEventWaits :
    start.arb.pendRxc = false ∧ bothEvents.masked.arb.ie = false ∧ start.arb.pendTxc = false := by
  decide
/-- In the set-up window, a spurious event that waits, in the reading of R143. -/
theorem test_meets_UndeliverableEventWaits_spurious :
    start.txcWaits.Inv ∧ start.txcWaits.ghost.xportUsed = false ∧
      start.txcWaits.arb.pendTxc = true :=
  ⟨inv_of_check (by decide) trivial, by decide, by decide⟩
/-- The window, closed by `RX_START` and by the byte step of a line read; and a state outside it. -/
theorem test_meets_UndeliverableEventWaits_setUp :
    let s := (start.quietSetUp.armedFor 5).program [.cmd 0x00040011]
    let r := start.quietSetUp.reading 0x600 3 0 .recv [.error]
    (s.Inv ∧ s.ghost.xportUsed = false ∧ s.cfg.spuriousInSetUp = false ∧
      look (step s) (fun t => t.ghost.xportUsed) = some true) ∧
    (r.Inv ∧ r.ghost.xportUsed = false ∧ look (step r) (fun t => t.ghost.xportUsed) = some true) ∧
    look (step start.used) (fun t => t.ghost.xportUsed) = some true :=
  ⟨⟨inv_of_check (by decide) trivial, by decide, by decide, by decide⟩,
    ⟨inv_of_check (by decide) ⟨by decide, by decide⟩, by decide, by decide⟩, by decide⟩
theorem test_meets_EventLeavesForegroundAsItWas :
    (∃ t, exec .evRxc bothEvents = .next t) ∧ ∃ t, exec .evTxc bothEvents = .next t :=
  ⟨⟨_, rfl⟩, ⟨_, rfl⟩⟩
theorem test_meets_EventOrdersAgree :
    bothEvents.Inv ∧ bothEvents.arb.ie = true ∧ bothEvents.arb.pendRxc = true ∧
      bothEvents.arb.pendTxc = true ∧ bothEvents.nextTx = .ok ∧
      1 ≤ bothEvents.ring.free bothEvents.cfg.cap :=
  ⟨test_inv_both_events, by decide, by decide, by decide, by decide, by decide⟩
theorem test_meets_StoredAndFreeSumToCapacity :
    2 ≤ 8 ∧ Ring.wf 8 { storage := bytes21, head := 3, tail := 2 } ∧
      Ring.wf 2 { storage := [1, 2], head := 1, tail := 1 } := by decide
theorem test_meets_RbInitEmptiesTheBuffer :
    start.masked.arb.ie = false ∧ start.ghost.xportUsed = false ∧
      (start.used.arb.ie = true ∧ start.used.ghost.xportUsed = true) := by decide
theorem test_meets_EmptyAndFullQueriesAnswer :
    2 ≤ start.cfg.cap ∧ (start.withRing 7 7 bytes21).ring.wf start.cfg.cap ∧
      (start.withRing 3 2 bytes21).ring.wf start.cfg.cap ∧ (2 + 1) % start.cfg.cap = 3 := by decide
theorem test_meets_FreeSpaceQueryAnswers :
    (start.withRing 7 7 bytes21).ring.wf start.cfg.cap ∧
      (start.withRing 3 2 bytes21).ring.wf start.cfg.cap ∧ (2 + 1) % start.cfg.cap = 3 := by decide

/-- The ring of RB-16, with exclusivity. -/
def ring16 : State := (start.withRing 3 5 bytes21).masked

theorem test_meets_WritesAppendOrFail :
    ring16.ring.wf ring16.cfg.cap ∧ 0x110 + 5 ≤ 2 ^ ring16.cfg.addrW ∧ ring16.excl = true ∧
      5 ≤ ring16.ring.free ring16.cfg.cap ∧ ring16.ring.free ring16.cfg.cap < 6 := by decide
theorem test_meets_ReadsDeliverOrFail :
    ring16.ring.wf ring16.cfg.cap ∧ Memory.wf ring16.mem ∧ 0xFFFE + 2 ≤ 2 ^ ring16.cfg.addrW ∧
      ring16.spanOnLoan 0xFFFE 2 = false ∧ ring16.excl = true ∧
      2 ≤ ring16.ring.stored ring16.cfg.cap ∧ ring16.ring.stored ring16.cfg.cap < 3 := by decide
theorem test_meets_ReadsDeliverOrFail_loan (x : Nat) : ring16.onLoan x = false := rfl
/-- A read that fails on a loaned span: the empty buffer of a pending reception. -/
theorem test_meets_ReadsDeliverOrFail_fails :
    topReception.ring.wf topReception.cfg.cap ∧ Memory.wf topReception.mem ∧
      0xFFFE + 2 ≤ 2 ^ topReception.cfg.addrW ∧ topReception.onLoan 0xFFFE = true ∧
      topReception.ring.stored topReception.cfg.cap < 2 ∧
      look (exec (.rbRead 0xFFFE 2) topReception) res = some (some (.errEmpty, 0)) := by decide
theorem test_meets_FlushesDeliverEverything :
    ring16.ring.wf ring16.cfg.cap ∧ Memory.wf ring16.mem ∧
      0xFFF9 + (ring16.cfg.cap - 1) ≤ 2 ^ ring16.cfg.addrW ∧ ring16.excl = true := by decide
theorem test_meets_LinearVariantsAgreeWithSafeOnes :
    ring16.ring.wf ring16.cfg.cap ∧ ring16.excl = true := by decide
theorem test_meets_RingBufferIsBoundedFifo :
    ring16.ring.wf ring16.cfg.cap ∧ Memory.wf ring16.mem ∧
      (nextOf (exec (.rbWrite 0x110 5) ring16)).isSome = true ∧
      (nextOf (exec (.rbRead 0x200 2) ring16)).isSome = true ∧
      (nextOf (exec (.rbFlush 0x300) ring16)).isSome = true ∧
      (nextOf (exec .rbInit ring16)).isSome = true := by decide
theorem test_meets_WriteThenFlushReturnsTheBytes :
    let s := start.withRing 5 5 bytes21
    s.ring.wf s.cfg.cap ∧ Memory.wf s.mem ∧ s.drv.busy = false ∧ s.ring.head = s.ring.tail ∧
      7 < s.cfg.cap ∧ 0x100 + 7 ≤ 2 ^ s.cfg.addrW ∧ 0xFFF9 + (s.cfg.cap - 1) ≤ 2 ^ s.cfg.addrW := by
  decide
theorem test_meets_LinearVariantsNeedExclusivity :
    start.used.arb.ie = true ∧ start.used.ghost.xportUsed = true ∧
      0xFFFE + 2 ≤ 2 ^ start.used.cfg.addrW ∧
      0xFFF9 + (start.used.cfg.cap - 1) ≤ 2 ^ start.used.cfg.addrW := by decide
theorem test_meets_SpansAndLengthsOutsideTheRulesAreRefused :
    2 ^ start.cfg.addrW < 0xFFFE + 3 ∧ 2 ^ start.cfg.addrW < 0xFFFA + (start.cfg.cap - 1) ∧
      2 ^ (start.armedFor 5).cfg.addrW < 0xFFFC + (start.armedFor 5).drv.requestedLength := by decide
theorem test_meets_LoanedBytesAreNotWrittenByForeground :
    let s := topReception.program [.store 0xFFFD 1]
    s.turn = .fg ∧ s.fg.inLine = false ∧ s.onLoan 0xFFFE = true ∧
      (nextOf (step s)).isSome = true := by decide
theorem test_meets_RxInitDeclaresAReception :
    1 < 2 ∧ topReception.drv.busy = true ∧ start.drv.busy = false := by decide
theorem test_meets_RxStartArmsTheReception :
    (0xFFFB + (start.armedFor 5).drv.requestedLength ≤ 2 ^ start.cfg.addrW ∧
      (start.armedFor 5).drv.busy = false ∧ (start.armedFor 5).ghost.armed = true ∧
      start.xp.rxArmed = none ∧ start.arb.pendRxc = false) ∧
    (start.drv.busy = false ∧ start.ghost.armed = false) ∧ topReception.drv.busy = true := by decide
theorem test_meets_RxReadLineBegins :
    1 ≤ 1 ∧ 0xFFFF + 1 ≤ 2 ^ start.cfg.addrW ∧ topReception.drv.busy = true ∧
      start.drv.busy = false := by decide
theorem test_meets_LineReadTakesOneByte :
    lineStart.Inv ∧ lineStart.turn = .fg ∧ lineStart.fg = .readLine 0x600 5 .recv ∧
      lineStart.nextRx = .ok 0x68 ∧ lineAtCr.nextRx = .ok lineAtCr.cfg.cr ∧
      lineAtError.nextRx = .error ∧ lineAtLast.fg = .readLine 0x600 1 .recv :=
  ⟨test_inv_line.1, by decide, by decide, by decide, by decide, by decide, by decide⟩
theorem test_meets_LineReadEndsWithCarriageReturn :
    (lineFull.Inv ∧ lineFull.turn = .fg ∧ lineFull.fg = .readLine 0x100 3 (.finish false)) ∧
      (lineCr.Inv ∧ lineCr.turn = .fg ∧ lineCr.fg = .readLine 0x600 5 (.finish true)) :=
  ⟨⟨test_inv_line_finish.1, by decide, by decide⟩, ⟨test_inv_line_finish.2, by decide, by decide⟩⟩
/-- The same in the split reading with the transport busy. -/
theorem test_meets_LineReadEndsWithCarriageReturn_split :
    lineFull.splitting.sending.Inv ∧ lineFull.splitting.sending.cfg.txFallbackSplit = true ∧
      lineFull.splitting.sending.txBusy = true :=
  ⟨inv_of_check (by decide) ⟨by decide, by decide, by decide⟩, by decide, by decide⟩
theorem test_meets_DrvStatusPacksTheRegisters : (start.armedFor 255).Inv :=
  inv_of_check (by decide) trivial
theorem test_meets_ReceptionStateMachine :
    (start.Inv ∧ start.rxState = .idle) ∧
      ((start.armedFor 5).Inv ∧ (start.armedFor 5).rxState = .armed) ∧
      (topReception.Inv ∧ topReception.rxState = .receiving) ∧
      (lineFull.Inv ∧ lineFull.rxState = .blockingRead) :=
  ⟨⟨test_inv_start, by decide⟩, ⟨test_inv_armed, by decide⟩, ⟨test_inv_receiving, by decide⟩,
    ⟨test_inv_line_finish.1, by decide⟩⟩
theorem test_meets_ReceptionStateMachine_steps :
    (nextOf (step start)).isSome = true ∧ (nextOf (step (start.armedFor 5))).isSome = true ∧
      (nextOf (step topReception)).isSome = true ∧ (nextOf (step lineFull)).isSome = true := by decide
theorem test_meets_OnlyTheForegroundSetsBusy :
    (start.turns [.txDone]).turn ≠ .fg ∧ start.drv.busy = false ∧
      (nextOf (step (start.turns [.txDone]))).isSome = true := by decide

/-- The last byte of a reception of two has arrived, at the top of the address space. -/
def lastByte : State := start.arrived 2 1 0xFFFF 0x79

theorem test_inv_last_byte : lastByte.Inv := inv_of_check (by decide) trivial
theorem test_meets_NotificationExactlyAtEndOfReception :
    (lastByte.turns [.evRxc]).Inv ∧ (nextOf (step (lastByte.turns [.evRxc]))).isSome = true :=
  ⟨inv_of_check (by decide) trivial, by decide⟩
theorem test_meets_TransmitIsAcceptedByAFreeTransport :
    start.fg = .idle ∧ 0xFFFF + 1 ≤ 2 ^ start.cfg.addrW ∧ start.xp.txActive = false ∧
      start.arb.pendTxc = false := by decide
theorem test_meets_TransmitIsQueuedWholeOrFails :
    let s := start.sending
    s.fg = .idle ∧ s.ring.wf s.cfg.cap ∧ s.cfg.txFallbackSplit = false ∧
      0x500 + 8 ≤ 2 ^ s.cfg.addrW ∧ s.xp.txActive = true ∧ start.txcWaits.arb.pendTxc = true ∧
      7 ≤ s.ring.free s.cfg.cap ∧ s.ring.free s.cfg.cap < 8 := by decide
theorem test_meets_SplitTransmitTakesTwoSteps :
    let s := start.splitting.sending
    (s.cfg.txFallbackSplit = true ∧ 0xFFFF + 1 ≤ 2 ^ s.cfg.addrW ∧ s.xp.txActive = true) ∧
      (echoWaits.ring.wf echoWaits.cfg.cap ∧ echoWaits.turn = .fg ∧
        echoWaits.fg = .enqueue [0x68] (.echo 0x600 5) ∧ 1 ≤ echoWaits.ring.free echoWaits.cfg.cap ∧
        (echoWaits.withRing 3 2 bytes21).ring.free echoWaits.cfg.cap < 1) := by decide
theorem test_meets_SplitTransmitTakesTwoSteps_echo :
    let s := lineStart.splitting.sending
    s.Inv ∧ s.cfg.txFallbackSplit = true ∧ s.turn = .fg ∧ s.fg = .readLine 0x600 5 .recv ∧
      s.nextRx = .ok 0x68 ∧ 0x68 ≠ s.cfg.cr ∧ s.xp.txActive = true :=
  ⟨inv_of_check (by decide) ⟨by decide, by decide⟩, by decide, by decide, by decide, by decide,
    by decide, by decide⟩
theorem test_meets_TransmitAppendsToTheOutputStream :
    (start.withRing 3 2 bytes21).sending.ring.wf start.cfg.cap ∧
      (start.withRing 3 2 bytes21).sending.queueCovered ∧
      (transmit [1] (start.withRing 3 2 bytes21).sending).1 = .errFull ∧
      (transmit [1] start.sending).1 = .ok := ⟨by decide, fun _ => by decide, by decide, by decide⟩
theorem test_meets_OutputStreamOnlyExtends :
    let s := bothEvents.turns [.evTxc]
    s.Inv ∧ s.queueCovered ∧ s.cfg.txFallbackSplit = false ∧ s.issuesRingCommand = false ∧
      s.nextTx = .ok ∧ (nextOf (step s)).isSome = true :=
  ⟨inv_of_check (by decide) trivial, fun _ => by decide, by decide, by decide, by decide, by decide⟩
theorem test_meets_ReceiveHandlerEchoesAndRearms :
    (bothEvents.Inv ∧ bothEvents.arb.ie = true ∧ bothEvents.arb.pendRxc = true ∧
      bothEvents.drv.cursor = some 0x400 ∧ Memory.read bothEvents.mem 0x400 ≠ bothEvents.cfg.cr ∧
      bothEvents.drv.receivedCount + 1 < bothEvents.drv.requestedLength) ∧
    (lastByte.Inv ∧ lastByte.arb.ie = true ∧ lastByte.arb.pendRxc = true ∧
      lastByte.drv.cursor = some 0xFFFF ∧ Memory.read lastByte.mem 0xFFFF ≠ lastByte.cfg.cr ∧
      lastByte.drv.receivedCount + 1 = lastByte.drv.requestedLength) :=
  ⟨⟨test_inv_both_events, by decide, by decide, by decide, by decide, by decide⟩,
    ⟨test_inv_last_byte, by decide, by decide, by decide, by decide, by decide⟩⟩
theorem test_meets_ReceiveHandlerEndsLineOnCarriageReturn :
    let s := start.arrived 5 3 0x403 0x0D
    s.Inv ∧ s.arb.ie = true ∧ s.arb.pendRxc = true ∧ s.drv.cursor = some 0x403 ∧
      Memory.read s.mem 0x403 = s.cfg.cr :=
  ⟨inv_of_check (by decide) trivial, by decide, by decide, by decide, by decide⟩
theorem test_meets_ReceiveEventWithNoReceptionIsRefused :
    let s := { start with arb := { start.arb with pendRxc := true } }
    s.arb.ie = true ∧ s.arb.pendRxc = true ∧ s.drv.cursor = none ∧ s.drv.busy = false := by decide
theorem test_meets_TransmitHandlerDrainsTheQueue :
    (bothEvents.ring.wf bothEvents.cfg.cap ∧ bothEvents.arb.ie = true ∧
      bothEvents.arb.pendTxc = true ∧ bothEvents.ring.head ≠ bothEvents.ring.tail) ∧
    (start.txcWaits.ring.wf start.cfg.cap ∧ start.txcWaits.arb.pendTxc = true ∧
      start.txcWaits.ring.head = start.txcWaits.ring.tail) := by decide
theorem test_meets_TransportStepsRaiseEvents :
    topReception.xp.rxArmed = some 0xFFFE ∧ start.xp.rxArmed = none ∧
      (start.sending.xp.txActive = true ∧ start.sending.arb.pendTxc = false) ∧
      (start.cfg.spuriousTxc = true ∧ start.xp.txActive = false ∧ start.arb.pendTxc = false ∧
        start.cfg.spuriousInSetUp = true) ∧
      (start.quietSetUp.cfg.spuriousInSetUp = false ∧ start.ghost.xportUsed = false ∧
        start.quietSetUp.used.ghost.xportUsed = true) := by
  decide
theorem test_meets_TransportStepsRaiseEvents_turns :
    (topReception.turns [.rxArrive 0x61]).turn = .rxArrive 0x61 ∧
      (start.sending.turns [.txDone]).turn = .txDone ∧
      (start.turns [.txSpurious]).turn = .txSpurious := by decide
theorem test_meets_FailingCommandChangesNothing :
    let s := (start.withRing 3 2 bytes21).sending
    s.fg = .idle ∧ s.ports.res = none ∧ s.cfg.txFallbackSplit = false ∧
      look (exec (.txWriteSync 0x500 1) s) res = some (some (.errFull, 0x1FFFF)) ∧
      Status.errFull.failed = true := by decide
theorem test_meets_ResultValueFitsThePort :
    let s := topReception.program [.cmd 0x03060012]
    s.Inv ∧ look (step s) res = some (some (.errBusy, 0x1FFFF)) :=
  ⟨inv_of_check (by decide) trivial, by decide⟩

end Sys2Proof.Tests
end

/-! SUPPORT. The counts and predicates of the ring buffer (40_ring_buffer.md R90) and the three queries
that answer them (R95 to R97). -/

namespace Sys2Proof.Machine

variable {cap : Nat} {r : Ring}

/-! ### The closed forms over the integers, and the sum -/

theorem Ring.wf_cap_ne_zero (h : r.wf cap) : (cap : Int) ≠ 0 := by
  obtain ⟨-, hh, -⟩ := h
  omega

theorem Ring.intCast_stored (h : r.wf cap) :
    (r.stored cap : Int) = ((r.tail : Int) - r.head) % cap :=
  Int.toNat_of_nonneg (Int.emod_nonneg _ (Ring.wf_cap_ne_zero h))

theorem Ring.intCast_free (h : r.wf cap) :
    (r.free cap : Int) = ((r.head : Int) - r.tail - 1) % cap :=
  Int.toNat_of_nonneg (Int.emod_nonneg _ (Ring.wf_cap_ne_zero h))

theorem Ring.stored_add_free (h : r.wf cap) : r.stored cap + r.free cap = cap - 1 := by
  have hlt := Ring.stored_lt h
  rw [Ring.free_eq_sub_stored h]
  omega

/-! ### Empty and full, by the indices and by the counts -/

theorem Ring.isEmpty_iff : r.isEmpty = true ↔ r.head = r.tail := beq_iff_eq

theorem Ring.isFull_iff : r.isFull cap = true ↔ (r.tail + 1) % cap = r.head := beq_iff_eq

theorem Ring.head_eq_tail_iff_stored (h : r.wf cap) : r.head = r.tail ↔ r.stored cap = 0 := by
  rw [← Ring.isEmpty_iff, Ring.isEmpty_eq_decide h, decide_eq_true_eq]

/-- The full test of the indices (R90), with the advance of `tail` split at the end of the array. -/
theorem Ring.succ_tail_eq_head_iff_free (h : r.wf cap) :
    (r.tail + 1) % cap = r.head ↔ r.free cap = 0 := by
  rw [Ring.free_eq h, succ_mod_eq_ite h.2.2]
  obtain ⟨-, hh, ht⟩ := h
  split <;> split <;> omega

theorem Ring.free_eq_zero_iff_stored (h : r.wf cap) :
    r.free cap = 0 ↔ r.stored cap = cap - 1 := by
  have hsum := Ring.stored_add_free h
  omega

/-- One of `CAP >= 2` slots is always left unused, so the buffer is not empty and full at once. -/
theorem Ring.not_empty_and_full (hcap : 2 ≤ cap) (h : r.wf cap) :
    ¬ (r.head = r.tail ∧ (r.tail + 1) % cap = r.head) := by
  rintro ⟨he, hf⟩
  have hsum := Ring.stored_add_free h
  rw [(Ring.head_eq_tail_iff_stored h).1 he, (Ring.succ_tail_eq_head_iff_free h).1 hf] at hsum
  omega

/-- Settles O27: the closed forms, the case split and the sum are facts of the two counts; the predicates
are read off the indices and put in terms of the counts. -/
theorem storedAndFreeSumToCapacity : Obligations.StoredAndFreeSumToCapacity := by
  intro cap r hcap h
  rw [Ring.isEmpty_iff, Ring.isFull_iff]
  exact ⟨Ring.intCast_stored h, Ring.intCast_free h, Ring.stored_add_free h, Ring.free_eq h, Iff.rfl,
    Ring.head_eq_tail_iff_stored h, Iff.rfl, Ring.succ_tail_eq_head_iff_free h,
    Ring.not_empty_and_full hcap h⟩

/-! ### The three queries -/

theorem Ring.toNat_isEmpty : r.isEmpty.toNat = if r.head = r.tail then 1 else 0 := by
  simp only [Bool.toNat, Bool.cond_eq_ite, Ring.isEmpty_iff]

theorem Ring.toNat_isFull :
    (r.isFull cap).toNat = if (r.tail + 1) % cap = r.head then 1 else 0 := by
  simp only [Bool.toNat, Bool.cond_eq_ite, Ring.isFull_iff]

theorem exec_rbIsEmpty (s : State) :
    exec .rbIsEmpty s = .next (s.present .ok (if s.ring.head = s.ring.tail then 1 else 0)) := by
  rw [← Ring.toNat_isEmpty]
  rfl

theorem exec_rbIsFull (s : State) :
    exec .rbIsFull s = .next (s.present .ok
      (if (s.ring.tail + 1) % s.cfg.cap = s.ring.head then 1 else 0)) := by
  rw [← Ring.toNat_isFull]
  rfl

theorem exec_rbFreeSpace (s : State) :
    exec .rbFreeSpace s = .next (s.present .ok (s.ring.free s.cfg.cap)) := rfl

/-- Settles O29: the answers are the predicates on the indices, which the counts decide. -/
theorem emptyAndFullQueriesAnswer : Obligations.EmptyAndFullQueriesAnswer := fun s =>
  ⟨exec_rbIsEmpty s, exec_rbIsFull s, fun hcap h =>
    ⟨Ring.head_eq_tail_iff_stored h,
      (Ring.succ_tail_eq_head_iff_free h).trans (Ring.free_eq_zero_iff_stored h),
      Ring.not_empty_and_full hcap h⟩⟩

/-- Settles O30: the answer is `Free`, whose sum with `Stored` gives the two corner cases. -/
theorem freeSpaceQueryAnswers : Obligations.FreeSpaceQueryAnswers := by
  intro s h
  have hsum := Ring.stored_add_free h
  refine ⟨exec_rbFreeSpace s, (Nat.add_comm _ _).trans hsum, fun he => ?_,
    (Ring.succ_tail_eq_head_iff_free h).1⟩
  rw [(Ring.head_eq_tail_iff_stored h).1 he, Nat.zero_add] at hsum
  exact hsum

end Sys2Proof.Machine

/-! SUPPORT. The interrupt-enable state over one step (44_critical_section.md R155, R156, R158): what each
turn of each agent does with `ie`. -/

namespace Sys2Proof.Machine

variable {s t : State}

/-! ### The transport's steps and the steps of a command in progress -/

theorem xpRxArrive_ie (b : Byte) (s : State) : (xpRxArrive b s).arb.ie = s.arb.ie := by
  obtain ⟨-, e⟩ | ⟨c, -, e⟩ := xpRxArrive_cases b s <;> rw [e]

theorem xpTxDone_ie (s : State) : (xpTxDone s).arb.ie = s.arb.ie := by
  obtain e | ⟨-, -, e⟩ := xpTxDone_cases s <;> rw [e]

theorem xpTxSpurious_ie (s : State) : (xpTxSpurious s).arb.ie = s.arb.ie := by
  obtain ⟨-, e⟩ | ⟨-, -, -, -, e⟩ := xpTxSpurious_cases s <;> rw [e]

theorem fgTransmit_arb (bytes : List Byte) (call : TxCall) (s : State) :
    (fgTransmit bytes call s).arb = s.arb := by
  obtain ⟨-, -, h, -⟩ := fgTransmit_frame bytes call s
  exact h

theorem fgEnqueue_arb (bytes : List Byte) (call : TxCall) (s : State) :
    (fgEnqueue bytes call s).arb = s.arb := by
  obtain ⟨-, -, h, -⟩ := fgEnqueue_frame bytes call s
  exact h

/-- Only the echo of a byte step opens a bracket (41_reception.md R115). -/
theorem rlByte_arb (a n : Nat) (s : State) : (rlByte a n s).arb = s.arb := by
  rw [rlByte_eq]
  cases s.nextRx with
  | error => simp
  | ok b =>
    dsimp only
    split
    · simp
    · rw [fgTransmit_arb]
      simp

/-- Only the line end opens a bracket in the last step (41_reception.md R116). -/
theorem rlFinish_arb (a n : Nat) (sawCR : Bool) (s : State) :
    (rlFinish a n sawCR s).arb = s.arb := by
  unfold rlFinish
  rw [fgTransmit_arb]
  cases sawCR <;> rfl

/-! ### The instructions -/

/-- An instruction that goes on keeps `ie`, or it is one of the two commands of the critical section. -/
theorem exec_ie {i : Instr} (h : exec i s = .next t) :
    t.arb.ie = s.arb.ie ∨ i = .csEnter ∨ ∃ b, i = .csExit b := by
  cases i with
  | csEnter => exact .inr (.inl rfl)
  | csExit b => exact .inr (.inr ⟨b, rfl⟩)
  | rbInit => obtain ⟨-, rfl⟩ := execRbInit_next h; exact .inl rfl
  | rbIsEmpty => cases h; exact .inl rfl
  | rbIsFull => cases h; exact .inl rfl
  | rbFreeSpace => cases h; exact .inl rfl
  | rbWrite => obtain ⟨-, ⟨-, rfl⟩ | ⟨-, rfl⟩⟩ := execRbWrite_next h <;> exact .inl rfl
  | rbRead => obtain ⟨-, ⟨-, rfl⟩ | ⟨-, -, rfl⟩⟩ := execRbRead_next h <;> exact .inl rfl
  | rbWriteLin => obtain ⟨-, -, ⟨-, rfl⟩ | ⟨-, rfl⟩⟩ := execRbWriteLin_next h <;> exact .inl rfl
  | rbReadLin => obtain ⟨-, -, ⟨-, rfl⟩ | ⟨-, -, rfl⟩⟩ := execRbReadLin_next h <;> exact .inl rfl
  | rbFlush => obtain ⟨-, -, rfl⟩ := execRbFlush_next h; exact .inl rfl
  | rbFlushLin => obtain ⟨-, -, -, rfl⟩ := execRbFlushLin_next h; exact .inl rfl
  | rxInit => obtain ⟨-, rfl⟩ | ⟨-, -, rfl⟩ | ⟨-, -, rfl⟩ := execRxInit_next h <;> exact .inl rfl
  | rxStart => obtain ⟨-, ⟨-, rfl⟩ | ⟨-, -, -, -, rfl⟩⟩ := execRxStart_next h <;> exact .inl rfl
  | rxReadLine => obtain ⟨-, -, ⟨-, rfl⟩ | ⟨-, rfl⟩⟩ := execRxReadLine_next h <;> exact .inl rfl
  | drvStatus => cases h; exact .inl rfl
  | txTransmit =>
    obtain ⟨-, -, rfl⟩ := sendSpan_next h
    exact .inl (congrArg Arbiter.ie (fgTransmit_arb _ _ _))
  | txWriteSync =>
    obtain ⟨-, -, rfl⟩ := sendSpan_next h
    exact .inl (congrArg Arbiter.ie (fgTransmit_arb _ _ _))
  | evRxc => obtain ⟨-, -, hie, -⟩ := execEvRxc_frame h; exact .inl hie
  | evTxc => obtain ⟨-, -, hie, -⟩ := execEvTxc_frame h; exact .inl hie

/-! ### The turns -/

/-- A turn of the foreground keeps `ie`, or it issues a command of the critical section. -/
theorem fgTurn_ie (h : fgTurn s.beginStep = .next t) :
    t.arb.ie = s.arb.ie ∨
    (s.fg = .idle ∧ ∃ w rest, s.env.prog = .cmd w :: rest ∧
      (decodeCmd s.cfg w = .instr .csEnter ∨ ∃ b, decodeCmd s.cfg w = .instr (.csExit b))) := by
  obtain ⟨-, -, rfl⟩ | ⟨-, a, b, rest, -, -, -, rfl⟩ | ⟨-, w, rest, -, -, rfl⟩ |
    ⟨hidle, w, rest, i, hprog, hdec, hexec⟩ | ⟨a, n, -, rfl⟩ | ⟨a, n, sawCR, -, rfl⟩ |
    ⟨bytes, call, -, rfl⟩ := fgTurn_next h
  · exact .inl rfl
  · exact .inl rfl
  · exact .inl rfl
  · obtain hie | rfl | ⟨b, rfl⟩ := exec_ie hexec
    · exact .inl hie
    · exact .inr ⟨hidle, w, rest, hprog, .inl hdec⟩
    · exact .inr ⟨hidle, w, rest, hprog, .inr ⟨b, hdec⟩⟩
  · exact .inl (congrArg Arbiter.ie (rlByte_arb a n s.beginStep))
  · exact .inl (congrArg Arbiter.ie (rlFinish_arb a n sawCR s.beginStep))
  · exact .inl (congrArg Arbiter.ie (fgEnqueue_arb bytes call s.beginStep))

/-- Settles O22: of the turns of the three agents only the foreground's can change `ie`, and in it only
the two commands. -/
theorem onlyCriticalSectionCommandsChangeIe : Obligations.OnlyCriticalSectionCommandsChangeIe := by
  intro s t hstep hne
  obtain ⟨hturn, h⟩ | ⟨b, -, rfl⟩ | ⟨-, rfl⟩ | ⟨-, rfl⟩ | ⟨-, h⟩ | ⟨-, h⟩ := step_next hstep
  · exact ⟨hturn, (fgTurn_ie h).resolve_left hne⟩
  · exact absurd (xpRxArrive_ie b s.beginStep) hne
  · exact absurd (xpTxDone_ie s.beginStep) hne
  · exact absurd (xpTxSpurious_ie s.beginStep) hne
  · obtain ⟨-, -, hie, -⟩ := execEvRxc_frame h
    exact absurd hie hne
  · obtain ⟨-, -, hie, -⟩ := execEvTxc_frame h
    exact absurd hie hne

end Sys2Proof.Machine

/-! SUPPORT. Decoding and encoding: the opcode of each command, both round trips, the illegal
opcodes and the ignored fields (30_encoding.md R71, R72, R77, R78). -/

namespace Sys2Proof

/-! ### The opcode map, forwards and backwards -/

/-- The opcode of a command (30_encoding.md R72); the events have none. -/
def Instr.opcode : Instr → Option Nat
  | .rbInit => some 0x00
  | .rbIsEmpty => some 0x01
  | .rbIsFull => some 0x02
  | .rbFreeSpace => some 0x03
  | .rbWrite _ _ => some 0x04
  | .rbRead _ _ => some 0x05
  | .rbWriteLin _ _ => some 0x06
  | .rbReadLin _ _ => some 0x07
  | .rbFlush _ => some 0x08
  | .rbFlushLin _ => some 0x09
  | .rxInit _ => some 0x10
  | .rxStart _ => some 0x11
  | .rxReadLine _ _ => some 0x12
  | .drvStatus => some 0x13
  | .txTransmit _ _ => some 0x20
  | .txWriteSync _ _ => some 0x21
  | .csEnter => some 0x30
  | .csExit _ => some 0x31
  | .evRxc => none
  | .evTxc => none

/-- The ten commands of the ring buffer have the opcodes up to 9 (30_encoding.md R72). -/
def Instr.isRing (i : Instr) : Bool := i.opcode.any fun op => decide (op ≤ 9)

/-- The map gives a command to its own opcode only. -/
theorem opcode_of_commandOf {op a n : Nat} {i : Instr} (h : commandOf op a n = some i) :
    some op = i.opcode := by
  unfold commandOf at h
  split at h <;> cases h <;> rfl

theorem decodeCmd_instr_iff {c : Config} {w : Nat} {i : Instr} :
    decodeCmd c w = .instr i ↔ commandOf (fieldOp w) (fieldA c w) (fieldN c w) = some i := by
  unfold decodeCmd
  split <;> simp_all

/-- A word that decodes to a command carries the command's opcode. -/
theorem fieldOp_of_decodeCmd {c : Config} {w : Nat} {i : Instr} (h : decodeCmd c w = .instr i) :
    some (fieldOp w) = i.opcode :=
  opcode_of_commandOf (decodeCmd_instr_iff.1 h)

theorem isRing_of_decodeCmd {c : Config} {w : Nat} {i : Instr} (h : decodeCmd c w = .instr i) :
    i.isRing = decide (fieldOp w ≤ 9) := by
  rw [Instr.isRing, ← fieldOp_of_decodeCmd h, Option.any_some]

theorem fieldOp_lt (w : Nat) : fieldOp w < 256 := Nat.mod_lt _ (by norm_num)

/-! ### Round trips -/

/-- A word built from an opcode of the map decodes to the map's command (30_encoding.md R71, R72).
-/
theorem decode_cmdWord_of_commandOf (c : Config) {op a n : Nat} {i : Instr} (hop : op < 2 ^ 8)
    (ha : a < 2 ^ c.addrW) (hn : n < 2 ^ c.lenW) (hi : commandOf op a n = some i) :
    decode c (cmdWord c op a n) = .instr i := by
  rw [decode_cmdWord c hop ha hn, hi]

theorem toNat_lt_lenW {c : Config} (hc : c.valid) (b : Bool) : b.toNat < 2 ^ c.lenW := by
  obtain ⟨hcap, -, hlen, -⟩ := hc
  have hb := Bool.toNat_le b
  omega

theorem bitZero_toNat (b : Bool) : bitZero b.toNat = b := by cases b <;> rfl

/-- Settles O1: each instruction's word is read back by the fields it was built from. -/
theorem decodeOfEncodeIsTheInstruction : Obligations.DecodeOfEncodeIsTheInstruction := by
  intro c i hc hwf
  have h0 : ∀ k : Nat, 0 < 2 ^ k := Nat.two_pow_pos
  cases i with
  | rbInit => exact decode_cmdWord_of_commandOf c (by decide) (h0 _) (h0 _) rfl
  | rbIsEmpty => exact decode_cmdWord_of_commandOf c (by decide) (h0 _) (h0 _) rfl
  | rbIsFull => exact decode_cmdWord_of_commandOf c (by decide) (h0 _) (h0 _) rfl
  | rbFreeSpace => exact decode_cmdWord_of_commandOf c (by decide) (h0 _) (h0 _) rfl
  | rbWrite a n =>
    obtain ⟨ha, hn⟩ : a < 2 ^ c.addrW ∧ n < 2 ^ c.lenW := by simpa [Instr.wf] using hwf
    exact decode_cmdWord_of_commandOf c (by decide) ha hn rfl
  | rbRead a n =>
    obtain ⟨ha, hn⟩ : a < 2 ^ c.addrW ∧ n < 2 ^ c.lenW := by simpa [Instr.wf] using hwf
    exact decode_cmdWord_of_commandOf c (by decide) ha hn rfl
  | rbWriteLin a n =>
    obtain ⟨ha, hn⟩ : a < 2 ^ c.addrW ∧ n < 2 ^ c.lenW := by simpa [Instr.wf] using hwf
    exact decode_cmdWord_of_commandOf c (by decide) ha hn rfl
  | rbReadLin a n =>
    obtain ⟨ha, hn⟩ : a < 2 ^ c.addrW ∧ n < 2 ^ c.lenW := by simpa [Instr.wf] using hwf
    exact decode_cmdWord_of_commandOf c (by decide) ha hn rfl
  | rbFlush a =>
    exact decode_cmdWord_of_commandOf c (by decide) (by simpa [Instr.wf] using hwf) (h0 _) rfl
  | rbFlushLin a =>
    exact decode_cmdWord_of_commandOf c (by decide) (by simpa [Instr.wf] using hwf) (h0 _) rfl
  | rxInit n =>
    exact decode_cmdWord_of_commandOf c (by decide) (h0 _) (by simpa [Instr.wf] using hwf) rfl
  | rxStart a =>
    exact decode_cmdWord_of_commandOf c (by decide) (by simpa [Instr.wf] using hwf) (h0 _) rfl
  | rxReadLine a n =>
    obtain ⟨ha, hn⟩ : a < 2 ^ c.addrW ∧ n < 2 ^ c.lenW := by simpa [Instr.wf] using hwf
    exact decode_cmdWord_of_commandOf c (by decide) ha hn rfl
  | drvStatus => exact decode_cmdWord_of_commandOf c (by decide) (h0 _) (h0 _) rfl
  | txTransmit a n =>
    obtain ⟨ha, hn⟩ : a < 2 ^ c.addrW ∧ n < 2 ^ c.lenW := by simpa [Instr.wf] using hwf
    exact decode_cmdWord_of_commandOf c (by decide) ha hn rfl
  | txWriteSync a n =>
    obtain ⟨ha, hn⟩ : a < 2 ^ c.addrW ∧ n < 2 ^ c.lenW := by simpa [Instr.wf] using hwf
    exact decode_cmdWord_of_commandOf c (by decide) ha hn rfl
  | csEnter => exact decode_cmdWord_of_commandOf c (by decide) (h0 _) (h0 _) rfl
  | csExit b =>
    exact decode_cmdWord_of_commandOf c (by decide) (h0 _) (toNat_lt_lenW hc b)
      (congrArg (fun x => some (Instr.csExit x)) (bitZero_toNat b))
  | evRxc => rfl
  | evTxc => rfl

/-- The word of a command stands on the command port (30_encoding.md R70). -/
theorem encode_of_isCommand (c : Config) {i : Instr} (h : i.isCommand = true) :
    ∃ v, encode c i = .cmd v := by
  cases i with
  | evRxc => cases h
  | evTxc => cases h
  | _ => exact ⟨_, rfl⟩

/-- Settles O2: the command read is well formed, so its own word decodes to it again, and both words
carry its opcode. -/
theorem decodedCommandIsWellFormed : Obligations.DecodedCommandIsWellFormed := by
  intro c w i hc hdec
  obtain ⟨hwf, hcmd⟩ := decodeCmd_wf hdec
  obtain ⟨v, hv⟩ := encode_of_isCommand c hcmd
  have hback : decodeCmd c v = .instr i := by
    have := decodeOfEncodeIsTheInstruction c i hc hwf
    rwa [hv] at this
  exact ⟨hwf, hcmd, v, hv,
    Option.some.inj ((fieldOp_of_decodeCmd hback).trans (fieldOp_of_decodeCmd hdec).symm), hback⟩

/-! ### Illegal opcodes and ignored fields -/

theorem decodeCmd_illegal_iff {c : Config} {w : Nat} :
    decodeCmd c w = .illegal (fieldOp w) ↔
      commandOf (fieldOp w) (fieldA c w) (fieldN c w) = none := by
  unfold decodeCmd
  split <;> simp_all

/-- The opcodes the map has no command for (30_encoding.md R78). -/
theorem commandOf_eq_none_iff {op a n : Nat} (hop : op < 256) : commandOf op a n = none ↔
    (0x0A ≤ op ∧ op ≤ 0x0F) ∨ (0x14 ≤ op ∧ op ≤ 0x1F) ∨ (0x22 ≤ op ∧ op ≤ 0x2F) ∨
      (0x32 ≤ op ∧ op ≤ 0xFF) := by
  unfold commandOf
  split <;> simp only [reduceCtorEq, true_iff, false_iff, imp_false] at * <;> omega

/-- Settles O3: the decoder answers `illegal` exactly where the map has no command. -/
theorem illegalOpcodesAreThoseOutsideTheMap : Obligations.IllegalOpcodesAreThoseOutsideTheMap :=
  fun _ w => decodeCmd_illegal_iff.trans (commandOf_eq_none_iff (fieldOp_lt w))

/-- Two words with one opcode decode alike where the map does not tell their operands apart. -/
theorem decodeCmd_congr {c : Config} {v w : Nat} (hop : fieldOp v = fieldOp w)
    (h : commandOf (fieldOp w) (fieldA c v) (fieldN c v) =
      commandOf (fieldOp w) (fieldA c w) (fieldN c w)) : decodeCmd c v = decodeCmd c w := by
  unfold decodeCmd
  rw [hop, h]

/-- Settles O4: each opcode's row of the map reads only the fields its command uses. -/
theorem unusedFieldsHaveNoEffect : Obligations.UnusedFieldsHaveNoEffect := by
  intro c v w hop
  refine ⟨fun hmem => decodeCmd_congr hop ?_, fun hmem ha => decodeCmd_congr hop ?_,
    fun h hn => decodeCmd_congr hop ?_, fun h hn => decodeCmd_congr hop ?_⟩
  · simp only [List.mem_cons, List.not_mem_nil, or_false] at hmem
    rcases hmem with h | h | h | h | h | h <;> rw [h] <;> rfl
  · simp only [List.mem_cons, List.not_mem_nil, or_false] at hmem
    rw [ha]
    rcases hmem with h | h | h <;> rw [h] <;> rfl
  · rw [h, hn]
    rfl
  · rw [h]
    simp only [commandOf, bitZero, hn]

/-- Settles O5, by running the decoder on the words. -/
theorem wordsOfTheSpecDecode : Obligations.WordsOfTheSpecDecode := by
  unfold Obligations.WordsOfTheSpecDecode
  decide

/-- Settles O6, by reading the table. -/
theorem statusCodesHaveTheirNumbers : Obligations.StatusCodesHaveTheirNumbers :=
  ⟨rfl, rfl, rfl, rfl, rfl, rfl, rfl⟩

end Sys2Proof

/-! SUPPORT. The turn of the foreground by what its program holds (00_scope.md R11; 10_state.md
R25), and the placing of a port word (log 13). -/

namespace Sys2Proof.Machine

variable {s t : State}

/-! ### The foreground's turn -/

theorem step_fg (hturn : s.turn = .fg) : step s = fgTurn s.beginStep := by
  unfold step takeTurn
  rw [hturn]

theorem fgTurn_idle (hfg : s.fg = .idle) : fgTurn s = fgIssue s := by
  unfold fgTurn
  rw [hfg]

/-- The next command word of the program is issued. -/
theorem step_command {w : Nat} {rest : List FgOp} (hturn : s.turn = .fg) (hfg : s.fg = .idle)
    (hprog : s.env.prog = .cmd w :: rest) : step s = issue w (s.issued rest) := by
  rw [step_fg hturn, fgTurn_idle (by exact hfg), fgIssue, State.beginStep_env, hprog]
  rfl

/-- The next store of the program is made. -/
theorem step_store {a : Nat} {b : Byte} {rest : List FgOp} (hturn : s.turn = .fg)
    (hfg : s.fg = .idle) (hprog : s.env.prog = .store a b :: rest) :
    step s = fgStore a b (s.issued rest) := by
  rw [step_fg hturn, fgTurn_idle (by exact hfg), fgIssue, State.beginStep_env, hprog]
  rfl

theorem step_wait (hturn : s.turn = .fg) (hfg : s.fg = .idle) (hprog : s.env.prog = []) :
    step s = .next s.beginStep := by
  rw [step_fg hturn, fgTurn_idle (by exact hfg), fgIssue, State.beginStep_env, hprog]

theorem step_readByte {a n : Nat} (hturn : s.turn = .fg) (hfg : s.fg = .readLine a n .recv) :
    step s = .next (rlByte a n s.beginStep) := by
  rw [step_fg hturn, fgTurn, State.beginStep_fg, hfg]

theorem step_finishLine {a n : Nat} {sawCR : Bool} (hturn : s.turn = .fg)
    (hfg : s.fg = .readLine a n (.finish sawCR)) :
    step s = .next (rlFinish a n sawCR s.beginStep) := by
  rw [step_fg hturn, fgTurn, State.beginStep_fg, hfg]

theorem step_enqueue {bytes : List Byte} {call : TxCall} (hturn : s.turn = .fg)
    (hfg : s.fg = .enqueue bytes call) : step s = .next (fgEnqueue bytes call s.beginStep) := by
  rw [step_fg hturn, fgTurn, State.beginStep_fg, hfg]

theorem issue_instr {w : Nat} {i : Instr} (h : decodeCmd s.cfg w = .instr i) :
    issue w s = exec i s := by
  unfold issue
  rw [h]

theorem issue_illegal {w op : Nat} (h : decodeCmd s.cfg w = .illegal op) :
    issue w s = .next (illegalOpcode s) := by
  unfold issue
  rw [h]

/-- Settles O7: the foreground's turn issues its next word, and an event's turn is its delivery. -/
theorem stepRunsTheDecodedInstruction : Obligations.StepRunsTheDecodedInstruction := by
  refine ⟨fun s w rest i hturn hfg hprog hdec => ?_, fun s hturn => ?_, fun s hturn => ?_⟩
  · rw [step_command hturn hfg hprog, issue_instr (by exact hdec)]
    rfl
  · unfold step takeTurn
    rw [hturn]
    rfl
  · unfold step takeTurn
    rw [hturn]
    rfl

/-- A row of at least eight bits is placed on the command port as it is (log 13). -/
theorem tablePortWord_command {nbits w : Nat} (hbits : 8 ≤ nbits) (hw : w < 2 ^ nbits) :
    tablePortWord nbits w = .cmd w := by
  rw [tablePortWord, if_neg (Nat.not_lt.2 hbits), Nat.mod_eq_of_lt hw]

/-- Settles O8: a placed command word is the next entry of the program in the foreground's turn, and
a placed event has its bit set and its turn next. -/
theorem placedWordRunsNext : Obligations.PlacedWordRunsNext := by
  refine ⟨fun s nbits w i hbits hw hdec => ?_, fun s => ?_, fun s => ?_⟩
  · rw [State.withFetchWord, tablePortWord_command hbits hw]
    exact stepRunsTheDecodedInstruction.1 (s.place (.cmd w)) w s.env.prog i rfl rfl rfl hdec
  · refine (stepRunsTheDecodedInstruction.2.1 (s.withFetchWord 1 0b1) rfl).trans ?_
    simp [State.withFetchWord, tablePortWord, State.place, State.raise, lineRxc, lineTxc]
  · refine (stepRunsTheDecodedInstruction.2.2 (s.withFetchWord 2 0b10) rfl).trans ?_
    simp [State.withFetchWord, tablePortWord, State.place, State.raise, lineRxc, lineTxc]

/-- Settles O10: the turn is spent on waiting. -/
theorem blockWaitsForTheNextCommand : Obligations.BlockWaitsForTheNextCommand :=
  fun _ => step_wait

/-! ### The foreground's own store -/

/-- A store runs under the span's precondition and off the loan (20_memory.md R69, R47, R48). -/
theorem fgStore_eq (a : Nat) (b : Byte) (s : State) :
    fgStore a b s =
      if a < 2 ^ s.cfg.addrW then
        if s.onLoan a then .refused .loanedByteWritten else .next (s.writeMem a [b])
      else .refused .spanWraps := by
  have hloan : s.spanOnLoan a 1 = s.onLoan a := Bool.or_false _
  unfold fgStore
  split
  · next ha =>
    rw [withSpan_fits (by omega), withoutLoan, hloan]
  · next ha => exact withSpan_wraps (by omega)

/-- Settles O11: a step that makes a store is `fgStore`, which is decided by the span and the loan.
-/
theorem foregroundStoresOneByte : Obligations.ForegroundStoresOneByte := by
  intro s a b rest hmem hturn hfg hprog
  have hstep := (step_store hturn hfg hprog).trans (fgStore_eq a b (s.issued rest))
  have hloan : (s.issued rest).onLoan a = s.onLoan a := rfl
  rw [show (s.issued rest).cfg = s.cfg from rfl, hloan] at hstep
  refine ⟨fun ha hl => ?_, fun ha hl => ?_, fun ha => ?_⟩
  · rw [if_pos ha, hl] at hstep
    exact ⟨_, hstep, storesAt_writeSpan hmem rfl, rfl⟩
  · rw [hstep, if_pos ha, hl]
    rfl
  · rw [hstep, if_neg (Nat.not_lt.2 ha)]

/-! ### Reset -/

/-- Settles O12, by reading the state after reset. -/
theorem resetValues : Obligations.ResetValues :=
  ⟨fun _ _ _ => ⟨rfl, rfl, rfl, rfl, rfl, rfl, rfl, rfl, rfl, rfl, rfl⟩, rfl⟩

/-- After reset nothing is in progress, so only the configuration, the ring buffer and caller memory
have something to meet. -/
theorem inv_resetWith {c : Config} {storage : List Byte} {m : Memory} (hc : c.valid)
    (hlen : storage.length = c.cap) (hwf : Memory.wf m) (hin : Memory.inSpace c m) :
    (State.resetWith c storage m).Inv := by
  have hcap : 0 < c.cap := Nat.lt_of_lt_of_le (by decide) hc.1
  exact {
    config := hc
    ring := ⟨hlen, hcap, hcap⟩
    mem := ⟨hwf, hin⟩
    count := le_rfl
    length := Nat.two_pow_pos _
    armedInto := fun _ h => nomatch h
    pending := fun h => nomatch h
    receiving := fun h => nomatch h
    inLine := fun h => nomatch h
    spurious := fun h => nomatch h
    loan := fun h => nomatch h
    armed := fun h => nomatch h
    setUp := fun _ => ⟨rfl, rfl, rfl, fun _ => rfl⟩
    fg := trivial }

/-- Settles O13, for every content and so for the content `State.reset` takes. -/
theorem resetSatisfiesInvariant : Obligations.ResetSatisfiesInvariant :=
  ⟨fun _ _ _ => inv_resetWith,
    inv_resetWith (by decide) List.length_replicate ⟨List.Pairwise.nil, fun _ h => nomatch h⟩
      (fun _ h => nomatch h)⟩

/-- Settles O18: the canonical form is kept, and the address read is the one written or another. -/
theorem memoryReadsWhatWasWritten : Obligations.MemoryReadsWhatWasWritten := by
  intro m a x v hm
  refine ⟨Memory.wf_write hm a v, ?_⟩
  split
  · next hx => rw [hx, Memory.read_write_same m hm]
  · next hx => exact Memory.read_write_other m a v x hx

end Sys2Proof.Machine

/-! SUPPORT. All that a turn can do to the state it begins from, as one relation with a named case
for each kind of move: the statements about every step are proved by cases on it. -/

namespace Sys2Proof.Machine

variable {s t : State}

/-! ### The ring-buffer commands -/

/-- The value fits the result port (30_encoding.md R75). -/
abbrev valueFits (c : Config) (v : Nat) : Prop := v < 2 ^ (2 * c.lenW + 1)

/-- What any of the ten ring-buffer commands can do (40_ring_buffer.md): to the ring buffer, to
caller memory off the loan and to the result port; where it fails, to the result port only. -/
structure RingEffect (s t : State) : Prop where
  beside : sameBesideRing s t
  ring : s.ring.wf s.cfg.cap → t.ring.wf s.cfg.cap
  mem : t.mem = s.mem ∨ ∃ a v, a + v.length ≤ 2 ^ s.cfg.addrW ∧
    s.spanOnLoan a v.length = false ∧ t.mem = Memory.writeSpan s.mem a v
  result : ∃ st v, presents s t st v ∧ (s.Inv → valueFits s.cfg v) ∧
    (st.failed = true → t.ring = s.ring ∧ t.mem = s.mem)

theorem valueFits_of_lt_lenW {c : Config} {v : Nat} (h : v < 2 ^ c.lenW) : valueFits c v :=
  lt_of_lt_of_le h (Nat.pow_le_pow_right (by decide) (by omega))

theorem valueFits_of_le_one {c : Config} {v : Nat} (h : v ≤ 1) : valueFits c v := by
  have : 2 ^ 1 ≤ 2 ^ (2 * c.lenW + 1) := Nat.pow_le_pow_right (by decide) (by omega)
  unfold valueFits
  omega

theorem valueFits_zero (c : Config) : valueFits c 0 := valueFits_of_le_one (Nat.zero_le 1)

theorem valueFits_minusOne (c : Config) : valueFits c (minusOne c) :=
  Nat.sub_lt (Nat.two_pow_pos _) Nat.one_pos

/-- A count of bytes in the ring buffer fits a length operand (00_scope.md R6: `2 ^ LEN_W > CAP`).
-/
theorem valueFits_of_lt_cap (h : s.Inv) {v : Nat} (hv : v < s.cfg.cap) : valueFits s.cfg v := by
  obtain ⟨-, -, hcap, -⟩ := h.config
  exact valueFits_of_lt_lenW (hv.trans hcap)

/-- A command that only presents a result. -/
theorem RingEffect.present (st : Status) (v : Nat) (hv : s.Inv → valueFits s.cfg v) :
    RingEffect s (s.present st v) where
  beside := ⟨rfl, rfl, rfl, rfl, rfl, rfl, rfl, rfl, rfl⟩
  ring := id
  mem := .inl rfl
  result := ⟨st, v, rfl, hv, fun _ => ⟨rfl, rfl⟩⟩

/-- A command that succeeds on the ring buffer alone. -/
theorem RingEffect.setRing {r : Ring} (hr : s.ring.wf s.cfg.cap → r.wf s.cfg.cap) :
    RingEffect s ({ s with ring := r }.present .ok 0) where
  beside := ⟨rfl, rfl, rfl, rfl, rfl, rfl, rfl, rfl, rfl⟩
  ring := hr
  mem := .inl rfl
  result := ⟨.ok, 0, rfl, fun _ => valueFits_zero _, fun h => nomatch h⟩

/-- A command that succeeds in delivering bytes to caller memory. -/
theorem RingEffect.deliver {r : Ring} {a : Nat} {bytes : List Byte} {v : Nat}
    (hr : s.ring.wf s.cfg.cap → r.wf s.cfg.cap) (hfits : a + bytes.length ≤ 2 ^ s.cfg.addrW)
    (hloan : s.spanOnLoan a bytes.length = false) (hv : s.Inv → valueFits s.cfg v) :
    RingEffect s ({ s.writeMem a bytes with ring := r }.present .ok v) where
  beside := ⟨rfl, rfl, rfl, rfl, rfl, rfl, rfl, rfl, rfl⟩
  ring := hr
  mem := .inr ⟨a, bytes, hfits, hloan, rfl⟩
  result := ⟨.ok, v, rfl, hv, fun h => nomatch h⟩

@[simp] theorem Ring.length_copyOut (r : Ring) (n : Nat) : ∀ i, (r.copyOut i n).length = n := by
  induction n with
  | zero => intro i; rfl
  | succ n ih => intro i; simp [Ring.copyOut, ih]

@[simp] theorem Ring.length_linearBytes (cap : Nat) (r : Ring) (n : Nat) :
    (r.linearBytes cap n).length = n := by
  simp [Ring.linearBytes]

theorem flushCount_le (s : State) : flushCount s ≤ s.cfg.cap - 1 := Nat.sub_le _ _

theorem valueFits_flushCount (h : s.Inv) : valueFits s.cfg (flushCount s) := by
  rw [flushCount_eq_stored h.ring]
  exact valueFits_of_lt_cap h (Ring.stored_lt h.ring)

theorem Ring.wf_writeLinear {cap : Nat} {r : Ring} (h : r.wf cap) {bytes : List Byte}
    (hn : bytes.length ≤ r.free cap) : (r.writeLinear cap bytes).wf cap := by
  have hlt := Ring.stored_lt h
  have hsum := Ring.stored_add_free h
  rw [Ring.writeLinear_eq_pushAll h bytes (by omega)]
  exact Ring.wf_pushAll bytes h

theorem Ring.wf_dropLinear {cap : Nat} {r : Ring} (h : r.wf cap) (n : Nat) :
    (r.dropLinear cap n).wf cap := by
  rw [Ring.dropLinear_eq_popN h]
  exact Ring.wf_popN n h

/-! ### The moves -/

/-- The bytes the receive-complete handler transmits for the byte at `c` (43_completion_events.md
R144). -/
def echoOf (c : Nat) (s : State) : List Byte :=
  if Memory.read s.mem c = s.cfg.cr then [s.cfg.lf] else [Memory.read s.mem c]

/-- What the receive-complete handler for the byte at `c` leaves after that transmission, which took
`s` to `u`: the end of the reception, or the next address armed (43_completion_events.md R144). -/
def afterByte (c : Nat) (s u : State) : State :=
  if Memory.read s.mem c = s.cfg.cr then
    (u.setCount (countAfterCr s.cfg s.drv.receivedCount)).endReception
  else if s.drv.receivedCount + 1 < s.drv.requestedLength then
    { u.exchange (.rxArm (c + 1) .accepted) with
      drv := { s.drv with receivedCount := s.drv.receivedCount + 1, cursor := some (c + 1) }
      xp := { u.xp with rxArmed := some (c + 1) } }
  else (u.setCount (s.drv.receivedCount + 1)).endReception

/-- What the delivery of a receive-complete event leaves. -/
def received (c : Nat) (s : State) : State :=
  afterByte c (s.clearPending .rxc) (transmit (echoOf c s) (s.clearPending .rxc)).2

theorem receiveByte_eq_afterByte {c : Nat} (h : receiveByte c s = .next t) :
    t = afterByte c s (transmit (echoOf c s) s).2 := by
  unfold afterByte echoOf
  obtain ⟨hb, rfl⟩ | ⟨hb, hl, -, -, u, rfl, rfl⟩ | ⟨hb, hl, rfl⟩ := receiveByte_next h
  · rw [if_pos hb, if_pos hb]
  · rw [if_neg hb, if_neg hb, if_pos hl]
  · rw [if_neg hb, if_neg hb, if_neg (Nat.not_lt.2 hl)]

/-- The state a step begins from: the output ports are quiet, and the schedule and the program have
moved on (logs 4 and 12). -/
def State.begun (s : State) (sched : List Turn) (prog : List FgOp) : State :=
  { s with ports := Ports.quiet, env := { s.env with sched := sched, prog := prog } }

/-- `Move b turn issued t`: in this turn, issuing this command if any, the block goes from `b` to
`t`. -/
inductive Move (b : State) : Turn → Option Instr → State → Prop
  /-- The turn passes: the block waits, or the agent's step is not enabled (log 5). -/
  | pass (turn : Turn) : Move b turn none b
  /-- The foreground's own store (20_memory.md R69). -/
  | store {a : Nat} {v : Byte} (idle : b.fg = .idle) (fits : a + 1 ≤ 2 ^ b.cfg.addrW)
      (free : b.onLoan a = false) : Move b .fg none (b.writeMem a [v])
  /-- An opcode outside the map (30_encoding.md R78). -/
  | illegal (idle : b.fg = .idle) : Move b .fg none (illegalOpcode b)
  /-- A command of the ring buffer (40_ring_buffer.md). -/
  | ring {i : Instr} {t : State} (idle : b.fg = .idle) (isRing : i.isRing = true)
      (effect : RingEffect b t) : Move b .fg (some i) t
  /-- A command that only presents a result: `DRV_STATUS`, and the failures of the reception
  commands. -/
  | answer {i : Instr} (st : Status) (v : Nat) (idle : b.fg = .idle)
      (fits : b.Inv → valueFits b.cfg v) : Move b .fg (some i) (b.present st v)
  /-- `CS_ENTER` and `CS_EXIT` (44_critical_section.md R155, R156). -/
  | setIe {i : Instr} (ie : Bool) (v : Nat) (idle : b.fg = .idle) (fits : v ≤ 1) :
      Move b .fg (some i) ({ b with arb := { b.arb with ie := ie } }.present .ok v)
  /-- `RX_INIT` succeeds (41_reception.md R111). -/
  | declare {n : Nat} (idle : b.fg = .idle) (long : 2 ≤ n) (free : b.drv.busy = false) :
      Move b .fg (some (.rxInit n)) ({ b with
        drv := { b.drv with requestedLength := n, receivedCount := 0, cursor := none }
        ghost := { b.ghost with armed := true } }.present .ok 0)
  /-- `RX_START` succeeds (41_reception.md R112). -/
  | start {a : Nat} (idle : b.fg = .idle) (fits : a + b.drv.requestedLength ≤ 2 ^ b.cfg.addrW)
      (free : b.drv.busy = false) (armed : b.ghost.armed = true) (unarmed : b.xp.rxArmed = none)
      (quiet : b.arb.pendRxc = false) :
      Move b .fg (some (.rxStart a)) ({ b.exchange (.rxArm a .accepted) with
        xp := { b.xp with rxArmed := some a }
        drv := { b.drv with busy := true, cursor := some a }
        ghost := { armed := false, xportUsed := true } }.present .ok 0)
  /-- `RX_READ_LINE` begins (41_reception.md R114). -/
  | beginLine {a n : Nat} (idle : b.fg = .idle) (pos : 0 < n) (fits : a + n ≤ 2 ^ b.cfg.addrW)
      (free : b.drv.busy = false) :
      Move b .fg (some (.rxReadLine a n)) { b with
        drv := { b.drv with busy := true, requestedLength := n, receivedCount := 0 }
        ghost := { b.ghost with armed := false }
        fg := .readLine a n .recv }
  /-- `TX_TRANSMIT` (42_transmission.md R131). -/
  | send {a n : Nat} (idle : b.fg = .idle) (pos : 0 < n) :
      Move b .fg (some (.txTransmit a n)) (fgTransmit (Memory.readSpan b.mem a n) .transmit b)
  /-- `TX_WRITE_SYNC` (42_transmission.md R132). -/
  | sendSync {a n : Nat} (idle : b.fg = .idle) (pos : 0 < n) :
      Move b .fg (some (.txWriteSync a n))
        (fgTransmit (Memory.readSpan b.mem a n) (.writeSync n) b)
  /-- The byte step of a line read (41_reception.md R115, R117). -/
  | readByte {a n : Nat} (reading : b.fg = .readLine a n .recv) : Move b .fg none (rlByte a n b)
  /-- The last step of a line read (41_reception.md R116). -/
  | finishLine {a n : Nat} {sawCR : Bool} (reading : b.fg = .readLine a n (.finish sawCR)) :
      Move b .fg none (rlFinish a n sawCR b)
  /-- The second step of a split transmission (42_transmission.md R135). -/
  | enqueue {bytes : List Byte} {call : TxCall} (waits : b.fg = .enqueue bytes call) :
      Move b .fg none (fgEnqueue bytes call b)
  /-- A byte arrives (43_completion_events.md R141). -/
  | arrive {c : Nat} (v : Byte) (armed : b.xp.rxArmed = some c) :
      Move b (.rxArrive v) none { b with
        mem := Memory.write b.mem c v
        xp := { b.xp with rxArmed := none }
        arb := { b.arb with pendRxc := true } }
  /-- A transmit-complete event is raised (43_completion_events.md R142, R143). -/
  | raiseTxc {turn : Turn} (agent : turn = .txDone ∨ turn = .txSpurious)
      (cause : b.xp.txActive = true ∨ (b.cfg.spuriousTxc = true ∧
        (b.cfg.spuriousInSetUp = true ∨ b.ghost.xportUsed = true))) :
      Move b turn none { b with arb := { b.arb with pendTxc := true } }
  /-- The receive-complete handler runs (43_completion_events.md R144). -/
  | receive {c : Nat} (pending : b.arb.pendRxc = true) (enabled : b.arb.ie = true)
      (busy : b.drv.busy = true) (cursor : b.drv.cursor = some c) :
      Move b .evRxc none (received c b)
  /-- The transmit-complete handler runs with no byte waiting (43_completion_events.md R146). -/
  | txcIdle (pending : b.arb.pendTxc = true) (enabled : b.arb.ie = true)
      (empty : b.ring.isEmpty = true) : Move b .evTxc none { b with
        arb := { b.arb with pendTxc := false }
        xp := { b.xp with txActive := false } }
  /-- The transmit-complete handler runs with bytes waiting (43_completion_events.md R146). -/
  | txcDrain (pending : b.arb.pendTxc = true) (enabled : b.arb.ie = true)
      (waiting : b.ring.isEmpty = false) : Move b .evTxc none (drain { b with
        arb := { b.arb with pendTxc := false }
        xp := { b.xp with txActive := false } })

/-! ### Every step is a move -/

theorem packStatus_fits (h : s.Inv) : valueFits s.cfg (packStatus s.cfg s.drv) := by
  have h1 := h.length
  have h2 := h.count
  have hb := Bool.toNat_le s.drv.busy
  have hpow : 2 ^ (2 * s.cfg.lenW + 1) = 2 * (2 ^ s.cfg.lenW * 2 ^ s.cfg.lenW) := by
    rw [Nat.pow_succ, Nat.two_mul, Nat.pow_add, Nat.mul_comm]
  unfold valueFits packStatus
  rw [hpow, Nat.two_mul s.cfg.lenW, Nat.pow_add]
  nlinarith

/-- A command that completes is a move of the foreground. -/
theorem exec_move {i : Instr} (hcmd : i.isCommand = true) (idle : s.fg = .idle)
    (h : exec i s = .next t) : Move s .fg (some i) t := by
  cases i with
  | rbInit =>
    obtain ⟨-, rfl⟩ := execRbInit_next h
    refine .ring idle rfl (.setRing fun hr => ?_)
    have hcap := Nat.lt_of_le_of_lt (Nat.zero_le _) hr.2.1
    exact ⟨hr.1, hcap, hcap⟩
  | rbIsEmpty =>
    cases h
    exact .ring idle rfl (.present _ _ fun _ => valueFits_of_le_one (Bool.toNat_le _))
  | rbIsFull =>
    cases h
    exact .ring idle rfl (.present _ _ fun _ => valueFits_of_le_one (Bool.toNat_le _))
  | rbFreeSpace =>
    cases h
    refine .ring idle rfl (.present _ _ fun hi => valueFits_of_lt_cap hi ?_)
    have := Ring.stored_add_free hi.ring
    have := Ring.stored_lt hi.ring
    omega
  | rbWrite a n =>
    obtain ⟨-, ⟨-, rfl⟩ | ⟨-, rfl⟩⟩ := execRbWrite_next h
    · exact .ring idle rfl (.present _ _ fun _ => valueFits_zero _)
    · exact .ring idle rfl (.setRing (Ring.wf_pushAll _))
  | rbRead a n =>
    obtain ⟨hf, ⟨-, rfl⟩ | ⟨-, hl, rfl⟩⟩ := execRbRead_next h
    · exact .ring idle rfl (.present _ _ fun _ => valueFits_zero _)
    · exact .ring idle rfl (.deliver (Ring.wf_popN _) (by simpa using hf) (by simpa using hl)
        fun _ => valueFits_zero _)
  | rbWriteLin a n =>
    obtain ⟨-, -, ⟨-, rfl⟩ | ⟨hn, rfl⟩⟩ := execRbWriteLin_next h
    · exact .ring idle rfl (.present _ _ fun _ => valueFits_zero _)
    · exact .ring idle rfl (.setRing fun hr => Ring.wf_writeLinear hr (by simpa using hn))
  | rbReadLin a n =>
    obtain ⟨hf, -, ⟨-, rfl⟩ | ⟨-, hl, rfl⟩⟩ := execRbReadLin_next h
    · exact .ring idle rfl (.present _ _ fun _ => valueFits_zero _)
    · exact .ring idle rfl (.deliver (fun hr => Ring.wf_dropLinear hr n) (by simpa using hf)
        (by simpa using hl) fun _ => valueFits_zero _)
  | rbFlush a =>
    obtain ⟨hf, hl, rfl⟩ := execRbFlush_next h
    have hle := flushCount_le s
    exact .ring idle rfl (.deliver (Ring.wf_popN _) (by rw [Ring.length_popBytes]; omega)
      (by simpa using hl) valueFits_flushCount)
  | rbFlushLin a =>
    obtain ⟨hf, -, hl, rfl⟩ := execRbFlushLin_next h
    have hle := flushCount_le s
    exact .ring idle rfl (.deliver (fun hr => Ring.wf_dropLinear hr _)
      (by rw [Ring.length_linearBytes]; omega) (by simpa using hl) valueFits_flushCount)
  | rxInit n =>
    obtain ⟨-, rfl⟩ | ⟨-, -, rfl⟩ | ⟨hn, hb, rfl⟩ := execRxInit_next h
    · exact .answer _ _ idle fun _ => valueFits_zero _
    · exact .answer _ _ idle fun _ => valueFits_zero _
    · exact .declare idle hn hb
  | rxStart a =>
    obtain ⟨hf, ⟨-, rfl⟩ | ⟨hb, ha, hx, hp, rfl⟩⟩ := execRxStart_next h
    · exact .answer _ _ idle fun _ => valueFits_zero _
    · exact .start idle hf hb ha hx hp
  | rxReadLine a n =>
    obtain ⟨hn, hf, ⟨-, rfl⟩ | ⟨hb, rfl⟩⟩ := execRxReadLine_next h
    · exact .answer _ _ idle fun _ => valueFits_minusOne _
    · exact .beginLine idle hn hf hb
  | drvStatus =>
    cases h
    exact .answer _ _ idle packStatus_fits
  | txTransmit a n =>
    obtain ⟨hn, -, rfl⟩ := sendSpan_next h
    exact .send idle hn
  | txWriteSync a n =>
    obtain ⟨hn, -, rfl⟩ := sendSpan_next h
    exact .sendSync idle hn
  | csEnter =>
    cases h
    exact .setIe _ _ idle (Bool.toNat_le _)
  | csExit b =>
    cases h
    exact .setIe _ _ idle (Nat.zero_le 1)
  | evRxc => cases hcmd
  | evTxc => cases hcmd

theorem execEvRxc_move (h : execEvRxc s = .next t) : Move s .evRxc none t := by
  obtain ⟨-, rfl⟩ | ⟨hp, he, hb, c, hc, hr⟩ := execEvRxc_next h
  · exact .pass _
  · rw [receiveByte_eq_afterByte hr]
    exact .receive hp he hb hc

theorem execEvTxc_move (h : execEvTxc s = .next t) : Move s .evTxc none t := by
  obtain ⟨-, rfl⟩ | ⟨hp, he, hr, rfl⟩ | ⟨hp, he, hr, rfl⟩ := execEvTxc_next h
  · exact .pass _
  · exact .txcIdle hp he hr
  · exact .txcDrain hp he hr

theorem xpRxArrive_move (v : Byte) (s : State) : Move s (.rxArrive v) none (xpRxArrive v s) := by
  obtain ⟨-, e⟩ | ⟨c, hc, e⟩ := xpRxArrive_cases v s <;> rw [e]
  · exact .pass _
  · exact .arrive v hc

theorem xpTxDone_move (s : State) : Move s .txDone none (xpTxDone s) := by
  obtain e | ⟨ha, -, e⟩ := xpTxDone_cases s <;> rw [e]
  · exact .pass _
  · exact .raiseTxc (.inl rfl) (.inl ha)

theorem xpTxSpurious_move (s : State) : Move s .txSpurious none (xpTxSpurious s) := by
  obtain ⟨-, e⟩ | ⟨hc, -, -, hu, e⟩ := xpTxSpurious_cases s <;> rw [e]
  · exact .pass _
  · exact .raiseTxc (.inr rfl) (.inr ⟨hc, hu⟩)

/-- The command that a step from `s` issues, if it issues one. -/
def State.issues (s : State) (i : Instr) : Prop :=
  s.turn = .fg ∧ s.fg = .idle ∧
    ∃ w rest, s.env.prog = .cmd w :: rest ∧ decodeCmd s.cfg w = .instr i

/-- All that a step can do: it is a move, from the state in which the step begins, of the agent
whose turn it is (00_scope.md R11). -/
theorem step_move (h : step s = .next t) : ∃ sched prog issued,
    Move (s.begun sched prog) s.turn issued t ∧ ∀ i, issued = some i → s.issues i := by
  have none_issued : ∀ i, (none : Option Instr) = some i → s.issues i := fun _ e => nomatch e
  obtain ⟨hturn, hfg⟩ | ⟨b, hturn, rfl⟩ | ⟨hturn, rfl⟩ | ⟨hturn, rfl⟩ | ⟨hturn, hev⟩ |
    ⟨hturn, hev⟩ := step_next h <;> rw [hturn]
  · obtain ⟨-, -, rfl⟩ | ⟨idle, a, b, rest, -, hfit, hloan, rfl⟩ | ⟨idle, w, rest, -, -, rfl⟩ |
      ⟨idle, w, rest, i, hprog, hdec, hexec⟩ | ⟨a, n, hform, rfl⟩ | ⟨a, n, sawCR, hform, rfl⟩ |
      ⟨bytes, call, hform, rfl⟩ := fgTurn_next hfg
    · exact ⟨s.env.sched.tail, s.env.prog, none, .pass _, none_issued⟩
    · exact ⟨s.env.sched.tail, rest, none, .store (b := s.issued rest) idle hfit hloan, none_issued⟩
    · exact ⟨s.env.sched.tail, rest, none, .illegal (b := s.issued rest) idle, none_issued⟩
    · refine ⟨s.env.sched.tail, rest, some i, exec_move (decodeCmd_wf hdec).2 idle hexec, ?_⟩
      rintro j ⟨⟩
      exact ⟨hturn, idle, w, rest, hprog, hdec⟩
    · exact ⟨s.env.sched.tail, s.env.prog, none, .readByte (b := s.beginStep) hform, none_issued⟩
    · exact ⟨s.env.sched.tail, s.env.prog, none, .finishLine (b := s.beginStep) hform, none_issued⟩
    · exact ⟨s.env.sched.tail, s.env.prog, none, .enqueue (b := s.beginStep) hform, none_issued⟩
  · exact ⟨s.env.sched.tail, s.env.prog, none, xpRxArrive_move b s.beginStep, none_issued⟩
  · exact ⟨s.env.sched.tail, s.env.prog, none, xpTxDone_move s.beginStep, none_issued⟩
  · exact ⟨s.env.sched.tail, s.env.prog, none, xpTxSpurious_move s.beginStep, none_issued⟩
  · exact ⟨s.env.sched.tail, s.env.prog, none, execEvRxc_move hev, none_issued⟩
  · exact ⟨s.env.sched.tail, s.env.prog, none, execEvTxc_move hev, none_issued⟩

end Sys2Proof.Machine

/-! SUPPORT. The invariants of a conformant run (10_state.md R32) over every move. -/

namespace Sys2Proof.Machine

variable {s t : State}

/-! ### The invariants over the single updates -/

theorem State.Inv.begun (h : s.Inv) (sched : List Turn) (prog : List FgOp) :
    (s.begun sched prog).Inv := h.congr rfl rfl rfl rfl rfl rfl rfl rfl rfl

theorem State.Inv.present (h : s.Inv) (st : Status) (v : Nat) : (s.present st v).Inv :=
  h.congr rfl rfl rfl rfl rfl rfl rfl rfl rfl

theorem State.Inv.tookRx (h : s.Inv) : s.tookRx.Inv :=
  h.congr (by simp) (by simp) (by simp) (by simp) (by simp) (by simp) (by simp) (by simp) (by simp)

theorem State.Inv.tookTx (h : s.Inv) : s.tookTx.Inv :=
  h.congr (by simp) (by simp) (by simp) (by simp) (by simp) (by simp) (by simp) (by simp) (by simp)

theorem State.Inv.setRing (h : s.Inv) {r : Ring} (hr : r.wf s.cfg.cap) :
    State.Inv { s with ring := r } :=
  { h with ring := hr }

/-- Once a request is made the set-up window is closed. -/
theorem State.Inv.exchange (h : s.Inv) (e : Exchange) : (s.exchange e).Inv :=
  { h with setUp := fun hu => nomatch hu }

theorem State.Inv.acceptedTx (h : s.Inv) (bytes : List Byte) : (acceptedTx bytes s).Inv :=
  { h with
    spurious := fun _ hx => nomatch hx
    setUp := fun hu => nomatch hu }

/-- The form of the foreground's data depends on memory and on the driver in a line read only. -/
theorem fgOk_of_not_inLine (h : s.fgOk) (hline : s.fg.inLine = false) (hfg : t.fg = s.fg)
    (hcfg : t.cfg = s.cfg) : t.fgOk := by
  unfold State.fgOk at h ⊢
  rw [hfg, hcfg]
  cases hform : s.fg with
  | idle => trivial
  | readLine a n phase =>
    rw [hform] at hline
    cases hline
  | enqueue bytes call =>
    rw [hform] at h hline
    cases call with
    | transmit => exact h
    | writeSync n => exact h
    | echo a n => cases hline
    | line stored => cases hline

theorem not_inLine_of_idle (h : s.fg = .idle) : s.fg.inLine = false := by
  rw [h]
  rfl

theorem fgOk_of_idle (h : s.fg = .idle) : s.fgOk := by
  unfold State.fgOk
  rw [h]
  trivial

/-- While the driver is free, no reception is armed and no receive-complete event waits. -/
theorem State.Inv.unarmed_of_free (h : s.Inv) (hb : s.drv.busy = false) :
    s.xp.rxArmed = none ∧ s.arb.pendRxc = false := by
  constructor
  · cases ha : s.xp.rxArmed with
    | none => rfl
    | some a =>
      obtain ⟨hbusy, -⟩ := h.armedInto a ha
      rw [hb] at hbusy
      cases hbusy
  · cases hp : s.arb.pendRxc with
    | false => rfl
    | true =>
      obtain ⟨hbusy, -⟩ := h.pending hp
      rw [hb] at hbusy
      cases hbusy

/-! ### What follows a foreground transmission -/

/-- The call belongs to a line read. -/
def TxCall.inLine : TxCall → Bool
  | .transmit => false
  | .writeSync _ => false
  | .echo _ _ => true
  | .line _ => true

@[simp] theorem Fg.inLine_enqueue (bytes : List Byte) (call : TxCall) :
    (Fg.enqueue bytes call).inLine = call.inLine := by cases call <;> rfl

/-- What holds of the data of a call while its transmission runs (41_reception.md R115, R116). -/
def State.callOk (s : State) (bytes : List Byte) : TxCall → Prop
  | .transmit => True
  | .writeSync n => n = bytes.length ∧ n < 2 ^ s.cfg.lenW
  | .echo a n => lineLoaded s a n ∧ s.drv.receivedCount < n
  | .line stored => 1 ≤ stored ∧ stored ≤ s.drv.requestedLength

theorem fgOk_enqueue {bytes : List Byte} {call : TxCall} (hfg : s.fg = .enqueue bytes call) :
    s.fgOk ↔ s.cfg.txFallbackSplit = true ∧ bytes ≠ [] ∧ s.callOk bytes call := by
  unfold State.fgOk
  rw [hfg]
  cases call <;> rfl

theorem fgOk_readLine_recv {a n : Nat} (hfg : s.fg = .readLine a n .recv) :
    s.fgOk ↔ lineLoaded s a n ∧ s.drv.receivedCount < n := by
  unfold State.fgOk
  rw [hfg]

theorem fgOk_readLine_finish {a n : Nat} {sawCR : Bool}
    (hfg : s.fg = .readLine a n (.finish sawCR)) : s.fgOk ↔
      if sawCR then
        lineLoaded s a n ∧ 1 ≤ lineSlots n true s ∧ lineSlots n true s ≤ n ∧
          Memory.read s.mem (a + lineSlots n true s - 1) = s.cfg.cr
      else lineLoaded s a n ∧ s.drv.receivedCount = n ∧ 0 < n := by
  unfold State.fgOk
  rw [hfg]
  cases sawCR <;> rfl

/-- The sequencer may take any form that belongs as much to a line read as the last. -/
theorem State.Inv.setFg (h : s.Inv) {f : Fg} (hline : s.fg.inLine = f.inLine)
    (hf : State.fgOk { s with fg := f }) : State.Inv { s with fg := f } :=
  { h with
    armedInto := hline ▸ h.armedInto
    pending := hline ▸ h.pending
    receiving := hline ▸ h.receiving
    inLine := hline ▸ h.inLine
    loan := hline ▸ h.loan
    armed := hline ▸ h.armed
    fg := hf }

/-- The foreground leaves a line read: nothing is armed and no receive-complete event waits. -/
theorem State.Inv.leaveLine (h : s.Inv) (hline : s.fg.inLine = true) : s.leaveLine.Inv := by
  obtain ⟨-, hx, hp⟩ := h.inLine hline
  exact { h with
    armedInto := fun a ha => nomatch hx.symm.trans ha
    pending := fun hp' => nomatch hp.symm.trans hp'
    receiving := fun hb => nomatch hb
    inLine := fun hl => nomatch hl
    loan := fun hb => nomatch hb
    armed := fun ha => nomatch hline.symm.trans (h.armed ha).2.1
    fg := trivial }

/-- The echoed byte is counted (41_reception.md R115). -/
theorem State.Inv.countEcho (h : s.Inv) {a n : Nat} (hline : s.fg.inLine = true)
    (hload : lineLoaded s a n) (hcount : s.drv.receivedCount < n) :
    State.Inv { s.setCount (s.drv.receivedCount + 1) with
      fg := .readLine a n (if s.drv.receivedCount + 1 = n then .finish false else .recv) } := by
  obtain ⟨hbusy, hx, hp⟩ := h.inLine hline
  obtain ⟨hlen, hspan⟩ := hload
  exact { h with
    count := show s.drv.receivedCount + 1 ≤ s.drv.requestedLength by omega
    armedInto := fun a ha => nomatch hx.symm.trans ha
    pending := fun hp' => nomatch hp.symm.trans hp'
    receiving := fun _ hl => nomatch hl
    inLine := fun _ => ⟨hbusy, hx, hp⟩
    loan := fun _ hl => nomatch hl
    armed := fun ha => nomatch hline.symm.trans (h.armed ha).2.1
    fg := by
      by_cases hn : s.drv.receivedCount + 1 = n
      · exact (fgOk_readLine_finish (sawCR := false) (congrArg (Fg.readLine a n) (if_pos hn))).2
          ⟨⟨hlen, hspan⟩, hn, by omega⟩
      · exact (fgOk_readLine_recv (congrArg (Fg.readLine a n) (if_neg hn))).2
          ⟨⟨hlen, hspan⟩, show s.drv.receivedCount + 1 < n by omega⟩ }

theorem State.Inv.afterTransmit (h : s.Inv) {bytes : List Byte} {call : TxCall} {status : Status}
    (hline : s.fg.inLine = call.inLine) (hcall : s.callOk bytes call) :
    (afterTransmit call status s).Inv := by
  unfold Machine.afterTransmit
  cases call with
  | transmit => exact (h.setFg (f := .idle) hline trivial).present _ _
  | writeSync n =>
    dsimp only
    split <;> exact (h.setFg (f := .idle) hline trivial).present _ _
  | echo a n =>
    obtain ⟨hload, hcount⟩ := hcall
    exact h.countEcho hline hload hcount
  | line stored => exact (h.leaveLine hline).present _ _

/-- A foreground transmission in all its cases. -/
theorem State.Inv.fgTransmit (h : s.Inv) {bytes : List Byte} {call : TxCall} (hbytes : bytes ≠ [])
    (hline : s.fg.inLine = call.inLine) (hcall : s.callOk bytes call) :
    (fgTransmit bytes call s).Inv := by
  have moved : ∀ {u : State}, u.cfg = s.cfg → u.drv = s.drv → u.callOk bytes call := by
    intro u hc hd
    unfold State.callOk lineLoaded at hcall ⊢
    rwa [hc, hd]
  obtain ⟨-, e⟩ | ⟨-, -, -, e⟩ | ⟨-, -, -, e⟩ | ⟨-, hsplit, e⟩ := fgTransmit_cases bytes call s <;>
    rw [e]
  · exact (h.acceptedTx bytes).afterTransmit hline (moved rfl rfl)
  · exact (h.exchange _).afterTransmit hline (moved rfl rfl)
  · exact ((h.exchange _).setRing (Ring.wf_pushAll bytes h.ring)).afterTransmit hline
      (moved rfl rfl)
  · refine (h.exchange _).setFg (hline.trans (Fg.inLine_enqueue bytes call).symm) ?_
    exact (fgOk_enqueue rfl).2 ⟨hsplit, hbytes, moved rfl rfl⟩

/-! ### The steps of a line read -/

/-- Caller memory is written within the address space, with the sequencer's data still in order. -/
theorem State.Inv.writeMem (h : s.Inv) {a : Nat} {v : List Byte}
    (hfits : a + v.length ≤ 2 ^ s.cfg.addrW) (hf : (s.writeMem a v).fgOk) : (s.writeMem a v).Inv :=
  { h with
    mem := ⟨Memory.wf_writeSpan v h.mem.1 a, Memory.inSpace_writeSpan v h.mem.2 a hfits⟩
    fg := hf }

/-- The byte of a line read is stored and is `CR` (41_reception.md R115). -/
theorem State.Inv.sawCr (h : s.Inv) {a n : Nat} (hfg : s.fg = .readLine a n .recv)
    (hcr : Memory.read s.mem (a + s.drv.receivedCount) = s.cfg.cr) :
    State.Inv { s.setCount (countAfterCr s.cfg s.drv.receivedCount) with
      fg := .readLine a n (.finish true) } := by
  have hline : s.fg.inLine = true := by rw [hfg]; rfl
  obtain ⟨⟨hlen, hspan⟩, hcount⟩ := (fgOk_readLine_recv hfg).1 h.fg
  obtain ⟨hbusy, hx, hp⟩ := h.inLine hline
  have hslots : lineSlots n true { s.setCount (countAfterCr s.cfg s.drv.receivedCount) with
      fg := .readLine a n (.finish true) } = s.drv.receivedCount + 1 := by
    unfold lineSlots countAfterCr
    simp only [State.setCount_cfg, State.setCount_drv, if_true]
    split <;> rfl
  exact { h with
    count := show countAfterCr s.cfg s.drv.receivedCount ≤ s.drv.requestedLength by
      unfold countAfterCr
      split <;> omega
    armedInto := fun a ha => nomatch hx.symm.trans ha
    pending := fun hp' => nomatch hp.symm.trans hp'
    receiving := fun _ hl => nomatch hl
    inLine := fun _ => ⟨hbusy, hx, hp⟩
    loan := fun _ hl => nomatch hl
    armed := fun ha => nomatch hline.symm.trans (h.armed ha).2.1
    fg := by
      refine (fgOk_readLine_finish rfl).2 ?_
      rw [if_pos rfl, hslots]
      exact ⟨⟨hlen, hspan⟩, by omega, by omega, hcr⟩ }

theorem State.Inv.rlByte (h : s.Inv) {a n : Nat} (hfg : s.fg = .readLine a n .recv) :
    (rlByte a n s).Inv := by
  have hline : s.fg.inLine = true := by rw [hfg]; rfl
  obtain ⟨hload, hcount⟩ := (fgOk_readLine_recv hfg).1 h.fg
  have hasked : ∀ r, (s.tookRx.exchange (.rxBlocking s.cfg.maxWait r)).Inv :=
    fun r => h.tookRx.exchange _
  rw [rlByte_eq]
  cases s.nextRx with
  | error => exact ((hasked _).leaveLine (by simpa using hline)).present _ _
  | ok b =>
    have hspan := hload.2
    have hlen := hload.1
    have hstored : ((s.tookRx.exchange (.rxBlocking s.cfg.maxWait (.ok b))).writeMem
        (a + s.drv.receivedCount) [b]).Inv := by
      refine (hasked _).writeMem (by simp; omega) ?_
      refine (fgOk_readLine_recv (by simpa using hfg)).2 ?_
      simpa [lineLoaded] using ⟨hload, hcount⟩
    dsimp only
    split
    · next hcr =>
      have hread : Memory.read (Memory.write s.mem (a + s.drv.receivedCount) b)
          (a + s.drv.receivedCount) = s.cfg.cr :=
        (Memory.read_write_same _ h.mem.1 _ _).trans hcr
      simpa using hstored.sawCr (a := a) (n := n) (by simpa using hfg)
        (by simpa [Memory.writeSpan] using hread)
    · refine hstored.fgTransmit (List.cons_ne_nil _ _) (by simpa [TxCall.inLine] using hline) ?_
      simpa [State.callOk, lineLoaded] using ⟨hload, hcount⟩

/-- The slots of the line are between 1 and the requested length. -/
theorem lineSlots_bounds (h : s.Inv) {a n : Nat} {sawCR : Bool}
    (hfg : s.fg = .readLine a n (.finish sawCR)) :
    1 ≤ lineSlots n sawCR s ∧ lineSlots n sawCR s ≤ n ∧ lineLoaded s a n := by
  have hok := (fgOk_readLine_finish hfg).1 h.fg
  cases sawCR with
  | true =>
    obtain ⟨hload, hpos, hle, -⟩ := hok
    exact ⟨hpos, hle, hload⟩
  | false =>
    obtain ⟨hload, -, hpos⟩ := hok
    exact ⟨hpos, le_rfl, hload⟩

theorem State.Inv.rlFinish (h : s.Inv) {a n : Nat} {sawCR : Bool}
    (hfg : s.fg = .readLine a n (.finish sawCR)) : (rlFinish a n sawCR s).Inv := by
  have hline : s.fg.inLine = true := by rw [hfg]; rfl
  obtain ⟨hpos, hle, hlen, hspan⟩ := lineSlots_bounds h hfg
  have hok := (fgOk_readLine_finish hfg).1 h.fg
  unfold Machine.rlFinish
  cases sawCR with
  | true => exact h.fgTransmit (List.cons_ne_nil _ _) hline ⟨hpos, hlen.symm ▸ hle⟩
  | false =>
    have hlast : (s.writeMem (a + n - 1) [s.cfg.cr]).Inv :=
      h.writeMem (by rw [List.length_singleton]; omega)
        ((fgOk_readLine_finish (s := s.writeMem (a + n - 1) [s.cfg.cr]) hfg).2 hok)
    exact hlast.fgTransmit (List.cons_ne_nil _ _) hline ⟨hpos, hlen.symm ▸ hle⟩

/-- The second step of a split transmission keeps the invariants. -/
theorem State.Inv.fgEnqueue (h : s.Inv) {bytes : List Byte} {call : TxCall}
    (hfg : s.fg = .enqueue bytes call) : (fgEnqueue bytes call s).Inv := by
  obtain ⟨-, -, hcall⟩ := (fgOk_enqueue hfg).1 h.fg
  have hline : s.fg.inLine = call.inLine := by rw [hfg, Fg.inLine_enqueue]
  obtain ⟨-, e⟩ | ⟨-, e⟩ := fgEnqueue_cases bytes call s <;> rw [e]
  · exact h.afterTransmit hline hcall
  · exact (h.setRing (Ring.wf_pushAll bytes h.ring)).afterTransmit (bytes := bytes) hline
      (by cases call <;> exact hcall)

end Sys2Proof.Machine

/-! SUPPORT. The invariants over the deliveries of the two events and over the transport's steps,
and so over every step (10_state.md R32). -/

namespace Sys2Proof.Machine

variable {s t : State}

/-! ### What the receive-complete handler leaves -/

theorem State.endReception_res (s : State) : s.endReception.ports.res = s.ports.res := by
  unfold State.endReception State.notifyRxDone; split <;> rfl
theorem State.endReception_wire (s : State) : s.endReception.obs.wire = s.obs.wire := by
  unfold State.endReception State.notifyRxDone; split <;> rfl

section
variable (c : Nat) (s u : State)

@[simp] theorem afterByte_cfg : (afterByte c s u).cfg = u.cfg := by
  unfold afterByte; split_ifs <;> simp
@[simp] theorem afterByte_ring : (afterByte c s u).ring = u.ring := by
  unfold afterByte; split_ifs <;> simp
@[simp] theorem afterByte_arb : (afterByte c s u).arb = u.arb := by
  unfold afterByte; split_ifs <;> simp
@[simp] theorem afterByte_fg : (afterByte c s u).fg = u.fg := by
  unfold afterByte; split_ifs <;> simp
@[simp] theorem afterByte_mem : (afterByte c s u).mem = u.mem := by
  unfold afterByte; split_ifs <;> simp
@[simp] theorem afterByte_env : (afterByte c s u).env = u.env := by
  unfold afterByte; split_ifs <;> simp
@[simp] theorem afterByte_runRefused : (afterByte c s u).runRefused = u.runRefused := by
  unfold afterByte; split_ifs <;> simp
@[simp] theorem afterByte_res : (afterByte c s u).ports.res = u.ports.res := by
  unfold afterByte; split_ifs <;> simp [-State.endReception_ports, State.endReception_res]
@[simp] theorem afterByte_wire : (afterByte c s u).obs.wire = u.obs.wire := by
  unfold afterByte; split_ifs <;> simp [-State.endReception_obs, State.endReception_wire]
@[simp] theorem afterByte_txActive : (afterByte c s u).xp.txActive = u.xp.txActive := by
  unfold afterByte; split_ifs <;> simp

end

/-- The handler ends the reception, or arms the next address (43_completion_events.md R144). -/
theorem afterByte_cases (c : Nat) (s u : State) :
    (∃ k, k ≤ s.drv.receivedCount + 1 ∧ afterByte c s u = (u.setCount k).endReception) ∨
    (s.drv.receivedCount + 1 < s.drv.requestedLength ∧
      afterByte c s u = { u.exchange (.rxArm (c + 1) .accepted) with
        drv := { s.drv with receivedCount := s.drv.receivedCount + 1, cursor := some (c + 1) }
        xp := { u.xp with rxArmed := some (c + 1) } }) := by
  unfold afterByte
  split
  · refine .inl ⟨_, ?_, rfl⟩
    unfold countAfterCr
    split <;> omega
  · split
    · next hl => exact .inr ⟨hl, rfl⟩
    · exact .inl ⟨_, le_rfl, rfl⟩

/-- `Transmit` never ends a transmission in flight. -/
theorem transmit_txActive (bytes : List Byte) (h : s.xp.txActive = true) :
    (transmit bytes s).2.xp.txActive = true := by
  obtain ⟨-, e⟩ | ⟨-, -, e⟩ | ⟨-, -, e⟩ := transmit_cases bytes s <;> rw [e]
  · rfl
  · exact h
  · exact h

/-- While the driver is busy the reception is not ARMED. -/
theorem State.Inv.unready_of_busy (h : s.Inv) (hb : s.drv.busy = true) : s.ghost.armed = false := by
  cases ha : s.ghost.armed with
  | false => rfl
  | true => exact nomatch hb.symm.trans (h.armed ha).1

/-- The handler on the byte at the cursor of a pending reception keeps the invariants. -/
theorem State.Inv.received (h : s.Inv) {c : Nat} (hp : s.arb.pendRxc = true)
    (hc : s.drv.cursor = some c) : (received c s).Inv := by
  obtain ⟨hbusy, hline, hx, -⟩ := h.pending hp
  obtain ⟨c', hc', hlt, hle, hfits⟩ := h.loan hbusy hline
  obtain rfl : c = c' := Option.some.inj (hc.symm.trans hc')
  have hwf := (transmit_extends (echoOf c s) (s.clearPending .rxc)).2.1 h.ring
  have hactive : s.xp.txActive = true → _ :=
    transmit_txActive (s := s.clearPending .rxc) (echoOf c s)
  obtain ⟨-, kcfg, kdrv, karb, kx, kfg, kmem, -, -, kghost, -, -⟩ :=
    transmit_frame (echoOf c s) (s.clearPending .rxc)
  unfold Machine.received
  generalize (transmit (echoOf c s) (s.clearPending .rxc)).2 = u at *
  simp only [State.clearPending_rxc_cfg, State.clearPending_rxc_drv, State.clearPending_rxc_arb,
    State.clearPending_rxc_xp, State.clearPending_rxc_fg, State.clearPending_rxc_mem,
    State.clearPending_rxc_ghost] at *
  have hfg : u.fgOk := fgOk_of_not_inLine h.fg hline kfg kcfg
  have hspur : u.arb.pendTxc = true → u.xp.txActive = false → u.cfg.spuriousTxc = true := by
    intro hpt hxt
    rw [kcfg]
    refine h.spurious (by simpa [karb] using hpt) ?_
    cases ha : s.xp.txActive with
    | false => rfl
    | true => exact absurd (hactive ha) (by simp [hxt])
  rw [hx] at kx
  obtain ⟨k, hk, e⟩ | ⟨hl, e⟩ := afterByte_cases c (s.clearPending .rxc) u <;> rw [e]
  · rw [State.clearPending_rxc_drv] at hk
    exact {
      config := by simpa [kcfg] using h.config
      ring := by simpa [kcfg] using hwf
      mem := by simpa [kcfg, kmem] using h.mem
      count := by simp [kdrv]; omega
      length := by simpa [kcfg, kdrv] using h.length
      armedInto := by simp [kx]
      pending := by simp [karb]
      receiving := by simp
      inLine := by simp [kfg, hline]
      spurious := by simpa using hspur
      loan := by simp
      armed := by simp [kghost, h.unready_of_busy hbusy]
      setUp := by simp [kghost]
      fg := fgOk_of_not_inLine hfg (kfg ▸ hline) (by simp) (by simp) }
  · rw [State.clearPending_rxc_drv] at hl ⊢
    exact {
      config := by simpa [kcfg] using h.config
      ring := by simpa [kcfg] using hwf
      mem := by simpa [kcfg, kmem] using h.mem
      count := by simp; omega
      length := by simpa [kcfg] using h.length
      armedInto := by
        rintro a ⟨⟩
        exact ⟨hbusy, kfg ▸ hline, rfl⟩
      pending := by simp [karb]
      receiving := by simp [karb]
      inLine := by simp [kfg, hline]
      spurious := by simpa using hspur
      loan := by
        intro _ _
        refine ⟨c + 1, rfl, hl, ?_, ?_⟩
        · simpa using hle
        · simp only [State.exchange_cfg, kcfg]
          omega
      armed := by simp [kghost, h.unready_of_busy hbusy]
      setUp := by simp
      fg := fgOk_of_not_inLine hfg (kfg ▸ hline) rfl rfl }

/-! ### The other moves that start or end something -/

theorem State.Inv.declare (h : s.Inv) {n : Nat} (idle : s.fg = .idle) (long : 2 ≤ n)
    (hn : n < 2 ^ s.cfg.lenW) (free : s.drv.busy = false) : State.Inv { s with
      drv := { s.drv with requestedLength := n, receivedCount := 0, cursor := none }
      ghost := { s.ghost with armed := true } } := by
  have hline := not_inLine_of_idle idle
  obtain ⟨hx, hp⟩ := h.unarmed_of_free free
  exact { h with
    count := Nat.zero_le _
    length := hn
    armedInto := fun a ha => nomatch hx.symm.trans ha
    pending := fun hp' => nomatch hp.symm.trans hp'
    receiving := fun hb => nomatch free.symm.trans hb
    loan := fun hb => nomatch free.symm.trans hb
    armed := fun _ => ⟨free, hline, long, rfl⟩
    fg := fgOk_of_idle idle }

theorem State.Inv.start (h : s.Inv) {a : Nat} (idle : s.fg = .idle)
    (fits : a + s.drv.requestedLength ≤ 2 ^ s.cfg.addrW) (armed : s.ghost.armed = true)
    (quiet : s.arb.pendRxc = false) (e : Exchange) : State.Inv { s.exchange e with
      xp := { s.xp with rxArmed := some a }
      drv := { s.drv with busy := true, cursor := some a }
      ghost := { armed := false, xportUsed := true } } := by
  have hline := not_inLine_of_idle idle
  obtain ⟨-, -, hlen, hcount⟩ := h.armed armed
  exact { h with
    armedInto := fun _ ha => ⟨rfl, hline, ha⟩
    pending := fun hp => nomatch quiet.symm.trans hp
    receiving := fun _ _ => by simp [quiet]
    inLine := fun hl => nomatch hline.symm.trans hl
    loan := fun _ _ => ⟨a, rfl, by simp only; omega, by simp [hcount], by simpa [hcount] using fits⟩
    armed := fun ha => nomatch ha
    setUp := fun hu => nomatch hu
    fg := fgOk_of_idle idle }

theorem State.Inv.beginLine (h : s.Inv) {a n : Nat} (pos : 0 < n) (hn : n < 2 ^ s.cfg.lenW)
    (fits : a + n ≤ 2 ^ s.cfg.addrW) (free : s.drv.busy = false) : State.Inv { s with
      drv := { s.drv with busy := true, requestedLength := n, receivedCount := 0 }
      ghost := { s.ghost with armed := false }
      fg := .readLine a n .recv } := by
  obtain ⟨hx, hp⟩ := h.unarmed_of_free free
  exact { h with
    count := Nat.zero_le _
    length := hn
    armedInto := fun a ha => nomatch hx.symm.trans ha
    pending := fun hp' => nomatch hp.symm.trans hp'
    receiving := fun _ hl => nomatch hl
    inLine := fun _ => ⟨rfl, hx, hp⟩
    loan := fun _ hl => nomatch hl
    armed := fun ha => nomatch ha
    fg := (fgOk_readLine_recv rfl).2 ⟨⟨rfl, fits⟩, pos⟩ }

theorem State.Inv.arrive (h : s.Inv) {c : Nat} (v : Byte) (armed : s.xp.rxArmed = some c) :
    State.Inv { s with
      mem := Memory.write s.mem c v
      xp := { s.xp with rxArmed := none }
      arb := { s.arb with pendRxc := true } } := by
  obtain ⟨hbusy, hline, hc⟩ := h.armedInto c armed
  obtain ⟨c', hc', hlt, -, hfits⟩ := h.loan hbusy hline
  obtain rfl : c = c' := Option.some.inj (hc.symm.trans hc')
  exact { h with
    mem := ⟨Memory.wf_write h.mem.1 c v, Memory.inSpace_write h.mem.2 (by omega) v⟩
    armedInto := fun a ha => nomatch ha
    pending := fun _ => ⟨hbusy, hline, rfl, by simp [hc]⟩
    receiving := fun _ _ => by simp
    inLine := fun hl => nomatch hline.symm.trans hl
    setUp := fun hu => nomatch armed.symm.trans (h.setUp hu).1
    fg := fgOk_of_not_inLine h.fg hline rfl rfl }

theorem State.Inv.raiseTxc (h : s.Inv) (cause : s.xp.txActive = true ∨ (s.cfg.spuriousTxc = true ∧
      (s.cfg.spuriousInSetUp = true ∨ s.ghost.xportUsed = true))) :
    State.Inv { s with arb := { s.arb with pendTxc := true } } :=
  { h with
    spurious := fun _ hx => by
      obtain hx' | ⟨hs, -⟩ := cause
      · exact nomatch hx.symm.trans hx'
      · exact hs
    setUp := fun hu => by
      obtain ⟨hx, hp, ha, -⟩ := h.setUp hu
      refine ⟨hx, hp, ha, fun hoff => ?_⟩
      obtain ha' | ⟨-, hon | hu'⟩ := cause
      · exact nomatch ha.symm.trans ha'
      · exact nomatch hoff.symm.trans hon
      · exact nomatch hu.symm.trans hu' }

theorem State.Inv.clearTxc (h : s.Inv) : State.Inv { s with
      arb := { s.arb with pendTxc := false }
      xp := { s.xp with txActive := false } } :=
  { h with
    spurious := fun hp => nomatch hp
    setUp := fun hu => by
      obtain ⟨hx, hp, -, -⟩ := h.setUp hu
      exact ⟨hx, hp, rfl, fun _ => rfl⟩ }

theorem State.Inv.drain (h : s.Inv) (hx : s.xp.txActive = false) : (drain s).Inv := by
  rw [drain_eq h.ring hx]
  have hasked : State.Inv { s.tookTx.exchange (.txBlocking (s.ring.queue s.cfg.cap) s.cfg.maxWait
      s.nextTx) with ring := { s.ring with head := s.ring.tail } } := by
    refine (h.tookTx.exchange _).setRing ?_
    obtain ⟨hlen, -, ht⟩ := h.ring
    simpa using ⟨hlen, ht, ht⟩
  exact hasked.congr rfl rfl rfl rfl rfl rfl rfl rfl rfl

/-- A ring-buffer command keeps the invariants. -/
theorem State.Inv.ring_effect (h : s.Inv) (idle : s.fg = .idle) (e : RingEffect s t) : t.Inv := by
  obtain ⟨hcfg, hdrv, harb, hxp, hfg, hghost, -, -, -⟩ := e.beside
  have hmem : Memory.wf t.mem ∧ Memory.inSpace s.cfg t.mem := by
    obtain hm | ⟨a, v, hfits, -, hm⟩ := e.mem <;> rw [hm]
    · exact h.mem
    · exact ⟨Memory.wf_writeSpan v h.mem.1 a, Memory.inSpace_writeSpan v h.mem.2 a hfits⟩
  have key : State.Inv { s with ring := t.ring, mem := t.mem } :=
    { h with
      ring := e.ring h.ring
      mem := hmem
      fg := fgOk_of_idle idle }
  exact key.congr hcfg rfl hdrv (by rw [harb]) (by rw [harb]) hxp hfg hghost rfl

/-! ### Every move and every step -/

theorem readSpan_ne_nil (m : Memory) (a : Nat) {n : Nat} (h : 0 < n) :
    Memory.readSpan m a n ≠ [] :=
  List.ne_nil_of_length_pos (by rw [Memory.length_readSpan]; exact h)

/-- Every move of a well-formed instruction keeps the invariants. -/
theorem Move.inv {turn : Turn} {issued : Option Instr} (h : Move s turn issued t) (hs : s.Inv)
    (hwf : ∀ i, issued = some i → i.wf s.cfg = true) : t.Inv := by
  cases h with
  | pass => exact hs
  | store idle fits free => exact hs.writeMem (by simpa using fits) (fgOk_of_idle idle)
  | illegal idle => exact hs.congr rfl rfl rfl rfl rfl rfl rfl rfl rfl
  | ring idle isRing effect => exact hs.ring_effect idle effect
  | answer st v idle fits => exact hs.present st v
  | setIe ie v idle fits => exact hs.congr rfl rfl rfl rfl rfl rfl rfl rfl rfl
  | @declare n idle long free =>
    have hn : n < 2 ^ s.cfg.lenW := by simpa [Instr.wf] using hwf _ rfl
    exact (hs.declare idle long hn free).present _ _
  | start idle fits free armed unarmed quiet =>
    exact (hs.start idle fits armed quiet _).present _ _
  | @beginLine a n idle pos fits free =>
    have hn : a < 2 ^ s.cfg.addrW ∧ n < 2 ^ s.cfg.lenW := by simpa [Instr.wf] using hwf _ rfl
    exact hs.beginLine pos hn.2 fits free
  | send idle pos =>
    exact hs.fgTransmit (readSpan_ne_nil _ _ pos) (not_inLine_of_idle idle) trivial
  | @sendSync a n idle pos =>
    have hn : a < 2 ^ s.cfg.addrW ∧ n < 2 ^ s.cfg.lenW := by simpa [Instr.wf] using hwf _ rfl
    exact hs.fgTransmit (readSpan_ne_nil _ _ pos) (not_inLine_of_idle idle)
      ⟨(Memory.length_readSpan _ _ _).symm, hn.2⟩
  | readByte reading => exact hs.rlByte reading
  | finishLine reading => exact hs.rlFinish reading
  | enqueue waits => exact hs.fgEnqueue waits
  | arrive v armed => exact hs.arrive v armed
  | raiseTxc agent cause => exact hs.raiseTxc cause
  | receive pending enabled busy cursor => exact hs.received pending cursor
  | txcIdle pending enabled empty => exact hs.clearTxc
  | txcDrain pending enabled waiting => exact hs.clearTxc.drain rfl

/-- An issued command is well formed, for it was read from its word. -/
theorem State.issues.wf {i : Instr} (h : s.issues i) : i.wf s.cfg = true := by
  obtain ⟨-, -, w, rest, -, hdec⟩ := h
  exact (decodeCmd_wf hdec).1

/-- Settles O14: a step begins in a state with the invariants and makes a move of a well-formed
command, an agent or a handler. -/
theorem stepKeepsInvariant : Obligations.StepKeepsInvariant := by
  intro s t hs hstep
  obtain ⟨sched, prog, issued, hmove, hissued⟩ := step_move hstep
  exact hmove.inv (hs.begun sched prog) fun i hi => (hissued i hi).wf

end Sys2Proof.Machine

/-! SUPPORT. What no step changes: the configuration, what has been observed, the pending events of
others, the foreground during a delivery, the bytes on loan (10_state.md R27; 60_exceptions.md R169,
R173). -/

namespace Sys2Proof.Machine

variable {s t u : State}

/-! ### The foreground's transmissions and line reads -/

/-- What every foreground step of a transmission or of a line read leaves as it was
(42_transmission.md R130; 41_reception.md R115, R116). -/
structure SendFrame (s t : State) : Prop where
  cfg : t.cfg = s.cfg
  arb : t.arb = s.arb
  rxArmed : t.xp.rxArmed = s.xp.rxArmed
  wire : s.obs.wire <+: t.obs.wire
  cbCount : t.obs.cbCount = s.obs.cbCount
  armed : t.ghost.armed = s.ghost.armed
  used : s.ghost.xportUsed = true → t.ghost.xportUsed = true
  rxDone : t.ports.rxDone = s.ports.rxDone
  length : t.drv.requestedLength = s.drv.requestedLength
  cursor : t.drv.cursor = s.drv.cursor
  runRefused : t.runRefused = s.runRefused

theorem SendFrame.trans (h : SendFrame s t) (k : SendFrame t u) : SendFrame s u where
  cfg := k.cfg.trans h.cfg
  arb := k.arb.trans h.arb
  rxArmed := k.rxArmed.trans h.rxArmed
  wire := h.wire.trans k.wire
  cbCount := k.cbCount.trans h.cbCount
  armed := k.armed.trans h.armed
  used := k.used ∘ h.used
  rxDone := k.rxDone.trans h.rxDone
  length := k.length.trans h.length
  cursor := k.cursor.trans h.cursor
  runRefused := k.runRefused.trans h.runRefused

/-- A foreground call of `Transmit` makes a request of the transport. -/
theorem fgTransmit_ghost (bytes : List Byte) (call : TxCall) (s : State) :
    (fgTransmit bytes call s).ghost = { s.ghost with xportUsed := true } := by
  have after : ∀ st u, (afterTransmit call st u).ghost = u.ghost := by
    intro st u
    obtain ⟨-, -, -, -, -, -, -, h, -⟩ := afterTransmit_frame call st u
    exact h
  obtain ⟨-, e⟩ | ⟨-, -, -, e⟩ | ⟨-, -, -, e⟩ | ⟨-, -, e⟩ :=
    fgTransmit_cases bytes call s <;> rw [e]
  · exact after _ _
  · exact after _ _
  · exact after _ _
  · rfl

theorem fgTransmit_sendFrame (bytes : List Byte) (call : TxCall) (s : State) :
    SendFrame s (fgTransmit bytes call s) := by
  obtain ⟨h0, h1, h2, h3, h4, h5, -, h6, -, h7, h8, h9, -⟩ := fgTransmit_frame bytes call s
  exact ⟨h1, h2, h3, h4, h5, h6, fun _ => by rw [fgTransmit_ghost], h7, h8, h9, h0⟩

theorem fgEnqueue_sendFrame (bytes : List Byte) (call : TxCall) (s : State) :
    SendFrame s (fgEnqueue bytes call s) := by
  obtain ⟨h0, h1, h2, h3, h4, -, h5, -, h6, h7, h8, -⟩ := fgEnqueue_frame bytes call s
  exact ⟨h1, h2, congrArg _ h3, h4 ▸ List.prefix_rfl, congrArg _ h4, congrArg _ h5, h5 ▸ id, h6,
    h7, h8, h0⟩

/-- The request for the next byte of a line read. -/
theorem asked_sendFrame (e : Exchange) (s : State) : SendFrame s (s.tookRx.exchange e) := by
  constructor <;> simp

theorem rlByte_sendFrame (a n : Nat) (s : State) : SendFrame s (rlByte a n s) := by
  rw [rlByte_eq]
  cases s.nextRx with
  | error =>
    exact (asked_sendFrame (.rxBlocking s.cfg.maxWait .error) s).trans (by constructor <;> simp)
  | ok b =>
    refine (asked_sendFrame (.rxBlocking s.cfg.maxWait (.ok b)) s).trans ?_
    dsimp only
    split
    · constructor <;> simp
    · exact SendFrame.trans (by constructor <;> simp) (fgTransmit_sendFrame _ _ _)

theorem rlFinish_sendFrame (a n : Nat) (sawCR : Bool) (s : State) :
    SendFrame s (rlFinish a n sawCR s) := by
  unfold rlFinish
  cases sawCR with
  | true => exact fgTransmit_sendFrame _ _ _
  | false => exact SendFrame.trans (by constructor <;> simp) (fgTransmit_sendFrame _ _ _)

/-! ### The frame of every move -/

/-- What holds across every move, of any agent. -/
structure StepFrame (s t : State) : Prop where
  cfg : t.cfg = s.cfg
  wire : s.obs.wire <+: t.obs.wire
  cbCount : s.obs.cbCount ≤ t.obs.cbCount
  used : s.ghost.xportUsed = true → t.ghost.xportUsed = true

theorem SendFrame.stepFrame (h : SendFrame s t) : StepFrame s t :=
  ⟨h.cfg, h.wire, h.cbCount.ge, h.used⟩

theorem afterByte_cbCount (c : Nat) (s u : State) :
    u.obs.cbCount ≤ (afterByte c s u).obs.cbCount := by
  obtain ⟨k, -, e⟩ | ⟨-, e⟩ := afterByte_cases c s u <;> rw [e]
  · rw [State.endReception_obs]
    split
    · exact Nat.le_succ _
    · exact le_rfl
  · exact le_rfl

theorem afterByte_used (c : Nat) (s : State) (h : u.ghost.xportUsed = true) :
    (afterByte c s u).ghost.xportUsed = true := by
  obtain ⟨k, -, e⟩ | ⟨-, e⟩ := afterByte_cases c s u <;> rw [e]
  · simpa using h
  · rfl

theorem received_stepFrame (c : Nat) (s : State) : StepFrame s (received c s) := by
  obtain ⟨-, kcfg, -, -, -, -, -, -, kcount, kghost, -, -⟩ :=
    transmit_frame (echoOf c s) (s.clearPending .rxc)
  have kwire := (transmit_extends (echoOf c s) (s.clearPending .rxc)).1
  exact {
    cfg := (afterByte_cfg _ _ _).trans kcfg
    wire := by
      rw [received, afterByte_wire]
      exact kwire
    cbCount := kcount.ge.trans (afterByte_cbCount _ _ _)
    used := fun _ => afterByte_used _ _ (by rw [kghost]) }

theorem drain_stepFrame (hx : s.xp.txActive = false) : StepFrame s (drain s) := by
  unfold drain
  dsimp only
  rw [xportTxBlocking_idle _ (by exact hx)]
  exact ⟨by simp, by simp, by simp, fun _ => rfl⟩

theorem Move.frame {turn : Turn} {issued : Option Instr} (h : Move s turn issued t) :
    StepFrame s t := by
  cases h with
  | pass => exact ⟨rfl, List.prefix_rfl, le_rfl, id⟩
  | store => exact ⟨rfl, List.prefix_rfl, le_rfl, id⟩
  | illegal => exact ⟨rfl, List.prefix_rfl, le_rfl, id⟩
  | ring idle isRing effect =>
    obtain ⟨hcfg, -, -, -, -, hghost, hobs, -, -⟩ := effect.beside
    exact ⟨hcfg, hobs ▸ List.prefix_rfl, hobs ▸ le_rfl, hghost ▸ id⟩
  | answer => exact ⟨rfl, List.prefix_rfl, le_rfl, id⟩
  | setIe => exact ⟨rfl, List.prefix_rfl, le_rfl, id⟩
  | declare => exact ⟨rfl, List.prefix_rfl, le_rfl, id⟩
  | start => exact ⟨rfl, List.prefix_rfl, le_rfl, fun _ => rfl⟩
  | beginLine => exact ⟨rfl, List.prefix_rfl, le_rfl, id⟩
  | send => exact (fgTransmit_sendFrame _ _ _).stepFrame
  | sendSync => exact (fgTransmit_sendFrame _ _ _).stepFrame
  | readByte => exact (rlByte_sendFrame _ _ _).stepFrame
  | finishLine => exact (rlFinish_sendFrame _ _ _ _).stepFrame
  | enqueue => exact (fgEnqueue_sendFrame _ _ _).stepFrame
  | arrive => exact ⟨rfl, List.prefix_rfl, le_rfl, id⟩
  | raiseTxc => exact ⟨rfl, List.prefix_rfl, le_rfl, id⟩
  | receive => exact received_stepFrame _ _
  | txcIdle => exact ⟨rfl, List.prefix_rfl, le_rfl, id⟩
  | txcDrain =>
    obtain ⟨hcfg, hwire, hcount, hused⟩ := drain_stepFrame (s := { s with
      arb := { s.arb with pendTxc := false }
      xp := { s.xp with txActive := false } }) rfl
    exact ⟨hcfg, hwire, hcount, hused⟩

theorem step_frame (h : step s = .next t) : StepFrame s t := by
  obtain ⟨sched, prog, issued, hmove, -⟩ := step_move h
  obtain ⟨hcfg, hwire, hcount, hused⟩ := hmove.frame
  exact ⟨hcfg, hwire, hcount, hused⟩

/-- Settles O16. -/
theorem stepKeepsConfiguration : Obligations.StepKeepsConfiguration :=
  fun _ _ h => (step_frame h).cfg

/-- Settles O17. -/
theorem observationsOnlyGrow : Obligations.ObservationsOnlyGrow :=
  fun _ _ h => ⟨(step_frame h).wire, (step_frame h).cbCount⟩

/-! ### The pending bits -/

theorem received_arb (c : Nat) (s : State) :
    (received c s).arb = { s.arb with pendRxc := false } := by
  obtain ⟨-, -, -, harb, -⟩ := transmit_frame (echoOf c s) (s.clearPending .rxc)
  rw [received, afterByte_arb, harb]
  rfl

theorem drain_arb (s : State) : (drain s).arb = s.arb := by
  unfold drain xportTxBlocking
  dsimp only
  split <;> simp

/-- A pending bit that is 1 before a move is 0 after it only in the delivery of its event. -/
def PendingFallsAtDelivery (turn : Turn) (s t : State) : Prop :=
  (s.arb.pendRxc = true → t.arb.pendRxc = false → turn = .evRxc ∧ s.arb.ie = true) ∧
    (s.arb.pendTxc = true → t.arb.pendTxc = false → turn = .evTxc ∧ s.arb.ie = true)

theorem pendingFalls_of_same {turn : Turn} (hr : t.arb.pendRxc = s.arb.pendRxc)
    (ht : t.arb.pendTxc = s.arb.pendTxc) : PendingFallsAtDelivery turn s t :=
  ⟨fun h h' => (nomatch h.symm.trans (hr.symm.trans h')),
    fun h h' => (nomatch h.symm.trans (ht.symm.trans h'))⟩

theorem pendingFalls_of_arb {turn : Turn} (h : t.arb = s.arb) : PendingFallsAtDelivery turn s t :=
  pendingFalls_of_same (congrArg _ h) (congrArg _ h)

theorem Move.pendingFalls {turn : Turn} {issued : Option Instr} (h : Move s turn issued t) :
    PendingFallsAtDelivery turn s t := by
  cases h with
  | pass => exact pendingFalls_of_arb rfl
  | store => exact pendingFalls_of_arb rfl
  | illegal => exact pendingFalls_of_arb rfl
  | ring idle isRing effect =>
    obtain ⟨-, -, harb, -⟩ := effect.beside
    exact pendingFalls_of_arb harb
  | answer => exact pendingFalls_of_arb rfl
  | setIe => exact pendingFalls_of_same rfl rfl
  | declare => exact pendingFalls_of_arb rfl
  | start => exact pendingFalls_of_arb rfl
  | beginLine => exact pendingFalls_of_arb rfl
  | send => exact pendingFalls_of_arb (fgTransmit_sendFrame _ _ _).arb
  | sendSync => exact pendingFalls_of_arb (fgTransmit_sendFrame _ _ _).arb
  | readByte => exact pendingFalls_of_arb (rlByte_sendFrame _ _ _).arb
  | finishLine => exact pendingFalls_of_arb (rlFinish_sendFrame _ _ _ _).arb
  | enqueue => exact pendingFalls_of_arb (fgEnqueue_sendFrame _ _ _).arb
  | arrive => exact ⟨fun _ h => (nomatch h), fun h h' => (nomatch h.symm.trans h')⟩
  | raiseTxc => exact ⟨fun h h' => (nomatch h.symm.trans h'), fun _ h => (nomatch h)⟩
  | @receive c pending enabled =>
    have harb := received_arb c s
    exact ⟨fun _ _ => ⟨rfl, enabled⟩, fun h h' => by rw [harb] at h'; exact nomatch h.symm.trans h'⟩
  | txcIdle pending enabled =>
    exact ⟨fun h h' => (nomatch h.symm.trans h'), fun _ _ => ⟨rfl, enabled⟩⟩
  | txcDrain pending enabled =>
    refine ⟨fun h h' => ?_, fun _ _ => ⟨rfl, enabled⟩⟩
    rw [drain_arb] at h'
    exact nomatch h.symm.trans h'

/-- Settles O23: the two bits over every move. -/
theorem pendingBitFallsOnlyAtDelivery : Obligations.PendingBitFallsOnlyAtDelivery := by
  intro s t h
  obtain ⟨sched, prog, issued, hmove, -⟩ := step_move h
  exact hmove.pendingFalls

end Sys2Proof.Machine

/-! SUPPORT. Events that wait and the set-up window (60_exceptions.md R169; 70_reset_and_hazards.md
R188), what a delivery leaves of the foreground (60_exceptions.md R173), the mark of a refused run
(30_encoding.md R78), and nested critical sections (44_critical_section.md R157). -/

namespace Sys2Proof.Machine

variable {s t u : State}

/-! ### Events that wait -/

theorem execEvRxc_waits (h : s.arb.pendRxc = false ∨ s.arb.ie = false) :
    exec .evRxc s = .next s :=
  deliver_waits (by simpa [State.deliverable, State.rxcDeliverable, or_iff_not_imp_left] using h)

theorem execEvTxc_waits (h : s.arb.pendTxc = false ∨ s.arb.ie = false) :
    exec .evTxc s = .next s :=
  deliver_waits (by simpa [State.deliverable, State.txcDeliverable, or_iff_not_imp_left] using h)

/-! ### The set-up window -/

/-- The moves that make a request of the transport in the set-up window: a step of a line read in
progress, or `RX_START`, `TX_TRANSMIT` or `TX_WRITE_SYNC` (70_reset_and_hazards.md R188). -/
def ClosesWindow (s : State) (turn : Turn) (issued : Option Instr) : Prop :=
  turn = .fg ∧ ((∃ a n phase, s.fg = .readLine a n phase) ∨
    ∃ i, issued = some i ∧ i.opcode ∈ [some 0x11, some 0x20, some 0x21])

/-- Where no event is pending, only those moves close the window. -/
theorem Move.closesWindow {turn : Turn} {issued : Option Instr} (h : Move s turn issued t)
    (hr : s.arb.pendRxc = false) (ht : s.arb.pendTxc = false) (hu : s.ghost.xportUsed = false)
    (hu' : t.ghost.xportUsed = true) : ClosesWindow s turn issued := by
  have kept : t.ghost.xportUsed = s.ghost.xportUsed → ClosesWindow s turn issued :=
    fun e => nomatch hu.symm.trans (e.symm.trans hu')
  cases h with
  | pass => exact kept rfl
  | store => exact kept rfl
  | illegal => exact kept rfl
  | ring idle isRing effect =>
    obtain ⟨-, -, -, -, -, hghost, -⟩ := effect.beside
    exact kept (congrArg _ hghost)
  | answer => exact kept rfl
  | setIe => exact kept rfl
  | declare => exact kept rfl
  | start => exact ⟨rfl, .inr ⟨_, rfl, by simp [Instr.opcode]⟩⟩
  | beginLine => exact kept rfl
  | send => exact ⟨rfl, .inr ⟨_, rfl, by simp [Instr.opcode]⟩⟩
  | sendSync => exact ⟨rfl, .inr ⟨_, rfl, by simp [Instr.opcode]⟩⟩
  | readByte reading => exact ⟨rfl, .inl ⟨_, _, _, reading⟩⟩
  | finishLine reading => exact ⟨rfl, .inl ⟨_, _, _, reading⟩⟩
  | enqueue =>
    obtain ⟨-, -, -, -, -, -, hghost, -⟩ := fgEnqueue_frame _ _ s
    exact kept (congrArg _ hghost)
  | arrive => exact kept rfl
  | raiseTxc => exact kept rfl
  | receive pending => exact nomatch hr.symm.trans pending
  | txcIdle => exact kept rfl
  | txcDrain pending => exact nomatch ht.symm.trans pending

/-- An issued command carries its opcode. -/
theorem State.issues.fieldOp {i : Instr} (h : s.issues i) : ∃ w rest,
    s.env.prog = .cmd w :: rest ∧ some (fieldOp w) = i.opcode := by
  obtain ⟨-, -, w, rest, hprog, hdec⟩ := h
  exact ⟨w, rest, hprog, fieldOp_of_decodeCmd hdec⟩

/-- Settles O24: the invariants say which events the window can have; a step closes it only by a
move that makes a request, and no move opens it. -/
theorem undeliverableEventWaits : Obligations.UndeliverableEventWaits := by
  refine ⟨fun s => ⟨execEvRxc_waits, execEvTxc_waits⟩, fun s hs hu => ?_, fun s hs hu hoff => ?_,
    fun s t hstep => (step_frame hstep).used⟩
  · obtain ⟨-, hr, ha, hq⟩ := hs.setUp hu
    refine ⟨hr, execEvRxc_waits (.inl hr), fun hp => ⟨hs.spurious hp ha, ?_⟩⟩
    cases hon : s.cfg.spuriousInSetUp with
    | true => rfl
    | false => exact nomatch (hq hon).symm.trans hp
  · obtain ⟨-, hr, ha, hq⟩ := hs.setUp hu
    have hp : s.arb.pendTxc = false := by
      cases hp : s.arb.pendTxc with
      | false => rfl
      | true =>
        obtain hoff | hoff := hoff
        · exact nomatch hoff.symm.trans (hs.spurious hp ha)
        · exact nomatch (hq hoff).symm.trans hp
    refine ⟨hp, execEvTxc_waits (.inl hp), fun t hstep hu' => ?_⟩
    obtain ⟨sched, prog, issued, hmove, hissued⟩ := step_move hstep
    obtain ⟨hturn, hline | ⟨i, hi, hop⟩⟩ := hmove.closesWindow hr hp hu hu'
    · exact ⟨hturn, .inl hline⟩
    · obtain ⟨w, rest, hprog, hw⟩ := (hissued i hi).fieldOp
      refine ⟨hturn, .inr ⟨(hissued i hi).2.1, w, rest, hprog, ?_⟩⟩
      rw [← hw] at hop
      simpa using hop

/-- Settles O25, by the frames of the two deliveries. -/
theorem eventLeavesForegroundAsItWas : Obligations.EventLeavesForegroundAsItWas := by
  rintro s t i (rfl | rfl) h
  · obtain ⟨-, -, hie, -, hfg, hmem, henv, harmed, hlen, hres, -, -⟩ := execEvRxc_frame h
    exact ⟨hfg, hie, harmed, hlen, hmem, hres, congrArg _ henv, congrArg _ henv⟩
  · obtain ⟨-, -, hie, -, hfg, hmem, hprog, hsched, harmed, hdrv, hres, -⟩ := execEvTxc_frame h
    exact ⟨hfg, hie, harmed, congrArg _ hdrv, hmem, hres, hprog, hsched⟩

/-! ### The mark of a refused run -/

theorem xpRxArrive_runRefused (b : Byte) (s : State) :
    (xpRxArrive b s).runRefused = s.runRefused := by
  obtain ⟨-, e⟩ | ⟨c, -, e⟩ := xpRxArrive_cases b s <;> rw [e]

theorem xpTxDone_runRefused (s : State) : (xpTxDone s).runRefused = s.runRefused := by
  obtain e | ⟨-, -, e⟩ := xpTxDone_cases s <;> rw [e]

theorem xpTxSpurious_runRefused (s : State) : (xpTxSpurious s).runRefused = s.runRefused := by
  obtain ⟨-, e⟩ | ⟨-, -, -, -, e⟩ := xpTxSpurious_cases s <;> rw [e]

/-- The next step of the foreground issues an opcode outside the map. -/
def State.issuesIllegal (s : State) : Prop :=
  s.turn = .fg ∧ s.fg = .idle ∧
    ∃ w rest, s.env.prog = .cmd w :: rest ∧ decodeCmd s.cfg w = .illegal (fieldOp w)

/-- A step marks the run if it issues an opcode outside the map, and keeps the mark otherwise. -/
theorem step_runRefused (h : step s = .next t) :
    (s.issuesIllegal ∧ t.runRefused = true) ∨
      (¬ s.issuesIllegal ∧ t.runRefused = s.runRefused) := by
  obtain ⟨hturn, hfg⟩ | hother := step_next h
  · obtain ⟨-, hprog, rfl⟩ | ⟨-, a, b, rest, hprog, -, -, rfl⟩ | ⟨idle, w, rest, hprog, hdec, rfl⟩ |
      ⟨-, w, rest, i, hprog, hdec, hexec⟩ | ⟨a, n, hform, rfl⟩ | ⟨a, n, sawCR, hform, rfl⟩ |
      ⟨bytes, call, hform, rfl⟩ := fgTurn_next hfg
    · exact .inr ⟨fun ⟨_, _, w, rest, h, _⟩ => (nomatch hprog.symm.trans h), rfl⟩
    · exact .inr ⟨fun ⟨_, _, w, rest, h, _⟩ => (nomatch hprog.symm.trans h), rfl⟩
    · exact .inl ⟨⟨hturn, idle, w, rest, hprog, hdec⟩, rfl⟩
    · refine .inr ⟨fun ⟨_, _, w', rest', h, hdec'⟩ => ?_,
        exec_runRefused (s := s.issued rest) hexec⟩
      obtain ⟨rfl, rfl⟩ : w = w' ∧ rest = rest' := by simpa using hprog.symm.trans h
      exact nomatch hdec.symm.trans hdec'
    · exact .inr ⟨fun ⟨_, h, _⟩ => (nomatch hform.symm.trans h),
        (rlByte_sendFrame _ _ _).runRefused⟩
    · exact .inr ⟨fun ⟨_, h, _⟩ => (nomatch hform.symm.trans h),
        (rlFinish_sendFrame _ _ _ _).runRefused⟩
    · exact .inr ⟨fun ⟨_, h, _⟩ => (nomatch hform.symm.trans h),
        (fgEnqueue_sendFrame _ _ _).runRefused⟩
  · obtain ⟨b, hturn, rfl⟩ | ⟨hturn, rfl⟩ | ⟨hturn, rfl⟩ | ⟨hturn, hev⟩ | ⟨hturn, hev⟩ := hother <;>
      refine .inr ⟨fun ⟨h, _⟩ => (nomatch hturn.symm.trans h), ?_⟩
    · exact xpRxArrive_runRefused b _
    · exact xpTxDone_runRefused _
    · exact xpTxSpurious_runRefused _
    · exact exec_runRefused (s := s.beginStep) (i := .evRxc) hev
    · exact exec_runRefused (s := s.beginStep) (i := .evTxc) hev

/-- Settles O9: the step of an illegal word is `illegalOpcode`, and a step marks the run only so. -/
theorem illegalOpcodeChangesNothing : Obligations.IllegalOpcodeChangesNothing := by
  refine ⟨fun s w rest hturn hfg hprog hdec => ?_, fun s t hstep => ?_⟩
  · rw [step_command hturn hfg hprog, issue_illegal (by exact hdec)]
    rfl
  · obtain ⟨hill, ht⟩ | ⟨hill, ht⟩ := step_runRefused hstep
    · exact iff_of_true ht (.inr hill)
    · rw [ht]
      exact ⟨.inl, fun h => h.resolve_right hill⟩

/-! ### Nested critical sections -/

/-- A turn of any agent that issues no command keeps `ie`. -/
theorem step_keeps_ie (hturn : s.turn ≠ .fg ∨ s.fg ≠ .idle) (h : step s = .next t) :
    t.arb.ie = s.arb.ie := by
  by_contra hne
  obtain ⟨h1, h2, -⟩ := onlyCriticalSectionCommandsChangeIe s t h hne
  exact hturn.elim (· h1) (· h2)

theorem exec_keeps_ie {i : Instr} (notEnter : i ≠ .csEnter) (notExit : ∀ b, i ≠ .csExit b)
    (h : exec i s = .next t) : t.arb.ie = s.arb.ie := by
  obtain e | e | ⟨b, e⟩ := exec_ie h
  · exact e
  · exact absurd e notEnter
  · exact absurd e (notExit b)

/-- `CS_ENTER` masks, and returns what its `CS_EXIT` puts back (44_critical_section.md R155, R156).
-/
theorem section_ie {v w : State} {value : Nat} (enter : exec .csEnter s = .next t)
    (returned : t.ports.res = some { status := .ok, value := value })
    (leave : exec (.csExit (bitZero value)) v = .next w) :
    t.arb.ie = false ∧ w.arb.ie = s.arb.ie := by
  cases enter
  cases leave
  cases returned
  exact ⟨rfl, bitZero_toNat s.arb.ie⟩

/-- A run whose sections are matched gives `ie` back, and one that begins masked is masked
throughout. -/
theorem bracketed_ie {passed : List State} (h : Bracketed s passed t) :
    t.arb.ie = s.arb.ie ∧ (s.arb.ie = false → ∀ x ∈ passed, x.arb.ie = false) := by
  induction h with
  | done s => exact ⟨rfl, fun _ x hx => (nomatch hx)⟩
  | other i notEnter notExit run rest ih =>
    obtain ⟨hend, hall⟩ := ih
    have hkeep := exec_keeps_ie notEnter notExit run
    exact ⟨hend.trans hkeep, fun h0 => List.forall_mem_cons.2
      ⟨hkeep.trans h0, hall (hkeep.trans h0)⟩⟩
  | turn noCommand run rest ih =>
    obtain ⟨hend, hall⟩ := ih
    have hkeep := step_keeps_ie noCommand run
    exact ⟨hend.trans hkeep, fun h0 => List.forall_mem_cons.2
      ⟨hkeep.trans h0, hall (hkeep.trans h0)⟩⟩
  | nested value enter returned inside leave rest ihInside ihRest =>
    obtain ⟨hmasked, hback⟩ := section_ie enter returned leave
    refine ⟨ihRest.1.trans hback, fun h0 => ?_⟩
    refine List.forall_mem_append.2 ⟨List.forall_mem_cons.2 ⟨hmasked, ihInside.2 hmasked⟩, ?_⟩
    exact List.forall_mem_cons.2 ⟨hback.trans h0, ihRest.2 (hback.trans h0)⟩

/-- Settles O21, by the law of a matched run, used within the section. -/
theorem nestedSectionsRestoreIe : Obligations.NestedSectionsRestoreIe := by
  refine ⟨fun s t passed h => (bracketed_ie h).1,
    fun s t u v within value enter returned inside leave => ?_⟩
  obtain ⟨hmasked, hback⟩ := section_ie enter returned leave
  obtain ⟨hend, hall⟩ := bracketed_ie inside
  exact ⟨List.forall_mem_cons.2 ⟨hmasked, hall hmasked⟩, hend.trans hmasked, hback⟩

/-! ### The loan -/

/-- A byte on loan is not written by a write off the loan. -/
theorem read_writeSpan_off_loan {a x : Nat} {v : List Byte} (hx : s.onLoan x = true)
    (hoff : s.spanOnLoan a v.length = false) :
    Memory.read (Memory.writeSpan s.mem a v) x = Memory.read s.mem x := by
  refine Memory.read_writeSpan_other v s.mem a x fun ⟨h1, h2⟩ => ?_
  rw [spanOnLoan_eq_true.2 ⟨x, h1, h2, hx⟩] at hoff
  cases hoff

theorem fgTransmit_mem (bytes : List Byte) (call : TxCall) (s : State) :
    (fgTransmit bytes call s).mem = s.mem := by
  obtain ⟨-, -, -, -, -, -, h, -⟩ := fgTransmit_frame bytes call s
  exact h

theorem fgEnqueue_mem (bytes : List Byte) (call : TxCall) (s : State) :
    (fgEnqueue bytes call s).mem = s.mem := by
  obtain ⟨-, -, -, -, -, h, -⟩ := fgEnqueue_frame bytes call s
  exact h

/-- A move of the foreground outside a line read writes no byte on loan. -/
theorem Move.keeps_loan {issued : Option Instr} (h : Move s .fg issued t)
    (hline : s.fg.inLine = false) {x : Nat} (hx : s.onLoan x = true) :
    Memory.read t.mem x = Memory.read s.mem x := by
  cases h with
  | pass => rfl
  | @store a v idle fits free =>
    exact read_writeSpan_off_loan hx (a := a) (v := [v]) ((Bool.or_false _).trans free)
  | illegal => rfl
  | ring idle isRing effect =>
    obtain hm | ⟨a, v, -, hoff, hm⟩ := effect.mem <;> rw [hm]
    exact read_writeSpan_off_loan hx hoff
  | answer => rfl
  | setIe => rfl
  | declare => rfl
  | start => rfl
  | beginLine => rfl
  | send => rw [fgTransmit_mem]
  | sendSync => rw [fgTransmit_mem]
  | readByte reading => rw [reading] at hline; cases hline
  | finishLine reading => rw [reading] at hline; cases hline
  | enqueue => rw [fgEnqueue_mem]
  | raiseTxc agent => obtain h | h := agent <;> cases h

/-- Settles O39: outside a line read every write of the foreground is off the loan. -/
theorem loanedBytesAreNotWrittenByForeground :
    Obligations.LoanedBytesAreNotWrittenByForeground := by
  intro s t x hturn hline hx hstep
  obtain ⟨sched, prog, issued, hmove, -⟩ := step_move hstep
  rw [hturn] at hmove
  exact hmove.keeps_loan hline hx

end Sys2Proof.Machine

/-! SUPPORT. The reception over one step: its state machine (41_reception.md R120), `busy`
(70_reset_and_hazards.md R201) and the notification (41_reception.md R122). -/

namespace Sys2Proof.Machine

variable {s t u : State}

/-! ### The forms of the reception state (10_state.md R20) -/

theorem rxState_congr (hb : t.drv.busy = s.drv.busy) (hl : t.fg.inLine = s.fg.inLine)
    (ha : t.ghost.armed = s.ghost.armed) : t.rxState = s.rxState := by
  unfold State.rxState
  rw [hb, hl, ha]

theorem rxState_blockingRead (hb : s.drv.busy = true) (hl : s.fg.inLine = true) :
    s.rxState = .blockingRead := by simp [State.rxState, hb, hl]

theorem rxState_receiving (hb : s.drv.busy = true) (hl : s.fg.inLine = false) :
    s.rxState = .receiving := by simp [State.rxState, hb, hl]

theorem rxState_armed (hb : s.drv.busy = false) (ha : s.ghost.armed = true) :
    s.rxState = .armed := by simp [State.rxState, hb, ha]

theorem rxState_idle (hb : s.drv.busy = false) (ha : s.ghost.armed = false) :
    s.rxState = .idle := by simp [State.rxState, hb, ha]

theorem busy_of_rxState_receiving (h : s.rxState = .receiving) : s.drv.busy = true := by
  cases hb : s.drv.busy with
  | true => rfl
  | false => cases ha : s.ghost.armed <;> simp [State.rxState, hb, ha] at h

/-! ### Foreground transmissions and the steps of a line read -/

/-- The line read goes on, or the driver is free. -/
def LineGoesOn (s t : State) : Prop :=
  (t.drv.busy = s.drv.busy ∧ t.fg.inLine = true) ∨ t.drv.busy = false

theorem afterTransmit_line {call : TxCall} (hc : call.inLine = true) (st : Status) (s : State) :
    LineGoesOn s (afterTransmit call st s) := by
  cases call with
  | transmit => cases hc
  | writeSync n => cases hc
  | echo a n => exact .inl ⟨rfl, rfl⟩
  | line stored => exact .inr rfl

theorem fgTransmit_line {call : TxCall} (hc : call.inLine = true) (bytes : List Byte) (s : State) :
    LineGoesOn s (fgTransmit bytes call s) := by
  obtain ⟨-, e⟩ | ⟨-, -, -, e⟩ | ⟨-, -, -, e⟩ | ⟨-, -, e⟩ :=
    fgTransmit_cases bytes call s <;> rw [e]
  · exact afterTransmit_line hc _ (acceptedTx bytes s)
  · exact afterTransmit_line hc _ (s.exchange (.txAsync bytes .busy))
  · exact afterTransmit_line hc _ { s.exchange (.txAsync bytes .busy) with
      ring := s.ring.pushAll s.cfg.cap bytes }
  · exact .inl ⟨rfl, (Fg.inLine_enqueue bytes call).trans hc⟩

theorem rlByte_line (a n : Nat) (s : State) : LineGoesOn s (rlByte a n s) := by
  rw [rlByte_eq]
  cases s.nextRx with
  | error => exact .inr rfl
  | ok b =>
    dsimp only
    split
    · exact .inl ⟨by simp, rfl⟩
    · have h := fgTransmit_line (call := .echo a n) rfl [b]
        ((s.tookRx.exchange (.rxBlocking s.cfg.maxWait (.ok b))).writeMem
          (a + s.drv.receivedCount) [b])
      simpa [LineGoesOn] using h

theorem rlFinish_line (a n : Nat) (sawCR : Bool) (s : State) :
    LineGoesOn s (rlFinish a n sawCR s) := by
  unfold rlFinish
  cases sawCR with
  | true => exact fgTransmit_line rfl _ s
  | false => exact fgTransmit_line rfl _ (s.writeMem (a + n - 1) [s.cfg.cr])

theorem fgEnqueue_line {call : TxCall} (hc : call.inLine = true) (bytes : List Byte) (s : State) :
    LineGoesOn s (fgEnqueue bytes call s) := by
  obtain ⟨-, e⟩ | ⟨-, e⟩ := fgEnqueue_cases bytes call s <;> rw [e]
  · exact afterTransmit_line hc _ s
  · exact afterTransmit_line hc _ { s with ring := s.ring.pushAll s.cfg.cap bytes }

/-- A transmission command is no line read and leaves the driver alone. -/
theorem afterTransmit_command {call : TxCall} (hc : call.inLine = false) (st : Status) (s : State) :
    (afterTransmit call st s).drv = s.drv ∧ (afterTransmit call st s).fg = .idle := by
  unfold afterTransmit
  cases call with
  | transmit => exact ⟨rfl, rfl⟩
  | writeSync n => dsimp only; split <;> exact ⟨rfl, rfl⟩
  | echo a n => cases hc
  | line stored => cases hc

theorem fgTransmit_command {call : TxCall} (hc : call.inLine = false) (bytes : List Byte)
    (s : State) : (fgTransmit bytes call s).drv = s.drv ∧
      (fgTransmit bytes call s).fg.inLine = false := by
  have after : ∀ st u, u.drv = s.drv →
      (afterTransmit call st u).drv = s.drv ∧ (afterTransmit call st u).fg.inLine = false := by
    intro st u hu
    obtain ⟨hdrv, hfg⟩ := afterTransmit_command hc st u
    exact ⟨hdrv.trans hu, not_inLine_of_idle hfg⟩
  obtain ⟨-, e⟩ | ⟨-, -, -, e⟩ | ⟨-, -, -, e⟩ | ⟨-, -, e⟩ :=
    fgTransmit_cases bytes call s <;> rw [e]
  · exact after _ _ rfl
  · exact after _ _ rfl
  · exact after _ _ rfl
  · exact ⟨rfl, (Fg.inLine_enqueue bytes call).trans hc⟩

theorem fgEnqueue_command {call : TxCall} (hc : call.inLine = false) (bytes : List Byte)
    (s : State) : (fgEnqueue bytes call s).drv = s.drv ∧ (fgEnqueue bytes call s).fg = .idle := by
  obtain ⟨-, e⟩ | ⟨-, e⟩ := fgEnqueue_cases bytes call s <;> rw [e]
  · exact afterTransmit_command hc _ s
  · exact afterTransmit_command hc _ { s with ring := s.ring.pushAll s.cfg.cap bytes }

/-! ### The deliveries -/

theorem received_fg (c : Nat) (s : State) : (received c s).fg = s.fg := by
  obtain ⟨-, -, -, -, -, h, -⟩ := transmit_frame (echoOf c s) (s.clearPending .rxc)
  exact (afterByte_fg _ _ _).trans h

theorem afterByte_armed (c : Nat) (s u : State) :
    (afterByte c s u).ghost.armed = u.ghost.armed := by
  obtain ⟨k, -, e⟩ | ⟨-, e⟩ := afterByte_cases c s u <;> rw [e] <;> simp

theorem received_armed (c : Nat) (s : State) : (received c s).ghost.armed = s.ghost.armed := by
  obtain ⟨-, -, -, -, -, -, -, -, -, h, -⟩ := transmit_frame (echoOf c s) (s.clearPending .rxc)
  exact (afterByte_armed _ _ _).trans (by rw [h]; rfl)

/-- The handler ends the reception with the notification, or goes on with it and notifies nobody
(43_completion_events.md R144). -/
theorem received_notifies (c : Nat) (s : State) :
    ((received c s).drv.busy = false ∧
      (received c s).obs.cbCount = s.obs.cbCount + (if s.cfg.cbPresent then 1 else 0) ∧
      (received c s).ports.rxDone = (s.cfg.cbPresent || s.ports.rxDone)) ∨
    ((received c s).drv.busy = s.drv.busy ∧ (received c s).obs.cbCount = s.obs.cbCount ∧
      (received c s).ports.rxDone = s.ports.rxDone) := by
  obtain ⟨-, kcfg, -, -, -, -, -, -, kcount, -, -, kdone⟩ :=
    transmit_frame (echoOf c s) (s.clearPending .rxc)
  unfold received
  generalize (transmit (echoOf c s) (s.clearPending .rxc)).2 = u at *
  obtain ⟨k, -, e⟩ | ⟨-, e⟩ := afterByte_cases c (s.clearPending .rxc) u <;> rw [e]
  · refine .inl ?_
    simp only [State.endReception_drv, State.endReception_obs, State.endReception_ports,
      State.setCount_cfg, State.setCount_obs, State.setCount_ports, kcfg,
      State.clearPending_rxc_cfg]
    cases s.cfg.cbPresent
    · exact ⟨trivial, kcount, kdone⟩
    · exact ⟨trivial, congrArg (· + 1) kcount, rfl⟩
  · exact .inr ⟨rfl, kcount, kdone⟩

theorem drain_frame (s : State) : (drain s).drv = s.drv ∧ (drain s).fg = s.fg ∧
    (drain s).ghost.armed = s.ghost.armed ∧ (drain s).obs.cbCount = s.obs.cbCount ∧
    (drain s).ports.rxDone = s.ports.rxDone ∧ (drain s).ports.res = s.ports.res := by
  unfold drain xportTxBlocking
  dsimp only
  split <;> simp

/-! ### The state machine -/

/-- The transitions of the table (41_reception.md R120), with the agents of the two that end a
reception. -/
inductive RxEdge : Turn → RxState → RxState → Prop
  | stay (turn : Turn) (x : RxState) : RxEdge turn x x
  | declare : RxEdge .fg .idle .armed
  | start : RxEdge .fg .armed .receiving
  | lineFromIdle : RxEdge .fg .idle .blockingRead
  | lineFromArmed : RxEdge .fg .armed .blockingRead
  | receptionEnds : RxEdge .evRxc .receiving .idle
  | lineEnds : RxEdge .fg .blockingRead .idle

theorem rxEdge_of_same {turn : Turn} (hb : t.drv.busy = s.drv.busy)
    (hl : t.fg.inLine = s.fg.inLine) (ha : t.ghost.armed = s.ghost.armed) :
    RxEdge turn s.rxState t.rxState := by
  rw [rxState_congr hb hl ha]
  exact .stay _ _

/-- A free driver goes to ARMED. -/
theorem rxEdge_to_armed (hb : s.drv.busy = false) (hb' : t.drv.busy = false)
    (ha' : t.ghost.armed = true) : RxEdge .fg s.rxState t.rxState := by
  rw [rxState_armed hb' ha']
  cases ha : s.ghost.armed with
  | true =>
    rw [rxState_armed hb ha]
    exact .stay _ _
  | false =>
    rw [rxState_idle hb ha]
    exact .declare

/-- A free driver goes to BLOCKING_READ. -/
theorem rxEdge_to_blockingRead (hb : s.drv.busy = false) (hb' : t.drv.busy = true)
    (hl' : t.fg.inLine = true) : RxEdge .fg s.rxState t.rxState := by
  rw [rxState_blockingRead hb' hl']
  cases ha : s.ghost.armed with
  | true =>
    rw [rxState_armed hb ha]
    exact .lineFromArmed
  | false =>
    rw [rxState_idle hb ha]
    exact .lineFromIdle

/-- ARMED goes to RECEIVING. -/
theorem rxEdge_to_receiving (hb : s.drv.busy = false) (ha : s.ghost.armed = true)
    (hb' : t.drv.busy = true) (hl' : t.fg.inLine = false) : RxEdge .fg s.rxState t.rxState := by
  rw [rxState_armed hb ha, rxState_receiving hb' hl']
  exact .start

/-- A step within a line read stays in BLOCKING_READ or goes to IDLE. -/
theorem rxEdge_of_line (h : s.Inv) (hl : s.fg.inLine = true) (hline : LineGoesOn s t)
    (ha : t.ghost.armed = s.ghost.armed) : RxEdge .fg s.rxState t.rxState := by
  obtain ⟨hbusy, -, -⟩ := h.inLine hl
  obtain ⟨hb, hl'⟩ | hb := hline
  · exact rxEdge_of_same hb (hl'.trans hl.symm) ha
  · rw [rxState_blockingRead hbusy hl,
      rxState_idle hb (ha.trans (h.unready_of_busy hbusy))]
    exact .lineEnds

theorem Move.rxEdge {turn : Turn} {issued : Option Instr} (h : Move s turn issued t) (hs : s.Inv) :
    RxEdge turn s.rxState t.rxState := by
  cases h with
  | pass => exact .stay _ _
  | store => exact .stay _ _
  | illegal => exact .stay _ _
  | ring idle isRing effect =>
    obtain ⟨-, hdrv, -, -, hfg, hghost, -⟩ := effect.beside
    exact rxEdge_of_same (congrArg _ hdrv) (congrArg _ hfg) (congrArg _ hghost)
  | answer => exact .stay _ _
  | setIe => exact .stay _ _
  | declare idle long free => exact rxEdge_to_armed free free rfl
  | start idle fits free armed =>
    exact rxEdge_to_receiving free armed rfl (not_inLine_of_idle idle)
  | beginLine idle pos fits free => exact rxEdge_to_blockingRead free rfl rfl
  | send idle =>
    obtain ⟨hdrv, hfg⟩ := fgTransmit_command (call := .transmit) rfl _ s
    exact rxEdge_of_same (congrArg _ hdrv) (hfg.trans (not_inLine_of_idle idle).symm)
      (fgTransmit_sendFrame _ _ s).armed
  | @sendSync a n idle =>
    obtain ⟨hdrv, hfg⟩ := fgTransmit_command (call := .writeSync n) rfl _ s
    exact rxEdge_of_same (congrArg _ hdrv) (hfg.trans (not_inLine_of_idle idle).symm)
      (fgTransmit_sendFrame _ _ s).armed
  | readByte reading =>
    exact rxEdge_of_line hs (by rw [reading]; rfl) (rlByte_line _ _ _)
      (rlByte_sendFrame _ _ _).armed
  | finishLine reading =>
    exact rxEdge_of_line hs (by rw [reading]; rfl) (rlFinish_line _ _ _ _)
      (rlFinish_sendFrame _ _ _ _).armed
  | @enqueue bytes call waits =>
    have hline : s.fg.inLine = call.inLine := by rw [waits, Fg.inLine_enqueue]
    cases hc : call.inLine with
    | true =>
      exact rxEdge_of_line hs (hline.trans hc) (fgEnqueue_line hc _ _)
        (fgEnqueue_sendFrame _ _ _).armed
    | false =>
      obtain ⟨hdrv, hfg⟩ := fgEnqueue_command hc bytes s
      exact rxEdge_of_same (congrArg _ hdrv) ((not_inLine_of_idle hfg).trans (hline.trans hc).symm)
        (fgEnqueue_sendFrame _ _ _).armed
  | arrive => exact .stay _ _
  | raiseTxc => exact .stay _ _
  | @receive c pending enabled busy =>
    obtain ⟨-, hline, -, -⟩ := hs.pending pending
    obtain ⟨hb, -⟩ | ⟨hb, -⟩ := received_notifies c s
    · rw [rxState_receiving busy hline,
        rxState_idle hb ((received_armed c s).trans (hs.unready_of_busy busy))]
      exact .receptionEnds
    · exact rxEdge_of_same hb (congrArg _ (received_fg c s)) (received_armed c s)
  | txcIdle => exact .stay _ _
  | txcDrain =>
    obtain ⟨hdrv, hfg, harmed, -⟩ := drain_frame { s with
      arb := { s.arb with pendTxc := false }
      xp := { s.xp with txActive := false } }
    exact rxEdge_of_same (congrArg _ hdrv) (congrArg _ hfg) harmed

theorem step_rxEdge (hs : s.Inv) (h : step s = .next t) : RxEdge s.turn s.rxState t.rxState := by
  obtain ⟨sched, prog, issued, hmove, -⟩ := step_move h
  exact hmove.rxEdge (hs.begun sched prog)

/-- Settles O46: every move follows an edge of the table. -/
theorem receptionStateMachine : Obligations.ReceptionStateMachine := by
  intro s t hs hstep
  have h := step_rxEdge hs hstep
  generalize s.rxState = x at h ⊢
  generalize t.rxState = y at h ⊢
  generalize s.turn = turn at h ⊢
  cases h with
  | stay turn x => cases x <;> simp
  | declare => simp
  | start => simp
  | lineFromIdle => simp
  | lineFromArmed => simp
  | receptionEnds => simp
  | lineEnds => simp

/-- Settles O47: the transport's steps and the transmit handler leave `busy` alone, and the receive
handler only clears it. -/
theorem onlyTheForegroundSetsBusy : Obligations.OnlyTheForegroundSetsBusy := by
  intro s t hturn hstep hbusy
  obtain ⟨h, -⟩ | ⟨b, -, rfl⟩ | ⟨-, rfl⟩ | ⟨-, rfl⟩ | ⟨-, h⟩ | ⟨-, h⟩ := step_next hstep
  · exact absurd h hturn
  · obtain ⟨-, e⟩ | ⟨c, -, e⟩ := xpRxArrive_cases b s.beginStep <;> rw [e] <;> exact hbusy
  · obtain e | ⟨-, -, e⟩ := xpTxDone_cases s.beginStep <;> rw [e] <;> exact hbusy
  · obtain ⟨-, e⟩ | ⟨-, -, -, -, e⟩ := xpTxSpurious_cases s.beginStep <;> rw [e] <;> exact hbusy
  · obtain ⟨-, -, -, -, -, -, -, -, -, -, -, hb⟩ := execEvRxc_frame h
    exact hb hbusy
  · obtain ⟨-, -, -, -, -, -, -, -, -, hdrv, -⟩ := execEvTxc_frame h
    rw [hdrv]
    exact hbusy

/-! ### The notification -/

/-- No notification: neither counted nor emitted, and no reception with a callback ended by the
handler. -/
def Unnotified (turn : Turn) (s t : State) : Prop :=
  t.obs.cbCount = s.obs.cbCount ∧ t.ports.rxDone = s.ports.rxDone ∧
    (turn = .evRxc → s.cfg.cbPresent = true → t.drv.busy = s.drv.busy)

theorem SendFrame.unnotified (h : SendFrame s t) : Unnotified .fg s t :=
  ⟨h.cbCount, h.rxDone, fun e => nomatch e⟩

/-- A move notifies nobody, unless the receive-complete handler ends a reception and a callback is
registered (41_reception.md R122). -/
theorem Move.notifies {turn : Turn} {issued : Option Instr} (h : Move s turn issued t) :
    Unnotified turn s t ∨
    (s.cfg.cbPresent = true ∧ t.obs.cbCount = s.obs.cbCount + 1 ∧ t.ports.rxDone = true ∧
      s.arb.pendRxc = true ∧ t.drv.busy = false) := by
  cases h with
  | pass => exact .inl ⟨rfl, rfl, fun _ _ => rfl⟩
  | store => exact .inl ⟨rfl, rfl, fun _ _ => rfl⟩
  | illegal => exact .inl ⟨rfl, rfl, fun _ _ => rfl⟩
  | ring idle isRing effect =>
    obtain ⟨-, hdrv, -, -, -, -, hobs, -⟩ := effect.beside
    obtain ⟨st, v, hports, -⟩ := effect.result
    exact .inl ⟨congrArg _ hobs, by rw [hports], fun _ _ => congrArg _ hdrv⟩
  | answer => exact .inl ⟨rfl, rfl, fun _ _ => rfl⟩
  | setIe => exact .inl ⟨rfl, rfl, fun _ _ => rfl⟩
  | declare => exact .inl ⟨rfl, rfl, fun _ _ => rfl⟩
  | start => exact .inl ⟨rfl, rfl, fun e => nomatch e⟩
  | beginLine => exact .inl ⟨rfl, rfl, fun e => nomatch e⟩
  | send => exact .inl (fgTransmit_sendFrame _ _ _).unnotified
  | sendSync => exact .inl (fgTransmit_sendFrame _ _ _).unnotified
  | readByte => exact .inl (rlByte_sendFrame _ _ _).unnotified
  | finishLine => exact .inl (rlFinish_sendFrame _ _ _ _).unnotified
  | enqueue => exact .inl (fgEnqueue_sendFrame _ _ _).unnotified
  | arrive => exact .inl ⟨rfl, rfl, fun _ _ => rfl⟩
  | raiseTxc => exact .inl ⟨rfl, rfl, fun _ _ => rfl⟩
  | @receive c pending =>
    obtain ⟨hb, hcount, hdone⟩ | ⟨hb, hcount, hdone⟩ := received_notifies c s
    · cases hcb : s.cfg.cbPresent with
      | true => exact .inr ⟨rfl, by simpa [hcb] using hcount, by simpa [hcb] using hdone,
          pending, hb⟩
      | false =>
        exact .inl ⟨by simpa [hcb] using hcount, by simpa [hcb] using hdone,
          fun _ h => nomatch hcb.symm.trans h⟩
    · exact .inl ⟨hcount, hdone, fun _ _ => hb⟩
  | txcIdle => exact .inl ⟨rfl, rfl, fun _ _ => rfl⟩
  | txcDrain =>
    obtain ⟨hdrv, -, -, hcount, hdone, -⟩ := drain_frame { s with
      arb := { s.arb with pendTxc := false }
      xp := { s.xp with txActive := false } }
    exact .inl ⟨hcount, hdone, fun _ _ => congrArg _ hdrv⟩

/-- Settles O48: a notifying move ends a reception, and of the others only the table's edge out of
RECEIVING could end one. -/
theorem notificationExactlyAtEndOfReception : Obligations.NotificationExactlyAtEndOfReception := by
  intro s t hs hstep
  obtain ⟨sched, prog, issued, hmove, -⟩ := step_move hstep
  have hedge := step_rxEdge hs hstep
  obtain ⟨hcount, hdone, hkept⟩ | ⟨hcb, hcount, hdone, hpend, hb⟩ := hmove.notifies
  · refine .inr ⟨hcount, hdone, fun hcb hrx => ?_⟩
    rw [hrx] at hedge
    generalize hy : t.rxState = y at hedge ⊢
    generalize hturn : s.turn = turn at hedge hkept
    cases hedge with
    | stay => rfl
    | receptionEnds =>
      have hbusy : t.drv.busy = true := (hkept rfl hcb).trans (busy_of_rxState_receiving hrx)
      cases hl : t.fg.inLine with
      | true => exact nomatch hy.symm.trans (rxState_blockingRead hbusy hl)
      | false => exact nomatch hy.symm.trans (rxState_receiving hbusy hl)
  · obtain ⟨hbusy, hline, -, -⟩ := hs.pending hpend
    have hrx := rxState_receiving hbusy hline
    refine .inl ⟨hcount, hdone, hcb, hrx, ?_⟩
    rw [hrx] at hedge
    generalize hy : t.rxState = y at hedge ⊢
    generalize s.turn = turn at hedge
    cases hedge with
    | stay => exact nomatch hb.symm.trans (busy_of_rxState_receiving hy)
    | receptionEnds => rfl

end Sys2Proof.Machine

/-! SUPPORT. Refusals (00_scope.md R10), results (30_encoding.md R75; 60_exceptions.md R160) and the
output stream (42_transmission.md R134) over one step. -/

namespace Sys2Proof.Machine

variable {s t u : State}

/-! ### Who is refused -/

theorem withSpan_refused {a n : Nat} {k : State → Out} {r : Refusal}
    (h : withSpan a n k s = .refused r) : r.callers = true ∨ k s = .refused r := by
  unfold withSpan at h
  split at h
  · exact .inr h
  · cases h
    exact .inl rfl

theorem withExcl_refused {k : State → Out} {r : Refusal} (h : withExcl k s = .refused r) :
    r.callers = true ∨ k s = .refused r := by
  unfold withExcl at h
  split at h
  · exact .inr h
  · cases h
    exact .inl rfl

theorem withoutLoan_refused {a n : Nat} {k : State → Out} {r : Refusal}
    (h : withoutLoan a n k s = .refused r) : r.callers = true ∨ k s = .refused r := by
  unfold withoutLoan at h
  split at h
  · cases h
    exact .inl rfl
  · exact .inr h

theorem sendSpan_refused {a n : Nat} {call : TxCall} {r : Refusal}
    (h : sendSpan a n call s = .refused r) : r.callers = true := by
  unfold sendSpan at h
  split at h
  · cases h
    rfl
  · exact (withSpan_refused h).resolve_right fun h => nomatch h

theorem execRbInit_refused {r : Refusal} (h : execRbInit s = .refused r) : r.callers = true :=
  (withExcl_refused h).resolve_right fun h => nomatch h

theorem execRbWrite_refused {a n : Nat} {r : Refusal} (h : execRbWrite a n s = .refused r) :
    r.callers = true :=
  (withSpan_refused h).resolve_right fun h => nomatch h

theorem execRbRead_refused {a n : Nat} {r : Refusal} (h : execRbRead a n s = .refused r) :
    r.callers = true := by
  obtain h | h := withSpan_refused h
  · exact h
  · exact (withoutLoan_refused h).resolve_right fun h => nomatch h

theorem execRbWriteLin_refused {a n : Nat} {r : Refusal} (h : execRbWriteLin a n s = .refused r) :
    r.callers = true := by
  obtain h | h := withSpan_refused h
  · exact h
  · obtain h | h := withExcl_refused h
    · exact h
    · split at h <;> cases h

theorem execRbReadLin_refused {a n : Nat} {r : Refusal} (h : execRbReadLin a n s = .refused r) :
    r.callers = true := by
  obtain h | h := withSpan_refused h
  · exact h
  · obtain h | h := withExcl_refused h
    · exact h
    · split at h
      · cases h
      · exact (withoutLoan_refused h).resolve_right fun h => nomatch h

theorem execRbFlush_refused {a : Nat} {r : Refusal} (h : execRbFlush a s = .refused r) :
    r.callers = true := by
  obtain h | h := withSpan_refused h
  · exact h
  · exact (withoutLoan_refused h).resolve_right fun h => nomatch h

theorem execRbFlushLin_refused {a : Nat} {r : Refusal} (h : execRbFlushLin a s = .refused r) :
    r.callers = true := by
  obtain h | h := withSpan_refused h
  · exact h
  · obtain h | h := withExcl_refused h
    · exact h
    · exact (withoutLoan_refused h).resolve_right fun h => nomatch h

theorem execRxReadLine_refused {a n : Nat} {r : Refusal} (h : execRxReadLine a n s = .refused r) :
    r.callers = true := by
  unfold execRxReadLine at h
  split at h
  · cases h
    rfl
  · obtain h | h := withSpan_refused h
    · exact h
    · split at h <;> cases h

/-- The arm of `RX_START` is never refused: while the driver is free nothing is armed (20_memory.md
R57). -/
theorem execRxStart_refused (hs : s.Inv) {a : Nat} {r : Refusal}
    (h : execRxStart a s = .refused r) : r.callers = true := by
  obtain h | h := withSpan_refused h
  · exact h
  · split at h
    · cases h
    · next hb =>
      obtain ⟨hx, hp⟩ := hs.unarmed_of_free (by simpa using hb)
      split at h
      · cases h
        rfl
      · rw [armThen_free hx hp] at h
        cases h

/-- The handler always goes on where nothing is armed. -/
theorem receiveByte_completes (c : Nat) (hx : s.xp.rxArmed = none) (hp : s.arb.pendRxc = false) :
    receiveByte c s = .next (afterByte c s (transmit (echoOf c s) s).2) := by
  have key : ∃ t, receiveByte c s = .next t := by
    obtain ⟨-, -, -, karb, kx, -⟩ := transmit_frame [Memory.read s.mem c] s
    unfold receiveByte
    dsimp only
    split
    · exact ⟨_, rfl⟩
    · unfold countAndRearm
      dsimp only
      split
      · rw [armThen_free (by exact kx.trans hx) (by exact (congrArg Arbiter.pendRxc karb).trans hp)]
        exact ⟨_, rfl⟩
      · exact ⟨_, rfl⟩
  obtain ⟨t, ht⟩ := key
  rw [ht, receiveByte_eq_afterByte ht]

/-- Where the event is deliverable with a reception behind it, its delivery completes
(43_completion_events.md R144). -/
theorem execEvRxc_completes {c : Nat} (hp : s.arb.pendRxc = true) (hie : s.arb.ie = true)
    (hb : s.drv.busy = true) (hc : s.drv.cursor = some c) (hx : s.xp.rxArmed = none) :
    execEvRxc s = .next (received c s) := by
  rw [execEvRxc, deliver_enabled (by simp [State.deliverable, State.rxcDeliverable, hp, hie]),
    handleRxc, State.clearPending_rxc_drv, hc]
  dsimp only
  rw [if_pos hb]
  exact receiveByte_completes c hx rfl

/-- From a state with the invariants a receive-complete event has its reception behind it. -/
theorem execEvRxc_not_refused (hs : s.Inv) (r : Refusal) : execEvRxc s ≠ .refused r := by
  intro h
  cases hp : s.arb.pendRxc with
  | false => exact nomatch (execEvRxc_waits (.inl hp)).symm.trans h
  | true =>
    cases hie : s.arb.ie with
    | false => exact nomatch (execEvRxc_waits (.inr hie)).symm.trans h
    | true =>
      obtain ⟨hb, -, hx, hc⟩ := hs.pending hp
      obtain ⟨c, hc⟩ := Option.ne_none_iff_exists'.1 hc
      exact nomatch (execEvRxc_completes hp hie hb hc hx).symm.trans h

theorem execEvTxc_not_refused (r : Refusal) : execEvTxc s ≠ .refused r := by
  unfold execEvTxc deliver handleTxc
  split <;> exact fun h => nomatch h

theorem exec_refused (hs : s.Inv) {i : Instr} {r : Refusal} (h : exec i s = .refused r) :
    r.callers = true := by
  cases i with
  | rbInit => exact execRbInit_refused h
  | rbIsEmpty => cases h
  | rbIsFull => cases h
  | rbFreeSpace => cases h
  | rbWrite => exact execRbWrite_refused h
  | rbRead => exact execRbRead_refused h
  | rbWriteLin => exact execRbWriteLin_refused h
  | rbReadLin => exact execRbReadLin_refused h
  | rbFlush => exact execRbFlush_refused h
  | rbFlushLin => exact execRbFlushLin_refused h
  | rxInit =>
    unfold exec execRxInit at h
    dsimp only at h
    split_ifs at h
  | rxStart => exact execRxStart_refused hs h
  | rxReadLine => exact execRxReadLine_refused h
  | drvStatus => cases h
  | txTransmit => exact sendSpan_refused h
  | txWriteSync => exact sendSpan_refused h
  | csEnter => cases h
  | csExit => cases h
  | evRxc => exact absurd h (execEvRxc_not_refused hs r)
  | evTxc => exact absurd h (execEvTxc_not_refused r)

/-- A turn of the foreground is refused in a command or in a store. -/
theorem fgTurn_refused (hs : s.Inv) {r : Refusal} (h : fgTurn s = .refused r) :
    r.callers = true := by
  unfold fgTurn at h
  split at h
  · unfold fgIssue at h
    split at h
    · cases h
    · next w rest hprog =>
      unfold issue at h
      split at h
      · exact exec_refused (s := { s with env := { s.env with prog := rest } })
          (hs.congr rfl rfl rfl rfl rfl rfl rfl rfl rfl) h
      · cases h
      · cases h
      · cases h
    · next a b rest hprog =>
      obtain h | h := withSpan_refused h
      · exact h
      · exact (withoutLoan_refused h).resolve_right fun h => nomatch h
  · cases h
  · cases h
  · cases h

/-- Settles O15: the transport's steps always happen, and a refusal of the foreground or of a
delivery is the caller's. -/
theorem onlyTheCallerIsRefused : Obligations.OnlyTheCallerIsRefused := by
  intro s r hs h
  have hb : s.beginStep.Inv := hs.begun _ _
  unfold step takeTurn at h
  split at h
  · exact fgTurn_refused hb h
  · cases h
  · cases h
  · cases h
  · exact exec_refused hb h
  · exact exec_refused hb h

/-! ### Result values -/

/-- The value that a call presents fits a length operand. -/
def TxCall.valueOk (c : Config) : TxCall → Prop
  | .transmit => True
  | .writeSync n => n < 2 ^ c.lenW
  | .echo _ _ => True
  | .line stored => stored < 2 ^ c.lenW

theorem afterTransmit_res {call : TxCall} {st : Status} {r : Result} (hv : call.valueOk s.cfg)
    (hquiet : s.ports.res = none) (h : (afterTransmit call st s).ports.res = some r) :
    valueFits s.cfg r.value := by
  unfold afterTransmit at h
  cases call with
  | transmit =>
    cases h
    exact valueFits_zero _
  | writeSync n =>
    dsimp only at h
    split at h <;> cases h
    · exact valueFits_of_lt_lenW hv
    · exact valueFits_minusOne _
  | echo a n => exact nomatch hquiet.symm.trans h
  | line stored =>
    cases h
    exact valueFits_of_lt_lenW hv

theorem fgTransmit_res {bytes : List Byte} {call : TxCall} {r : Result} (hv : call.valueOk s.cfg)
    (hquiet : s.ports.res = none) (h : (fgTransmit bytes call s).ports.res = some r) :
    valueFits s.cfg r.value := by
  obtain ⟨-, e⟩ | ⟨-, -, -, e⟩ | ⟨-, -, -, e⟩ | ⟨-, -, e⟩ := fgTransmit_cases bytes call s <;>
    rw [e] at h
  · exact afterTransmit_res (s := acceptedTx bytes s) hv hquiet h
  · exact afterTransmit_res (s := s.exchange (.txAsync bytes .busy)) hv hquiet h
  · exact afterTransmit_res (s := { s.exchange (.txAsync bytes .busy) with
      ring := s.ring.pushAll s.cfg.cap bytes }) hv hquiet h
  · exact nomatch hquiet.symm.trans h

theorem fgEnqueue_res {bytes : List Byte} {call : TxCall} {r : Result} (hv : call.valueOk s.cfg)
    (hquiet : s.ports.res = none) (h : (fgEnqueue bytes call s).ports.res = some r) :
    valueFits s.cfg r.value := by
  obtain ⟨-, e⟩ | ⟨-, e⟩ := fgEnqueue_cases bytes call s <;> rw [e] at h
  · exact afterTransmit_res hv hquiet h
  · exact afterTransmit_res (s := { s with ring := s.ring.pushAll s.cfg.cap bytes }) hv hquiet h

theorem rlByte_res {a n : Nat} {r : Result} (hquiet : s.ports.res = none)
    (h : (rlByte a n s).ports.res = some r) : valueFits s.cfg r.value := by
  rw [rlByte_eq] at h
  split at h
  · cases h
    exact valueFits_minusOne _
  · next b _ =>
    dsimp only at h
    split at h
    · simp [hquiet] at h
    · have hfit := fgTransmit_res (call := .echo a n) trivial (by simpa using hquiet) h
      simpa using hfit

theorem rlFinish_res (hs : s.Inv) {a n : Nat} {sawCR : Bool} {r : Result}
    (hfg : s.fg = .readLine a n (.finish sawCR)) (hquiet : s.ports.res = none)
    (h : (rlFinish a n sawCR s).ports.res = some r) : valueFits s.cfg r.value := by
  obtain ⟨-, hle, hlen, -⟩ := lineSlots_bounds hs hfg
  have hv : lineSlots n sawCR s < 2 ^ s.cfg.lenW := hle.trans_lt (hlen ▸ hs.length)
  unfold rlFinish at h
  cases sawCR with
  | true => exact fgTransmit_res (call := .line _) hv hquiet h
  | false =>
    exact fgTransmit_res (s := s.writeMem (a + n - 1) [s.cfg.cr]) (call := .line _) hv hquiet h

/-- The call of a split transmission carries a value that fits. -/
theorem valueOk_of_callOk (hs : s.Inv) {bytes : List Byte} {call : TxCall}
    (h : s.callOk bytes call) : call.valueOk s.cfg := by
  cases call with
  | transmit => trivial
  | writeSync n => exact h.2
  | echo a n => trivial
  | line stored => exact h.2.trans_lt hs.length

/-- Every result that a move presents fits the result port. -/
theorem Move.result_fits {turn : Turn} {issued : Option Instr} (h : Move s turn issued t)
    (hs : s.Inv) (hwf : ∀ i, issued = some i → i.wf s.cfg = true) (hquiet : s.ports.res = none)
    {r : Result} (hr : t.ports.res = some r) : valueFits s.cfg r.value := by
  have unpresented : t.ports.res = s.ports.res → valueFits s.cfg r.value :=
    fun e => nomatch hquiet.symm.trans (e.symm.trans hr)
  cases h with
  | pass => exact unpresented rfl
  | store => exact unpresented rfl
  | illegal =>
    cases hr
    exact valueFits_zero _
  | ring idle isRing effect =>
    obtain ⟨st, v, hports, hv, -⟩ := effect.result
    rw [hports] at hr
    cases hr
    exact hv hs
  | answer st v idle fits =>
    cases hr
    exact fits hs
  | setIe ie v idle fits =>
    cases hr
    exact valueFits_of_le_one fits
  | declare =>
    cases hr
    exact valueFits_zero _
  | start =>
    cases hr
    exact valueFits_zero _
  | beginLine => exact unpresented rfl
  | send => exact fgTransmit_res (call := .transmit) trivial hquiet hr
  | @sendSync a n =>
    have hn : a < 2 ^ s.cfg.addrW ∧ n < 2 ^ s.cfg.lenW := by simpa [Instr.wf] using hwf _ rfl
    exact fgTransmit_res (call := .writeSync n) hn.2 hquiet hr
  | readByte => exact rlByte_res hquiet hr
  | finishLine reading => exact rlFinish_res hs reading hquiet hr
  | enqueue waits =>
    obtain ⟨-, -, hcall⟩ := (fgOk_enqueue waits).1 hs.fg
    exact fgEnqueue_res (valueOk_of_callOk hs hcall) hquiet hr
  | arrive => exact unpresented rfl
  | raiseTxc => exact unpresented rfl
  | @receive c =>
    obtain ⟨-, -, -, -, -, -, -, -, -, -, hres, -⟩ :=
      transmit_frame (echoOf c s) (s.clearPending .rxc)
    exact unpresented ((afterByte_res _ _ _).trans hres)
  | txcIdle => exact unpresented rfl
  | txcDrain =>
    obtain ⟨-, -, -, -, -, hres⟩ := drain_frame { s with
      arb := { s.arb with pendTxc := false }
      xp := { s.xp with txActive := false } }
    exact unpresented hres

/-- Settles O60: a step presents on quiet ports what its move presents. -/
theorem resultValueFitsThePort : Obligations.ResultValueFitsThePort := by
  intro s t r hs hstep hr
  obtain ⟨sched, prog, issued, hmove, hissued⟩ := step_move hstep
  exact hmove.result_fits (hs.begun sched prog) (fun i hi => (hissued i hi).wf) rfl hr

/-! ### Failing commands -/

/-- All but the output ports and the ghost bit of a request is the same. -/
def SameButRequest (s t : State) : Prop :=
  t.cfg = s.cfg ∧ t.ring = s.ring ∧ t.drv = s.drv ∧ t.arb = s.arb ∧ t.xp = s.xp ∧ t.fg = s.fg ∧
    t.obs = s.obs ∧ t.mem = s.mem ∧ t.ghost.armed = s.ghost.armed ∧ t.env = s.env ∧
    t.runRefused = s.runRefused

/-- A failing transmission command in the default reading leaves the block as it was. -/
theorem fgTransmit_failed {bytes : List Byte} {call : TxCall} {r : Result} (idle : s.fg = .idle)
    (hc : call.inLine = false) (hsplit : s.cfg.txFallbackSplit = false)
    (h : (fgTransmit bytes call s).ports.res = some r) (hr : r.status.failed = true) :
    SameButRequest s (fgTransmit bytes call s) := by
  have succeeded : ∀ u, (afterTransmit call .ok u).ports.res ≠ some r := by
    intro u hu
    cases call with
    | transmit => cases hu; cases hr
    | writeSync n => cases hu; cases hr
    | echo a n => cases hc
    | line stored => cases hc
  obtain ⟨-, e⟩ | ⟨-, -, -, e⟩ | ⟨-, -, -, e⟩ | ⟨-, hs, e⟩ := fgTransmit_cases bytes call s <;>
    rw [e] at h ⊢
  · exact absurd h (succeeded _)
  · obtain ⟨k0, k1, k2, k3, k4, k5, k6, k7, k8, -⟩ :=
      afterTransmit_frame call .errFull (s.exchange (.txAsync bytes .busy))
    obtain ⟨kdrv, kfg⟩ := afterTransmit_command hc .errFull (s.exchange (.txAsync bytes .busy))
    exact ⟨k1, k2, kdrv, k3, k4, kfg.trans idle.symm, k5, k6, by rw [k7]; rfl, k8, k0⟩
  · exact absurd h (succeeded _)
  · exact nomatch hsplit.symm.trans hs

theorem Move.failed {turn : Turn} {i : Instr} {r : Result} (h : Move s turn (some i) t)
    (hquiet : s.ports.res = none) (hsplit : s.cfg.txFallbackSplit = false)
    (hr : t.ports.res = some r) (hf : r.status.failed = true) : SameButRequest s t := by
  cases h with
  | ring idle isRing effect =>
    obtain ⟨hcfg, hdrv, harb, hxp, hfg, hghost, hobs, henv, hrun⟩ := effect.beside
    obtain ⟨st, v, hports, -, hkept⟩ := effect.result
    rw [hports] at hr
    cases hr
    obtain ⟨hring, hmem⟩ := hkept hf
    exact ⟨hcfg, hring, hdrv, harb, hxp, hfg, hobs, hmem, congrArg _ hghost, henv, hrun⟩
  | answer => exact ⟨rfl, rfl, rfl, rfl, rfl, rfl, rfl, rfl, rfl, rfl, rfl⟩
  | setIe => cases hr; cases hf
  | declare => cases hr; cases hf
  | start => cases hr; cases hf
  | beginLine => exact nomatch hquiet.symm.trans hr
  | send idle => exact fgTransmit_failed idle rfl hsplit hr hf
  | sendSync idle => exact fgTransmit_failed idle rfl hsplit hr hf

/-- Settles O59: a command is a move of the foreground, and a delivery presents nothing. -/
theorem failingCommandChangesNothing : Obligations.FailingCommandChangesNothing := by
  intro s t i r idle hquiet hsplit h hr hf
  cases hcmd : i.isCommand with
  | true => exact (exec_move hcmd idle h).failed hquiet hsplit hr hf
  | false =>
    have hev : i = .evRxc ∨ i = .evTxc := by cases i <;> simp_all [Instr.isCommand]
    obtain ⟨-, -, -, -, -, hres, -⟩ := eventLeavesForegroundAsItWas s t i hev h
    exact nomatch hquiet.symm.trans (hres.symm.trans hr)

end Sys2Proof.Machine

/-! SUPPORT. The output stream, the accepted bytes and then the waiting ones (42_transmission.md
R134; 10_state.md R32 item 8): `Transmit` appends to it, and no step but a ring-buffer command or a
failed drain does otherwise. -/

namespace Sys2Proof.Machine

variable {s t u : State}

/-! ### The queue of an empty buffer -/

theorem Ring.queue_eq_nil {cap : Nat} {r : Ring} (h : r.head = r.tail) : r.queue cap = [] := by
  simp [Ring.queue, Ring.stored, h]

theorem Ring.queue_eq_nil_of_isEmpty {cap : Nat} {r : Ring} (h : r.isEmpty = true) :
    r.queue cap = [] := Ring.queue_eq_nil (Ring.isEmpty_iff.1 h)

/-- Bytes that fit into the free slots are appended to the queue. -/
theorem Ring.queue_pushAll_of_free {cap : Nat} {r : Ring} (h : r.wf cap) {bytes : List Byte}
    (hf : bytes.length ≤ r.free cap) : (r.pushAll cap bytes).queue cap = r.queue cap ++ bytes := by
  have hsum := Ring.stored_add_free h
  have hlt := Ring.stored_lt h
  exact Ring.queue_pushAll bytes h (by omega)

/-- A free transport leaves nothing waiting. -/
theorem State.queueCovered.queue_nil (h : s.queueCovered) (hb : s.txBusy = false) :
    s.ring.queue s.cfg.cap = [] := by
  refine Ring.queue_eq_nil_of_isEmpty ?_
  cases he : s.ring.isEmpty with
  | true => rfl
  | false => exact nomatch hb.symm.trans (h he)

/-! ### The transmit procedure -/

theorem outStream_acceptedTx {bytes : List Byte} (h : s.queueCovered) (hb : s.txBusy = false) :
    (acceptedTx bytes s).outStream = s.outStream ++ bytes := by
  have hq := h.queue_nil hb
  have hq' : (acceptedTx bytes s).ring.queue (acceptedTx bytes s).cfg.cap = [] := hq
  rw [State.outStream, State.outStream, hq, hq', List.append_nil, List.append_nil]
  rfl

theorem outStream_queued {bytes : List Byte} {e : Exchange} (hr : s.ring.wf s.cfg.cap)
    (hf : bytes.length ≤ s.ring.free s.cfg.cap) :
    State.outStream { s.exchange e with ring := s.ring.pushAll s.cfg.cap bytes } =
      s.outStream ++ bytes := by
  have hq := Ring.queue_pushAll_of_free hr hf
  rw [State.outStream, State.outStream, List.append_assoc, ← hq]
  rfl

/-- Settles O52: accepted bytes follow an empty queue, and queued bytes follow the waiting ones. -/
theorem transmitAppendsToTheOutputStream : Obligations.TransmitAppendsToTheOutputStream := by
  intro s bytes hr hc
  obtain ⟨hb, e⟩ | ⟨-, -, e⟩ | ⟨-, hf, e⟩ := transmit_cases bytes s <;> rw [e]
  · exact ⟨fun _ => outStream_acceptedTx hc hb, fun h => (nomatch h), .inl rfl⟩
  · exact ⟨fun h => (nomatch h), fun _ => rfl, .inr rfl⟩
  · exact ⟨fun _ => outStream_queued hr hf, fun h => (nomatch h), .inl rfl⟩

/-! ### The order law over every move -/

/-- The output stream is extended, and what waits is covered (42_transmission.md R134; 10_state.md
R32). -/
structure StreamExtends (s t : State) : Prop where
  stream : s.outStream <+: t.outStream
  covered : t.queueCovered

/-- The output stream and its cover are a matter of five registers. -/
theorem outStream_congr (hcfg : t.cfg = s.cfg) (hring : t.ring = s.ring)
    (hwire : t.obs.wire = s.obs.wire) : t.outStream = s.outStream := by
  rw [State.outStream, State.outStream, hcfg, hring, hwire]

theorem StreamExtends.congr (h : StreamExtends s t) (hcfg : u.cfg = t.cfg) (hring : u.ring = t.ring)
    (hwire : u.obs.wire = t.obs.wire) (hactive : u.xp.txActive = t.xp.txActive)
    (hpend : u.arb.pendTxc = t.arb.pendTxc) : StreamExtends s u where
  stream := outStream_congr hcfg hring hwire ▸ h.stream
  covered := by
    have hc := h.covered
    unfold State.queueCovered State.txBusy at hc ⊢
    rwa [hring, hactive, hpend]

theorem streamExtends_refl (h : s.queueCovered) : StreamExtends s s := ⟨List.prefix_rfl, h⟩

theorem transmit_streamExtends (bytes : List Byte) (hr : s.ring.wf s.cfg.cap)
    (hc : s.queueCovered) : StreamExtends s (transmit bytes s).2 := by
  obtain ⟨hb, e⟩ | ⟨hb, -, e⟩ | ⟨hb, hf, e⟩ := transmit_cases bytes s <;> rw [e]
  · exact ⟨outStream_acceptedTx hc hb ▸ List.prefix_append _ _, fun _ => rfl⟩
  · exact ⟨List.prefix_rfl, hc⟩
  · exact ⟨outStream_queued hr hf ▸ List.prefix_append _ _, fun _ => hb⟩

/-- A foreground transmission in the default reading. -/
theorem fgTransmit_streamExtends (bytes : List Byte) (call : TxCall) (hr : s.ring.wf s.cfg.cap)
    (hc : s.queueCovered) (hsplit : s.cfg.txFallbackSplit = false) :
    StreamExtends s (fgTransmit bytes call s) := by
  rw [fgTransmit_whole hsplit]
  obtain ⟨-, k1, k2, k3, k4, k5, -⟩ :=
    afterTransmit_frame call (transmit bytes s).1 (transmit bytes s).2
  exact (transmit_streamExtends bytes hr hc).congr k1 k2 (congrArg _ k5) (congrArg _ k4)
    (congrArg _ k3)

/-- A transmission that follows an update of other registers. -/
theorem StreamExtends.of_same (h : StreamExtends t u) (hcfg : t.cfg = s.cfg)
    (hring : t.ring = s.ring) (hwire : t.obs.wire = s.obs.wire) : StreamExtends s u :=
  ⟨outStream_congr hcfg hring hwire ▸ h.stream, h.covered⟩

theorem rlByte_streamExtends (a n : Nat) (hr : s.ring.wf s.cfg.cap) (hc : s.queueCovered)
    (hsplit : s.cfg.txFallbackSplit = false) : StreamExtends s (rlByte a n s) := by
  rw [rlByte_eq]
  split
  · exact (streamExtends_refl hc).congr (by simp) (by simp) (by simp) (by simp) (by simp)
  · next b _ =>
    have hstored := (streamExtends_refl hc).congr
      (u := (s.tookRx.exchange (.rxBlocking s.cfg.maxWait (.ok b))).writeMem
        (a + s.drv.receivedCount) [b]) (by simp) (by simp) (by simp) (by simp) (by simp)
    dsimp only
    split
    · exact hstored.congr rfl rfl rfl rfl rfl
    · exact (fgTransmit_streamExtends [b] (.echo a n) (by simpa using hr) hstored.covered
        (by simpa using hsplit)).of_same (by simp) (by simp) (by simp)

theorem rlFinish_streamExtends (a n : Nat) (sawCR : Bool) (hr : s.ring.wf s.cfg.cap)
    (hc : s.queueCovered) (hsplit : s.cfg.txFallbackSplit = false) :
    StreamExtends s (rlFinish a n sawCR s) := by
  unfold rlFinish
  cases sawCR with
  | true => exact fgTransmit_streamExtends _ _ hr hc hsplit
  | false =>
    exact (fgTransmit_streamExtends (s := s.writeMem (a + n - 1) [s.cfg.cr]) _ _ hr hc
      hsplit).of_same rfl rfl rfl

theorem received_streamExtends (c : Nat) (hr : s.ring.wf s.cfg.cap) (hc : s.queueCovered) :
    StreamExtends s (received c s) := by
  have sent : StreamExtends s (transmit (echoOf c s) (s.clearPending .rxc)).2 :=
    (transmit_streamExtends (s := s.clearPending .rxc) (echoOf c s) hr hc).of_same rfl rfl rfl
  exact sent.congr (afterByte_cfg _ _ _) (afterByte_ring _ _ _) (afterByte_wire _ _ _)
    (afterByte_txActive _ _ _) (congrArg _ (afterByte_arb _ _ _))

/-- A drain whose transfer succeeds moves the queue to the wire (43_completion_events.md R146). -/
theorem drain_streamExtends (hr : s.ring.wf s.cfg.cap) (hx : s.xp.txActive = false)
    (hok : s.nextTx = .ok) : StreamExtends s (drain s) := by
  have hempty : ∀ q : Ring, Ring.isEmpty { q with head := q.tail } = true :=
    fun q => beq_self_eq_true _
  rw [drain_eq hr hx]
  refine ⟨?_, fun h => nomatch (hempty s.ring).symm.trans h⟩
  rw [State.outStream, State.outStream, hok]
  exact List.prefix_append _ _

/-- The order law: whatever moves, but for a ring-buffer command and a failed drain, extends the
output stream (42_transmission.md R134). -/
theorem Move.streamExtends {turn : Turn} {issued : Option Instr} (h : Move s turn issued t)
    (hs : s.Inv) (hc : s.queueCovered) (hsplit : s.cfg.txFallbackSplit = false)
    (hdirect : ∀ i, issued = some i → i.isRing = false) (hok : turn = .evTxc → s.nextTx = .ok) :
    StreamExtends s t := by
  have same := streamExtends_refl hc
  cases h with
  | pass => exact same
  | store => exact same.congr rfl rfl rfl rfl rfl
  | illegal => exact same.congr rfl rfl rfl rfl rfl
  | ring idle isRing => exact nomatch (hdirect _ rfl).symm.trans isRing
  | answer => exact same.congr rfl rfl rfl rfl rfl
  | setIe => exact same.congr rfl rfl rfl rfl rfl
  | declare => exact same.congr rfl rfl rfl rfl rfl
  | start => exact same.congr rfl rfl rfl rfl rfl
  | beginLine => exact same.congr rfl rfl rfl rfl rfl
  | send => exact fgTransmit_streamExtends _ _ hs.ring hc hsplit
  | sendSync => exact fgTransmit_streamExtends _ _ hs.ring hc hsplit
  | readByte => exact rlByte_streamExtends _ _ hs.ring hc hsplit
  | finishLine => exact rlFinish_streamExtends _ _ _ hs.ring hc hsplit
  | enqueue waits =>
    obtain ⟨hs', -⟩ := (fgOk_enqueue waits).1 hs.fg
    exact nomatch hsplit.symm.trans hs'
  | arrive => exact same.congr rfl rfl rfl rfl rfl
  | raiseTxc => exact ⟨List.prefix_rfl, fun _ => Bool.or_true _⟩
  | receive => exact received_streamExtends _ hs.ring hc
  | txcIdle pending enabled empty => exact ⟨List.prefix_rfl, fun h => nomatch empty.symm.trans h⟩
  | txcDrain =>
    exact (drain_streamExtends (s := { s with
      arb := { s.arb with pendTxc := false }
      xp := { s.xp with txActive := false } }) hs.ring rfl (hok rfl)).of_same rfl rfl rfl

/-- A command issued by a step that issues no ring-buffer command is none. -/
theorem State.issues.not_ring {i : Instr} (h : s.issues i) (hno : s.issuesRingCommand = false) :
    i.isRing = false := by
  obtain ⟨hturn, hfg, w, rest, hprog, hdec⟩ := h
  rw [State.issuesRingCommand, hturn, hfg, hprog] at hno
  rw [isRing_of_decodeCmd hdec]
  exact hno

/-- Settles O53, over every move of a state with the invariants. -/
theorem outputStreamOnlyExtends : Obligations.OutputStreamOnlyExtends := by
  intro s t hs hc hsplit hno hok hstep
  obtain ⟨sched, prog, issued, hmove, hissued⟩ := step_move hstep
  obtain ⟨hstream, hcovered⟩ := hmove.streamExtends (hs.begun sched prog) hc hsplit
    (fun i hi => (hissued i hi).not_ring hno) hok
  exact ⟨hstream, hcovered⟩

end Sys2Proof.Machine

/-! SUPPORT. Each command where its preconditions hold and where they do not: the critical section,
the reception commands, the transport's steps, and the ring-buffer commands with their block copies.
-/

namespace Sys2Proof.Machine

variable {s t u : State}

/-! ### Critical section (44_critical_section.md) -/

theorem toNat_eq_ite (b : Bool) : b.toNat = if b then 1 else 0 := by cases b <;> rfl

/-- Settles O19: the value is the old `ie` as a number. -/
theorem csEnterMasksAndReturnsOldIe : Obligations.CsEnterMasksAndReturnsOldIe := by
  intro s
  rw [← toNat_eq_ite]
  rfl

/-- Settles O20, by reading the command's meaning. -/
theorem csExitRestoresGivenIe : Obligations.CsExitRestoresGivenIe := fun _ _ => rfl

/-! ### Exclusivity and spans -/

theorem excl_eq_true (h : s.arb.ie = false ∨ s.ghost.xportUsed = false) : s.excl = true := by
  simpa [State.excl] using h

theorem excl_eq_false (hie : s.arb.ie = true) (hu : s.ghost.xportUsed = true) :
    s.excl = false := by
  simp [State.excl, hie, hu]

/-- Settles O28: `RB_INIT` runs under exclusivity and only then. -/
theorem rbInitEmptiesTheBuffer : Obligations.RbInitEmptiesTheBuffer := by
  intro s
  refine ⟨fun h => ?_, fun hie hu => ?_⟩
  · exact (withExcl_holds (excl_eq_true h) : execRbInit s = _)
  · exact (withExcl_fails (excl_eq_false hie hu) : execRbInit s = _)

/-- Settles O37: with the span in order the want of exclusivity refuses. -/
theorem linearVariantsNeedExclusivity : Obligations.LinearVariantsNeedExclusivity := by
  intro s a n hie hu
  have hx := excl_eq_false hie hu
  exact ⟨fun hf => ⟨(withSpan_fits hf).trans (withExcl_fails hx),
      (withSpan_fits hf).trans (withExcl_fails hx)⟩,
    fun hf => (withSpan_fits (n := flushLen s.cfg) hf).trans (withExcl_fails hx)⟩

theorem execRxReadLine_wraps {a n : Nat} (hn : 1 ≤ n) (h : 2 ^ s.cfg.addrW < a + n) :
    execRxReadLine a n s = .refused .spanWraps := by
  rw [execRxReadLine, if_neg (Nat.ne_of_gt hn)]
  exact withSpan_wraps h

theorem sendSpan_wraps {a n : Nat} {call : TxCall} (hn : 1 ≤ n) (h : 2 ^ s.cfg.addrW < a + n) :
    sendSpan a n call s = .refused .spanWraps := by
  rw [sendSpan, if_neg (Nat.ne_of_gt hn)]
  exact withSpan_wraps h

/-- Settles O38: the span is the first test of each command but for the length 0 of three. -/
theorem spansAndLengthsOutsideTheRulesAreRefused :
    Obligations.SpansAndLengthsOutsideTheRulesAreRefused := by
  intro s a n
  refine ⟨fun h i hi => ?_, fun h hn i hi => ?_, fun h i hi => ?_, fun h => ?_, rfl, rfl, rfl⟩
  · simp only [List.mem_cons, List.not_mem_nil, or_false] at hi
    obtain rfl | rfl | rfl | rfl := hi
    · exact (withSpan_wraps h : execRbWrite a n s = _)
    · exact (withSpan_wraps h : execRbRead a n s = _)
    · exact (withSpan_wraps h : execRbWriteLin a n s = _)
    · exact (withSpan_wraps h : execRbReadLin a n s = _)
  · simp only [List.mem_cons, List.not_mem_nil, or_false] at hi
    obtain rfl | rfl | rfl := hi
    · exact execRxReadLine_wraps hn h
    · exact sendSpan_wraps hn h
    · exact sendSpan_wraps hn h
  · simp only [List.mem_cons, List.not_mem_nil, or_false] at hi
    obtain rfl | rfl := hi
    · exact (withSpan_wraps (n := flushLen s.cfg) h : execRbFlush a s = _)
    · exact (withSpan_wraps (n := flushLen s.cfg) h : execRbFlushLin a s = _)
  · exact (withSpan_wraps h : execRxStart a s = _)

/-! ### Reception (41_reception.md) -/

/-- Settles O40: the tests of the length and of `busy`, in their order. -/
theorem rxInitDeclaresAReception : Obligations.RxInitDeclaresAReception := by
  intro s n
  refine ⟨fun hn => if_pos hn, fun hn hb => ?_, fun hn hb => ?_⟩
  · exact (if_neg (Nat.not_lt.2 hn)).trans (if_pos hb)
  · refine (if_neg (Nat.not_lt.2 hn)).trans ((if_neg (by simp [hb])).trans ?_)
    rw [← hb]
    rfl

/-- Settles O41: with the span in order `busy`, then ARMED, then the arm decide. -/
theorem rxStartArmsTheReception : Obligations.RxStartArmsTheReception := by
  intro s a hf
  have hspan : execRxStart a s = _ := withSpan_fits hf
  refine ⟨fun hb => ?_, fun hb ha => ?_, fun hb ha hx hp => ?_⟩
  · exact hspan.trans (if_pos hb)
  · exact hspan.trans ((if_neg (by simp [hb])).trans (if_pos (by simp [ha])))
  · exact hspan.trans ((if_neg (by simp [hb])).trans
      ((if_neg (by simp [ha])).trans (armThen_free hx hp)))

/-- Settles O42: with a length and a span in order `busy` decides. -/
theorem rxReadLineBegins : Obligations.RxReadLineBegins := by
  intro s a n hn hf
  have hspan : exec (.rxReadLine a n) s = _ :=
    (if_neg (Nat.ne_of_gt hn)).trans (withSpan_fits hf)
  refine ⟨fun hb => ?_, fun hb => ?_⟩
  · exact hspan.trans (if_pos hb)
  · exact hspan.trans (if_neg (by simp [hb]))

/-- Settles O56: the handler looks for the cursor and for `busy`. -/
theorem receiveEventWithNoReceptionIsRefused :
    Obligations.ReceiveEventWithNoReceptionIsRefused := by
  intro s hie hp hnone
  have hrun : exec .evRxc s = handleRxc (s.clearPending .rxc) :=
    deliver_enabled (by simp [State.deliverable, State.rxcDeliverable, hp, hie])
  rw [hrun, handleRxc, State.clearPending_rxc_drv]
  split
  · rfl
  · next c hc =>
    obtain hn | hb := hnone
    · exact nomatch hn.symm.trans hc
    · exact if_neg (by simp [hb])

/-- `DRV_STATUS` is read back by bit positions (30_encoding.md R75). -/
theorem packStatus_fields (h : s.Inv) :
    packStatus s.cfg s.drv / 2 ^ (2 * s.cfg.lenW) = s.drv.busy.toNat ∧
    packStatus s.cfg s.drv / 2 ^ s.cfg.lenW % 2 ^ s.cfg.lenW = s.drv.requestedLength ∧
    packStatus s.cfg s.drv % 2 ^ s.cfg.lenW = s.drv.receivedCount := by
  have hlen := h.length
  have hcount := h.count.trans_lt hlen
  have hpos := Nat.two_pow_pos s.cfg.lenW
  unfold packStatus
  rw [Nat.two_mul, Nat.pow_add]
  generalize 2 ^ s.cfg.lenW = p at *
  have hlow : s.drv.requestedLength * p + s.drv.receivedCount < p * p := by nlinarith
  have hhigh : s.drv.busy.toNat * (p * p) + s.drv.requestedLength * p + s.drv.receivedCount =
      s.drv.receivedCount + p * (s.drv.busy.toNat * p + s.drv.requestedLength) := by ring
  refine ⟨?_, ?_, ?_⟩
  · rw [Nat.add_assoc, Nat.add_comm, Nat.add_mul_div_right _ _ (Nat.mul_pos hpos hpos),
      Nat.div_eq_of_lt hlow, Nat.zero_add]
  · rw [hhigh, Nat.add_mul_div_left _ _ hpos, Nat.div_eq_of_lt hcount, Nat.zero_add,
      Nat.mul_add_mod', Nat.mod_eq_of_lt hlen]
  · rw [hhigh, Nat.add_mul_mod_self_left, Nat.mod_eq_of_lt hcount]

/-- Settles O45: the value is the packing, whose fields are the registers. -/
theorem drvStatusPacksTheRegisters : Obligations.DrvStatusPacksTheRegisters := by
  intro s h
  obtain ⟨hbusy, hlen, hcount⟩ := packStatus_fields h
  exact ⟨packStatus s.cfg s.drv, rfl, packStatus_fits h, hbusy.trans (toNat_eq_ite _), hlen, hcount⟩

/-! ### The transport's steps (43_completion_events.md R141 to R143) -/

theorem xpTxDone_enabled (ha : s.xp.txActive = true) (hp : s.arb.pendTxc = false) :
    xpTxDone s = { s with arb := { s.arb with pendTxc := true } } := by
  rw [xpTxDone, if_pos (by simp [ha, hp])]
  simp [State.raise]

theorem xpTxDone_disabled (h : s.xp.txActive = false ∨ s.arb.pendTxc = true) : xpTxDone s = s :=
  if_neg (by obtain h | h := h <;> simp [h])

theorem xpTxSpurious_enabled (hc : s.cfg.spuriousTxc = true) (ha : s.xp.txActive = false)
    (hp : s.arb.pendTxc = false)
    (hu : s.cfg.spuriousInSetUp = true ∨ s.ghost.xportUsed = true) :
    xpTxSpurious s = { s with arb := { s.arb with pendTxc := true } } := by
  rw [xpTxSpurious, if_pos (spuriousEnabled_eq_true.2 ⟨hc, ha, hp, hu⟩)]
  simp [State.raise]

theorem xpTxSpurious_disabled (h : s.cfg.spuriousTxc = false ∨ s.xp.txActive = true ∨
    s.arb.pendTxc = true ∨ (s.cfg.spuriousInSetUp = false ∧ s.ghost.xportUsed = false)) :
    xpTxSpurious s = s := by
  refine if_neg fun hen => ?_
  obtain ⟨hc, ha, hp, hu⟩ := spuriousEnabled_eq_true.1 hen
  obtain h | h | h | ⟨h, h'⟩ := h
  · exact nomatch h.symm.trans hc
  · exact nomatch h.symm.trans ha
  · exact nomatch h.symm.trans hp
  · exact hu.elim (fun e => nomatch h.symm.trans e) fun e => nomatch h'.symm.trans e

/-- The transport's turns are its steps. -/
theorem step_transport :
    (∀ b, s.turn = .rxArrive b → step s = .next (xpRxArrive b s.beginStep)) ∧
    (s.turn = .txDone → step s = .next (xpTxDone s.beginStep)) ∧
    (s.turn = .txSpurious → step s = .next (xpTxSpurious s.beginStep)) := by
  unfold step takeTurn
  exact ⟨fun b h => by rw [h], fun h => by rw [h], fun h => by rw [h]⟩

/-- Settles O58: each step where it is enabled and where it is not, and the turns that are these
steps. -/
theorem transportStepsRaiseEvents : Obligations.TransportStepsRaiseEvents := by
  intro s b
  refine ⟨fun c hc => ?_, fun hx => ?_, xpTxDone_enabled, xpTxDone_disabled, xpTxSpurious_enabled,
    xpTxSpurious_disabled, step_transport.1 b, step_transport.2.1, step_transport.2.2⟩
  · obtain ⟨hx, -⟩ | ⟨c', hc', e⟩ := xpRxArrive_cases b s
    · exact nomatch hx.symm.trans hc
    · obtain rfl : c = c' := Option.some.inj (hc.symm.trans hc')
      exact e
  · obtain ⟨-, e⟩ | ⟨c, hc, -⟩ := xpRxArrive_cases b s
    · exact e
    · exact nomatch hx.symm.trans hc

/-! ### The linear variants (40_ring_buffer.md R104) -/

theorem execRbWriteLin_eq_execRbWrite (hr : s.ring.wf s.cfg.cap) (hx : s.excl = true) (a n : Nat) :
    execRbWriteLin a n s = execRbWrite a n s := by
  rcases Nat.lt_or_ge (2 ^ s.cfg.addrW) (a + n) with hw | hf
  · exact (withSpan_wraps hw).trans (withSpan_wraps hw).symm
  · rw [execRbWrite_eq hf, execRbWriteLin, withSpan_fits hf, withExcl_holds hx]
    split
    · rfl
    · next hn =>
      have hsum := Ring.stored_add_free hr
      have hlt := Ring.stored_lt hr
      rw [Ring.writeLinear_eq_pushAll hr _ (by rw [Memory.length_readSpan]; omega)]

theorem execRbReadLin_eq_execRbRead (hr : s.ring.wf s.cfg.cap) (hx : s.excl = true) (a n : Nat) :
    execRbReadLin a n s = execRbRead a n s := by
  rcases Nat.lt_or_ge (2 ^ s.cfg.addrW) (a + n) with hw | hf
  · exact (withSpan_wraps hw).trans (withSpan_wraps hw).symm
  · rw [execRbRead_eq hf, execRbReadLin, withSpan_fits hf, withExcl_holds hx]
    split
    · rfl
    · next hn =>
      have hlt := Ring.stored_lt hr
      rw [withoutLoan, ringTakeLin_eq_ringTake hr a (by omega)]

theorem execRbFlushLin_eq_execRbFlush (hr : s.ring.wf s.cfg.cap) (hx : s.excl = true) (a : Nat) :
    execRbFlushLin a s = execRbFlush a s := by
  rcases Nat.lt_or_ge (2 ^ s.cfg.addrW) (a + (s.cfg.cap - 1)) with hw | hf
  · exact (withSpan_wraps (n := flushLen s.cfg) hw).trans
      (withSpan_wraps (n := flushLen s.cfg) hw).symm
  · have hlt := Ring.stored_lt hr
    rw [execRbFlush_eq hf, execRbFlushLin, withSpan_fits (n := flushLen s.cfg) hf,
      withExcl_holds hx, withoutLoan,
      ringTakeLin_eq_ringTake hr a (by rw [flushCount_eq_stored hr]; exact hlt)]

/-- Settles O34, command by command. -/
theorem linearVariantsAgreeWithSafeOnes : Obligations.LinearVariantsAgreeWithSafeOnes :=
  fun _ a n hr hx => ⟨execRbWriteLin_eq_execRbWrite hr hx a n,
    execRbReadLin_eq_execRbRead hr hx a n, execRbFlushLin_eq_execRbFlush hr hx a⟩

/-! ### Writes, reads and flushes (40_ring_buffer.md R98, R99, R102) -/

/-- Settles O31: the linear form is the safe one, whose pushes fill the slots from `tail` on. -/
theorem writesAppendOrFail : Obligations.WritesAppendOrFail := by
  intro s a n i hr hf hi
  have hrun : exec i s = execRbWrite a n s := by
    obtain rfl | ⟨rfl, hx⟩ := hi
    · rfl
    · exact execRbWriteLin_eq_execRbWrite hr hx a n
  rw [hrun, execRbWrite_eq hf]
  refine ⟨fun hn => ⟨_, if_neg (Nat.not_lt.2 hn), ?_⟩, fun hn => if_pos hn⟩
  have hlen : (Memory.readSpan s.mem a n).length = n := Memory.length_readSpan _ _ _
  obtain ⟨hsame, hother⟩ := Ring.slot_pushAll (Memory.readSpan s.mem a n) hr (by rwa [hlen])
  have htail := Ring.tail_pushAll (Memory.readSpan s.mem a n) hr
  rw [hlen] at hsame hother htail
  exact ⟨rfl, Ring.head_pushAll _ _, htail, (Ring.wf_pushAll _ hr).1,
    fun k hk => (hsame k hk).trans (Memory.getD_readSpan _ _ _ _ hk), hother, rfl,
    rfl, rfl, rfl, rfl, rfl, rfl, rfl, rfl, rfl⟩

/-- Settles O32: the linear form is the safe one, whose pops deliver the slots from `head` on. -/
theorem readsDeliverOrFail : Obligations.ReadsDeliverOrFail := by
  intro s a n i hr hm hf hi
  have hrun : exec i s = execRbRead a n s := by
    obtain rfl | ⟨rfl, hx⟩ := hi
    · rfl
    · exact execRbReadLin_eq_execRbRead hr hx a n
  rw [hrun, execRbRead_eq hf]
  refine ⟨fun hn hloan => ?_, fun hn => if_pos hn⟩
  rw [if_neg (Nat.not_lt.2 hn), spanOnLoan_eq_false hloan]
  have hstore := storesAt_writeSpan (s := s) (t := ringTake a n s) hm rfl
  rw [storesAt, Ring.length_popBytes] at hstore
  obtain ⟨hread, hother⟩ := hstore
  exact ⟨_, rfl, rfl, (Ring.dropLinear_eq_popN hr n).symm,
    fun k hk => (hread k hk).trans (Ring.getD_popBytes n hr k hk), hother,
    rfl, rfl, rfl, rfl, rfl, rfl, rfl, rfl, rfl⟩

/-- A flush within the address space and off the loan (40_ring_buffer.md R102). -/
theorem execRbFlush_completes {a : Nat} (hr : s.ring.wf s.cfg.cap)
    (hf : a + (s.cfg.cap - 1) ≤ 2 ^ s.cfg.addrW)
    (hloan : s.spanOnLoan a (s.ring.stored s.cfg.cap) = false) :
    execRbFlush a s = .next ({ s.writeMem a (s.ring.queue s.cfg.cap) with
      ring := { s.ring with head := s.ring.tail } }.present .ok (s.ring.stored s.cfg.cap)) := by
  rw [execRbFlush_eq hf, flushCount_eq_stored hr, hloan, ringTake, Ring.popBytes_stored hr,
    Ring.popN_stored hr]
  rfl

/-- Settles O33: the linear form is the safe one, which delivers the queue. -/
theorem flushesDeliverEverything : Obligations.FlushesDeliverEverything := by
  intro s a i hr hm hf hloan hi
  have hrun : exec i s = execRbFlush a s := by
    obtain rfl | ⟨rfl, hx⟩ := hi
    · rfl
    · exact execRbFlushLin_eq_execRbFlush hr hx a
  rw [hrun, execRbFlush_completes hr hf (spanOnLoan_eq_false hloan)]
  exact ⟨_, rfl, rfl, rfl, storesAt_writeSpan hm rfl, rfl, rfl, rfl, rfl, rfl, rfl, rfl, rfl, rfl⟩

/-! ### The queue (40_ring_buffer.md R105) -/

theorem rbWrite_queue {a n : Nat} (hr : s.ring.wf s.cfg.cap) (h : execRbWrite a n s = .next t) :
    t.ring.wf s.cfg.cap ∧ t.ring.queue s.cfg.cap = s.ring.queue s.cfg.cap ++
      (if (s.ring.queue s.cfg.cap).length + n < s.cfg.cap then Memory.readSpan s.mem a n
        else []) := by
  have hsum := Ring.stored_add_free hr
  have hlt := Ring.stored_lt hr
  rw [Ring.length_queue]
  obtain ⟨-, ⟨hn, rfl⟩ | ⟨hn, rfl⟩⟩ := execRbWrite_next h
  · rw [if_neg (by omega), List.append_nil]
    exact ⟨hr, rfl⟩
  · rw [if_pos (by omega)]
    exact ⟨Ring.wf_pushAll _ hr, Ring.queue_pushAll_of_free hr (by rwa [Memory.length_readSpan])⟩

theorem rbRead_queue {a n : Nat} (hr : s.ring.wf s.cfg.cap) (hm : Memory.wf s.mem)
    (h : execRbRead a n s = .next t) : t.ring.wf s.cfg.cap ∧
      if n ≤ (s.ring.queue s.cfg.cap).length then
        Memory.readSpan t.mem a n = (s.ring.queue s.cfg.cap).take n ∧
        t.ring.queue s.cfg.cap = (s.ring.queue s.cfg.cap).drop n
      else t.ring.queue s.cfg.cap = s.ring.queue s.cfg.cap := by
  rw [Ring.length_queue]
  obtain ⟨-, ⟨hn, rfl⟩ | ⟨hn, -, rfl⟩⟩ := execRbRead_next h
  · rw [if_neg (Nat.not_le.2 hn)]
    exact ⟨hr, rfl⟩
  · rw [if_pos hn]
    have hread := Memory.readSpan_writeSpan_same (s.ring.popBytes s.cfg.cap n) s.mem hm a
    rw [Ring.length_popBytes, Ring.popBytes_eq_take n hr hn] at hread
    refine ⟨Ring.wf_popN n hr, ?_, Ring.queue_popN n hr hn⟩
    rw [← hread, ← Ring.popBytes_eq_take n hr hn]
    rfl

theorem rbFlush_queue {a : Nat} (hr : s.ring.wf s.cfg.cap) (hm : Memory.wf s.mem)
    (h : execRbFlush a s = .next t) : t.ring.wf s.cfg.cap ∧ t.ring.queue s.cfg.cap = [] ∧
      Memory.readSpan t.mem a (s.ring.queue s.cfg.cap).length = s.ring.queue s.cfg.cap := by
  obtain ⟨hf, hloan, -⟩ := execRbFlush_next h
  rw [execRbFlush_completes hr hf (flushCount_eq_stored hr ▸ hloan)] at h
  cases h
  exact ⟨⟨hr.1, hr.2.2, hr.2.2⟩, Ring.queue_eq_nil rfl, Memory.readSpan_writeSpan_same _ _ hm a⟩

theorem rbInit_queue (hr : s.ring.wf s.cfg.cap) (h : execRbInit s = .next t) :
    t.ring.wf s.cfg.cap ∧ t.ring.queue s.cfg.cap = [] := by
  obtain ⟨-, rfl⟩ := execRbInit_next h
  have hcap := Nat.lt_of_le_of_lt (Nat.zero_le _) hr.2.1
  exact ⟨⟨hr.1, hcap, hcap⟩, Ring.queue_eq_nil rfl⟩

/-- Settles O35, command by command. -/
theorem ringBufferIsBoundedFifo : Obligations.RingBufferIsBoundedFifo :=
  fun _ _ _ _ hr hm => ⟨rbWrite_queue hr, rbRead_queue hr hm, rbFlush_queue hr hm, rbInit_queue hr,
    Ring.length_queue.trans_lt (Ring.stored_lt hr)⟩

/-- Settles O36: the write fills the empty queue with the span, and the flush delivers that queue.
-/
theorem writeThenFlushReturnsTheBytes : Obligations.WriteThenFlushReturnsTheBytes := by
  intro s a d n hr hm hb he hn hf hd
  have hstored := (Ring.head_eq_tail_iff_stored hr).1 he
  have hsum := Ring.stored_add_free hr
  have hfree : n ≤ s.ring.free s.cfg.cap := by omega
  have hlen : (Memory.readSpan s.mem a n).length = n := Memory.length_readSpan _ _ _
  have hwrite := (execRbWrite_eq hf).trans (if_neg (Nat.not_lt.2 hfree))
  have hr' := Ring.wf_pushAll (Memory.readSpan s.mem a n) hr
  have hq := Ring.queue_pushAll_of_free hr (hlen.trans_le hfree)
  rw [Ring.queue_eq_nil he, List.nil_append] at hq
  have hcount : (s.ring.pushAll s.cfg.cap (Memory.readSpan s.mem a n)).stored s.cfg.cap = n := by
    rw [← Ring.length_queue, hq, hlen]
  have hflush := execRbFlush_completes (s := State.present { s with
      ring := s.ring.pushAll s.cfg.cap (Memory.readSpan s.mem a n) } .ok 0) hr' hd
    (spanOnLoan_eq_false fun x _ _ => onLoan_idle hb x)
  refine ⟨_, _, hwrite, hflush, ?_, ?_, beq_self_eq_true _⟩
  · exact congrArg (fun v => some (Result.mk .ok v)) hcount
  · have hread := Memory.readSpan_writeSpan_same (Memory.readSpan s.mem a n) s.mem hm d
    rw [hlen, ← hq] at hread
    exact hread.trans hq

end Sys2Proof.Machine

/-! SUPPORT. The transmit procedure in its two readings (42_transmission.md R130, R135), and the
steps of a line read that call it (41_reception.md R115, R116). -/

namespace Sys2Proof.Machine

variable {s t u : State}

/-! ### What a call of the transmit procedure does to the wire and the queue -/

theorem transmit_transmitted (bytes : List Byte) (hr : s.ring.wf s.cfg.cap) :
    transmitted bytes s (transmit bytes s).2 := by
  obtain ⟨hb, e⟩ | ⟨hb, hf, e⟩ | ⟨hb, hf, e⟩ := transmit_cases bytes s <;> rw [e]
  · exact .inl ⟨hb, rfl, rfl, rfl⟩
  · exact .inr (.inr ⟨hb, hf, rfl, rfl, rfl⟩)
  · exact .inr (.inl ⟨hb, hf, rfl, rfl, Ring.head_pushAll _ _, Ring.queue_pushAll_of_free hr hf⟩)

/-- The call looks at the ring buffer, the wire and the transmit side of the transport only. -/
theorem transmitted_congr {bytes : List Byte} {v w : State} (h : transmitted bytes s t)
    (hcfg : v.cfg = s.cfg) (hb : v.txBusy = s.txBusy) (hwire : v.obs.wire = s.obs.wire)
    (hactive : v.xp.txActive = s.xp.txActive) (hring : v.ring = s.ring)
    (hwire' : w.obs.wire = t.obs.wire) (hactive' : w.xp.txActive = t.xp.txActive)
    (hring' : w.ring = t.ring) : transmitted bytes v w := by
  unfold transmitted at h ⊢
  rwa [hcfg, hb, hwire, hactive, hring, hwire', hactive', hring']

/-- In the default reading, or with a free transport, a foreground transmission is one atomic piece.
-/
theorem fgTransmit_one_step {bytes : List Byte} {call : TxCall}
    (h : s.cfg.txFallbackSplit = false ∨ s.txBusy = false) :
    fgTransmit bytes call s = afterTransmit call (transmit bytes s).1 (transmit bytes s).2 := by
  obtain h | h := h
  · exact fgTransmit_whole h
  · rw [fgTransmit_accepted h, transmit_accepted bytes h]

theorem fgTransmit_transmitted {bytes : List Byte} {call : TxCall} (hr : s.ring.wf s.cfg.cap)
    (h : s.cfg.txFallbackSplit = false ∨ s.txBusy = false) :
    transmitted bytes s (fgTransmit bytes call s) := by
  obtain ⟨-, -, hring, -, hxp, hobs, -⟩ :=
    afterTransmit_frame call (transmit bytes s).1 (transmit bytes s).2
  rw [fgTransmit_one_step h]
  exact transmitted_congr (transmit_transmitted bytes hr) rfl rfl rfl rfl rfl (congrArg _ hobs)
    (congrArg _ hxp) hring

theorem txBusy_of_occupied (h : s.xp.txActive = true ∨ s.arb.pendTxc = true) : s.txBusy = true := by
  simpa [State.txBusy] using h

@[simp] theorem State.beginStep_txBusy : s.beginStep.txBusy = s.txBusy := rfl

/-! ### The two commands (42_transmission.md R131, R132) -/

theorem sendSpan_eq {a n : Nat} {call : TxCall} (hn : 1 ≤ n) (hf : a + n ≤ 2 ^ s.cfg.addrW) :
    sendSpan a n call s = .next (fgTransmit (Memory.readSpan s.mem a n) call s) := by
  rw [sendSpan, if_neg (Nat.ne_of_gt hn), withSpan_fits hf]

/-- Settles O49: the transport accepts, and the call's result follows in the same step. -/
theorem transmitIsAcceptedByAFreeTransport : Obligations.TransmitIsAcceptedByAFreeTransport := by
  intro s a n i idle hn hf ha hp hi
  have hb : s.txBusy = false := by simp [State.txBusy, ha, hp]
  obtain rfl | rfl := hi
  · refine (sendSpan_eq (call := .transmit) hn hf).trans ?_
    rw [fgTransmit_accepted hb, if_neg (by simp), idle]
    rfl
  · refine (sendSpan_eq (call := .writeSync n) hn hf).trans ?_
    rw [fgTransmit_accepted hb, if_pos rfl, idle]
    rfl

/-- The result of a transmission command: 0, or for `TX_WRITE_SYNC` the length and on failure all
ones (42_transmission.md R131, R132). -/
theorem afterTransmit_command_res {n : Nat} {call : TxCall} {i : Instr} {a : Nat}
    (hi : (i = .txTransmit a n ∧ call = .transmit) ∨ (i = .txWriteSync a n ∧ call = .writeSync n))
    (s : State) :
    (afterTransmit call .ok s).ports.res =
      some { status := .ok, value := if i = .txWriteSync a n then n else 0 } ∧
    (afterTransmit call .errFull s).ports.res =
      some { status := .errFull, value := if i = .txWriteSync a n then minusOne s.cfg else 0 } := by
  obtain ⟨rfl, rfl⟩ | ⟨rfl, rfl⟩ := hi
  · rw [if_neg (by simp), if_neg (by simp)]
    exact ⟨rfl, rfl⟩
  · rw [if_pos rfl, if_pos rfl]
    exact ⟨rfl, rfl⟩

/-- A transmission command is its call. -/
theorem exec_send {a n : Nat} {i : Instr} {call : TxCall} (hn : 1 ≤ n)
    (hf : a + n ≤ 2 ^ s.cfg.addrW)
    (hi : (i = .txTransmit a n ∧ call = .transmit) ∨ (i = .txWriteSync a n ∧ call = .writeSync n)) :
    exec i s = .next (fgTransmit (Memory.readSpan s.mem a n) call s) := by
  obtain ⟨rfl, rfl⟩ | ⟨rfl, rfl⟩ := hi
  · exact sendSpan_eq hn hf
  · exact sendSpan_eq hn hf

/-- The call of a transmission command. -/
theorem exists_call {a n : Nat} {i : Instr} (hi : i = .txTransmit a n ∨ i = .txWriteSync a n) :
    ∃ call : TxCall, call.inLine = false ∧
      ((i = .txTransmit a n ∧ call = .transmit) ∨
        (i = .txWriteSync a n ∧ call = .writeSync n)) := by
  obtain rfl | rfl := hi
  · exact ⟨.transmit, rfl, .inl ⟨rfl, rfl⟩⟩
  · exact ⟨.writeSync n, rfl, .inr ⟨rfl, rfl⟩⟩

/-- Settles O50: the refused span is queued whole or not at all, and the call's result follows. -/
theorem transmitIsQueuedWholeOrFails : Obligations.TransmitIsQueuedWholeOrFails := by
  intro s a n i idle hr hsplit hn hf hocc hi
  obtain ⟨call, hc, hcall⟩ := exists_call hi
  have hb := txBusy_of_occupied hocc
  have hlen : (Memory.readSpan s.mem a n).length = n := Memory.length_readSpan _ _ _
  refine ⟨_, exec_send hn hf hcall, ?_⟩
  rw [fgTransmit_whole hsplit]
  rcases Nat.lt_or_ge (s.ring.free s.cfg.cap) n with hfull | hfit
  · rw [transmit_full hb (hlen.symm ▸ hfull)]
    obtain ⟨k0, k1, k2, k3, k4, k5, k6, k7, k8, -⟩ := afterTransmit_frame call .errFull
      (s.exchange (.txAsync (Memory.readSpan s.mem a n) .busy))
    obtain ⟨kdrv, kfg⟩ := afterTransmit_command hc .errFull
      (s.exchange (.txAsync (Memory.readSpan s.mem a n) .busy))
    exact ⟨k1, kdrv, k3, k4, kfg.trans idle.symm, k7, k5, k6, k8, k0,
      fun h => absurd hfull (Nat.not_lt.2 h), fun _ => ⟨k2, (afterTransmit_command_res hcall _).2⟩⟩
  · rw [transmit_queued hb (hlen.trans_le hfit)]
    obtain ⟨k0, k1, k2, k3, k4, k5, k6, k7, k8, -⟩ := afterTransmit_frame call .ok
      { s.exchange (.txAsync (Memory.readSpan s.mem a n) .busy) with
        ring := s.ring.pushAll s.cfg.cap (Memory.readSpan s.mem a n) }
    obtain ⟨kdrv, kfg⟩ := afterTransmit_command hc .ok
      { s.exchange (.txAsync (Memory.readSpan s.mem a n) .busy) with
        ring := s.ring.pushAll s.cfg.cap (Memory.readSpan s.mem a n) }
    refine ⟨k1, kdrv, k3, k4, kfg.trans idle.symm, k7, k5, k6, k8, k0, fun _ => ?_,
      fun h => absurd h (Nat.not_lt.2 hfit)⟩
    rw [k2]
    exact ⟨Ring.wf_pushAll _ hr, Ring.head_pushAll _ _,
      Ring.queue_pushAll_of_free hr (hlen.trans_le hfit), (afterTransmit_command_res hcall _).1⟩

/-! ### The byte step of a line read (41_reception.md R115, R117) -/

/-- A received byte is stored at the next slot of the line (41_reception.md R115). -/
def lineStored (a : Nat) (b : Byte) (s : State) : State :=
  (s.tookRx.exchange (.rxBlocking s.cfg.maxWait (.ok b))).writeMem (a + s.drv.receivedCount) [b]

section
variable (a : Nat) (b : Byte)

@[simp] theorem lineStored_cfg : (lineStored a b s).cfg = s.cfg := by simp [lineStored]
@[simp] theorem lineStored_ring : (lineStored a b s).ring = s.ring := by simp [lineStored]
@[simp] theorem lineStored_drv : (lineStored a b s).drv = s.drv := by simp [lineStored]
@[simp] theorem lineStored_arb : (lineStored a b s).arb = s.arb := by simp [lineStored]
@[simp] theorem lineStored_xp : (lineStored a b s).xp = s.xp := by simp [lineStored]
@[simp] theorem lineStored_obs : (lineStored a b s).obs = s.obs := by simp [lineStored]
@[simp] theorem lineStored_mem : (lineStored a b s).mem =
    Memory.writeSpan s.mem (a + s.drv.receivedCount) [b] := by simp [lineStored]
@[simp] theorem lineStored_res : (lineStored a b s).ports.res = s.ports.res := by simp [lineStored]
@[simp] theorem lineStored_txBusy : (lineStored a b s).txBusy = s.txBusy := by
  simp [lineStored, State.txBusy]

end

theorem rlByte_error (a n : Nat) (h : s.nextRx = .error) :
    rlByte a n s = (s.tookRx.exchange (.rxBlocking s.cfg.maxWait .error)).leaveLine.present .errHw
      (minusOne s.cfg) := by
  rw [rlByte_eq, h]

theorem rlByte_cr {b : Byte} (a n : Nat) (h : s.nextRx = .ok b) (hb : b = s.cfg.cr) :
    rlByte a n s = { (lineStored a b s).setCount (countAfterCr s.cfg s.drv.receivedCount) with
      fg := .readLine a n (.finish true) } := by
  rw [rlByte_eq, h]
  exact if_pos hb

theorem rlByte_echo {b : Byte} (a n : Nat) (h : s.nextRx = .ok b) (hb : b ≠ s.cfg.cr) :
    rlByte a n s = fgTransmit [b] (.echo a n) (lineStored a b s) := by
  rw [rlByte_eq, h]
  exact if_neg hb

/-- A stored byte is not presented. -/
theorem fgTransmit_echo_res (bytes : List Byte) (a n : Nat) (s : State) :
    (fgTransmit bytes (.echo a n) s).ports.res = s.ports.res ∧
      (fgTransmit bytes (.echo a n) s).drv.busy = s.drv.busy := by
  obtain ⟨-, e⟩ | ⟨-, -, -, e⟩ | ⟨-, -, -, e⟩ | ⟨-, -, e⟩ :=
    fgTransmit_cases bytes (.echo a n) s <;> rw [e] <;> exact ⟨rfl, rfl⟩

/-- Settles O43: the step by the transport's answer, and by whether the byte is `CR`. -/
theorem lineReadTakesOneByte : Obligations.LineReadTakesOneByte := by
  intro s a n hs hturn hfg
  obtain ⟨f1, f2, f3, -, f4, -, -, -, f5, f6, -⟩ := rlByte_sendFrame a n s.beginStep
  refine ⟨_, step_readByte hturn hfg, f1, f2, f3, f4, f6, f5, ?_⟩
  have hnext : s.beginStep.nextRx = s.nextRx := rfl
  cases hans : s.nextRx with
  | error =>
    rw [rlByte_error a n (hnext.trans hans)]
    exact ⟨rfl, rfl, by simp, by simp, by simp, by simp, by simp, rfl⟩
  | ok b =>
    dsimp only
    by_cases hb : b = s.cfg.cr
    · rw [rlByte_cr a n (hnext.trans hans) hb, if_pos hb]
      exact ⟨storesAt_writeSpan hs.mem.1 (by simp), by
          simpa using (hs.inLine (by rw [hfg]; rfl)).1, by simp [Ports.quiet],
        rfl, by simp, by simp, by simp, rfl⟩
    · rw [rlByte_echo a n (hnext.trans hans) hb, if_neg hb]
      obtain ⟨hres, hbusy⟩ := fgTransmit_echo_res [b] a n (lineStored a b s.beginStep)
      refine ⟨storesAt_writeSpan hs.mem.1 ?_, ?_, ?_, fun hone => ?_⟩
      · rw [fgTransmit_mem]
        simp
      · rw [hbusy]
        simpa using (hs.inLine (by rw [hfg]; rfl)).1
      · rw [hres]
        simp [Ports.quiet]
      · have hone' : (lineStored a b s.beginStep).cfg.txFallbackSplit = false ∨
            (lineStored a b s.beginStep).txBusy = false := by simpa using hone
        refine ⟨transmitted_congr (fgTransmit_transmitted (by simpa using hs.ring) hone')
          (by simp) (by simp) (by simp) (by simp) (by simp) rfl rfl rfl, ?_⟩
        obtain ⟨-, -, hdrv, -⟩ := transmit_frame [b] (lineStored a b s.beginStep)
        rw [fgTransmit_one_step hone', afterTransmit]
        dsimp only
        rw [hdrv]
        simp

/-! ### The last step of a line read (41_reception.md R116) -/

/-- The last step has `CR` in the last slot of the line, the one stored or one written over it, and
transmits `CR LF`. -/
theorem rlFinish_eq (hs : s.Inv) {a n : Nat} {sawCR : Bool}
    (hfg : s.fg = .readLine a n (.finish sawCR)) : ∃ m,
      rlFinish a n sawCR s =
        fgTransmit [s.cfg.cr, s.cfg.lf] (.line (lineSlots n sawCR s)) { s with mem := m } ∧
      Memory.read m (a + lineSlots n sawCR s - 1) = s.cfg.cr ∧
      ∀ x, sawCR = true ∨ x ≠ a + n - 1 → Memory.read m x = Memory.read s.mem x := by
  have hok := (fgOk_readLine_finish hfg).1 hs.fg
  cases sawCR with
  | true =>
    obtain ⟨-, -, -, hread⟩ := hok
    exact ⟨s.mem, rfl, hread, fun _ _ => rfl⟩
  | false =>
    exact ⟨Memory.write s.mem (a + n - 1) s.cfg.cr, rfl, Memory.read_write_same _ hs.mem.1 _ _,
      fun x hx => Memory.read_write_other _ _ _ _ (hx.resolve_left Bool.false_ne_true)⟩

/-- Settles O44: the count is that of the line's slots, and the step ends the line read, or in the
split reading with a busy transport keeps the two bytes. -/
theorem lineReadEndsWithCarriageReturn : Obligations.LineReadEndsWithCarriageReturn := by
  intro s a n sawCR hs hturn hfg
  obtain ⟨m, e, hcr, hmem⟩ := rlFinish_eq (s := s.beginStep) (hs.begun _ _) hfg
  obtain ⟨hpos, hle, -⟩ := lineSlots_bounds hs hfg
  obtain ⟨f1, f2, f3, -, f4, -⟩ := rlFinish_sendFrame a n sawCR s.beginStep
  refine ⟨_, lineSlots n sawCR s, step_finishLine hturn hfg, hpos, hle, ?_, ?_, ?_, ?_, f2, f3, f1,
    f4, ?_, ?_⟩
  · rintro rfl
    rfl
  · rintro rfl
    rfl
  · rw [e, fgTransmit_mem]
    exact hcr
  · intro x hx
    rw [e, fgTransmit_mem]
    exact hmem x hx
  · intro hone
    obtain ⟨-, -, hdrv, -⟩ := transmit_frame [s.cfg.cr, s.cfg.lf] { s.beginStep with mem := m }
    have hsent := fgTransmit_transmitted (s := { s.beginStep with mem := m })
      (bytes := [s.cfg.cr, s.cfg.lf]) (call := .line (lineSlots n sawCR s)) hs.ring hone
    rw [e]
    refine ⟨?_, transmitted_congr hsent rfl rfl rfl rfl rfl rfl rfl rfl, ?_, ?_⟩ <;>
      rw [fgTransmit_one_step (by exact hone)]
    · rfl
    · exact congrArg (fun d : Driver => { d with busy := false }) hdrv
    · rfl
  · intro hsplit hb
    rw [e, fgTransmit_split (by exact hsplit) (by exact hb)]
    exact ⟨rfl, rfl, rfl, rfl, rfl, rfl⟩

/-! ### The split reading (42_transmission.md R135) -/

/-- What the enqueue of a refused span leaves: the span queued or not, and what the call asks for.
-/
theorem fgEnqueue_result {bytes : List Byte} (call : TxCall) (hr : s.ring.wf s.cfg.cap) :
    (bytes.length ≤ s.ring.free s.cfg.cap →
      (fgEnqueue bytes call s).ring.queue s.cfg.cap = s.ring.queue s.cfg.cap ++ bytes) ∧
    (s.ring.free s.cfg.cap < bytes.length → (fgEnqueue bytes call s).ring = s.ring) := by
  have ring : ∀ st u, (afterTransmit call st u).ring = u.ring := by
    intro st u
    obtain ⟨-, -, h, -⟩ := afterTransmit_frame call st u
    exact h
  rw [fgEnqueue_eq]
  refine ⟨fun hf => ?_, fun hf => ?_⟩
  · rw [if_neg (Nat.not_lt.2 hf), ring]
    exact Ring.queue_pushAll_of_free hr hf
  · rw [if_pos hf, ring]

/-- Settles O51: the attempt's step keeps the span, and the next one goes on as the call asks. -/
theorem splitTransmitTakesTwoSteps : Obligations.SplitTransmitTakesTwoSteps := by
  refine ⟨fun s a n i call hsplit hn hf hocc hcall => ?_,
    fun s a n b hs hsplit hturn hfg hans hb hocc => ?_, fun s bytes call hr hturn hfg => ?_⟩
  · rw [exec_send hn hf hcall, fgTransmit_split hsplit (txBusy_of_occupied hocc)]
    rfl
  · refine ⟨_, step_readByte hturn hfg, ?_⟩
    rw [rlByte_echo (s := s.beginStep) a n hans hb, fgTransmit_split (by simpa using hsplit)
      (by simpa using txBusy_of_occupied hocc)]
    exact ⟨rfl, storesAt_writeSpan hs.mem.1 (by simp), by simp, by simp, by simp, by simp, by simp,
      by simp [Ports.quiet]⟩
  · obtain ⟨-, -, harb, hxp, hobs, hmem, -⟩ := fgEnqueue_frame bytes call s.beginStep
    obtain ⟨hfits, hfull⟩ := fgEnqueue_result (s := s.beginStep) (bytes := bytes) call hr
    refine ⟨_, step_enqueue hturn hfg, hobs, hxp, harb, hmem, hfits, hfull, ?_⟩
    rw [fgEnqueue_eq, State.beginStep_ring, State.beginStep_cfg]
    cases call with
    | transmit => dsimp only; split <;> exact ⟨rfl, rfl, rfl⟩
    | writeSync n => dsimp only; split <;> exact ⟨rfl, rfl, rfl⟩
    | echo a n => dsimp only; split <;> exact ⟨rfl, rfl, rfl⟩
    | line stored => dsimp only; split <;> exact ⟨rfl, rfl, rfl⟩

end Sys2Proof.Machine

/-! SUPPORT. The two completion handlers (43_completion_events.md R144, R146) and the two orders of
their deliveries (60_exceptions.md R172). -/

namespace Sys2Proof.Machine

variable {s t u : State}

/-! ### The receive-complete handler -/

/-- What the delivery of a receive-complete event does in each of its cases: the byte is echoed, or
`LF` is sent for a `CR`, and all but the driver and the transport is kept (43_completion_events.md
R144, R149). -/
structure Received (c : Nat) (s t : State) : Prop where
  sent : transmitted (echoOf c s) s t
  cfg : t.cfg = s.cfg
  mem : t.mem = s.mem
  fg : t.fg = s.fg
  arb : t.arb = { s.arb with pendRxc := false }
  ghost : t.ghost = { s.ghost with xportUsed := true }
  env : t.env = s.env
  res : t.ports.res = s.ports.res
  runRefused : t.runRefused = s.runRefused

theorem afterByte_ghost (c : Nat) (s : State) (h : u.ghost.xportUsed = true) :
    (afterByte c s u).ghost = u.ghost := by
  obtain ⟨k, -, e⟩ | ⟨-, e⟩ := afterByte_cases c s u <;> rw [e]
  · simp
  · rw [show u.ghost = { u.ghost with xportUsed := u.ghost.xportUsed } from rfl, h]
    rfl

theorem received_spec (c : Nat) (hr : s.ring.wf s.cfg.cap) : Received c s (received c s) := by
  obtain ⟨krun, kcfg, -, -, -, kfg, kmem, kenv, -, kghost, kres, -⟩ :=
    transmit_frame (echoOf c s) (s.clearPending .rxc)
  exact {
    sent := transmitted_congr (transmit_transmitted (s := s.clearPending .rxc) (echoOf c s) hr)
      rfl rfl rfl rfl rfl (afterByte_wire _ _ _) (afterByte_txActive _ _ _) (afterByte_ring _ _ _)
    cfg := (afterByte_cfg _ _ _).trans kcfg
    mem := (afterByte_mem _ _ _).trans kmem
    fg := (afterByte_fg _ _ _).trans kfg
    arb := received_arb c s
    ghost := (afterByte_ghost _ _ (by rw [kghost])).trans kghost
    env := (afterByte_env _ _ _).trans kenv
    res := (afterByte_res _ _ _).trans kres
    runRefused := (afterByte_runRefused _ _ _).trans krun }

/-- What the handler leaves in the driver, of the armed address and of the notification count. -/
structure ReceptionIs (t : State) (d : Driver) (armed : Option Nat) (count : Nat) : Prop where
  drv : t.drv = d
  rxArmed : t.xp.rxArmed = armed
  cbCount : t.obs.cbCount = count

/-- The end of a reception with a given count (41_reception.md R122). -/
theorem ended_reception (hcfg : u.cfg = s.cfg) (hdrv : u.drv = s.drv)
    (hx : u.xp.rxArmed = s.xp.rxArmed) (hn : u.obs.cbCount = s.obs.cbCount) (k : Nat) :
    ReceptionIs (u.setCount k).endReception { s.drv with receivedCount := k, busy := false }
      s.xp.rxArmed (s.obs.cbCount + (if s.cfg.cbPresent then 1 else 0)) where
  drv := by simp [hdrv]
  rxArmed := by simpa using hx
  cbCount := by
    rw [State.endReception_obs, State.setCount_cfg, State.setCount_obs, hcfg]
    cases s.cfg.cbPresent
    · exact hn
    · exact congrArg (· + 1) hn

/-- On `CR` the reception ends (43_completion_events.md R144). -/
theorem received_cr {c : Nat} (hb : Memory.read s.mem c = s.cfg.cr) :
    ReceptionIs (received c s)
      { s.drv with receivedCount := countAfterCr s.cfg s.drv.receivedCount, busy := false }
      s.xp.rxArmed (s.obs.cbCount + (if s.cfg.cbPresent then 1 else 0)) := by
  obtain ⟨-, kcfg, kdrv, -, kx, -, -, -, kcount, -⟩ :=
    transmit_frame (echoOf c s) (s.clearPending .rxc)
  have e : received c s = _ := if_pos hb
  exact e ▸ ended_reception (s := s) kcfg kdrv kx kcount _

/-- Below the requested length the next address is armed (43_completion_events.md R144). -/
theorem received_more {c : Nat} (hb : Memory.read s.mem c ≠ s.cfg.cr)
    (hl : s.drv.receivedCount + 1 < s.drv.requestedLength) :
    ReceptionIs (received c s)
      { s.drv with receivedCount := s.drv.receivedCount + 1, cursor := some (c + 1) }
      (some (c + 1)) s.obs.cbCount := by
  obtain ⟨-, -, -, -, -, -, -, -, kcount, -⟩ := transmit_frame (echoOf c s) (s.clearPending .rxc)
  have e : received c s = _ := (if_neg hb).trans (if_pos hl)
  exact e ▸ ⟨rfl, rfl, kcount⟩

/-- At the requested length the reception ends (43_completion_events.md R144). -/
theorem received_last {c : Nat} (hb : Memory.read s.mem c ≠ s.cfg.cr)
    (hl : ¬ s.drv.receivedCount + 1 < s.drv.requestedLength) :
    ReceptionIs (received c s)
      { s.drv with receivedCount := s.drv.receivedCount + 1, busy := false }
      s.xp.rxArmed (s.obs.cbCount + (if s.cfg.cbPresent then 1 else 0)) := by
  obtain ⟨-, kcfg, kdrv, -, kx, -, -, -, kcount, -⟩ :=
    transmit_frame (echoOf c s) (s.clearPending .rxc)
  have e : received c s = _ := (if_neg hb).trans (if_neg hl)
  exact e ▸ ended_reception (s := s) kcfg kdrv kx kcount _

/-- A state with the invariants has its reception behind a deliverable receive-complete event. -/
theorem State.Inv.execEvRxc (h : s.Inv) (hie : s.arb.ie = true) (hp : s.arb.pendRxc = true)
    {c : Nat} (hc : s.drv.cursor = some c) : exec .evRxc s = .next (Machine.received c s) := by
  obtain ⟨hb, -, hx, -⟩ := h.pending hp
  exact execEvRxc_completes hp hie hb hc hx

/-- Settles O54: a byte that is not `CR` is echoed, and its count decides. -/
theorem receiveHandlerEchoesAndRearms : Obligations.ReceiveHandlerEchoesAndRearms := by
  intro s c hs hie hp hc hb
  obtain ⟨-, -, hx, -⟩ := hs.pending hp
  obtain ⟨hsent, hcfg, hmem, hfg, harb, hghost, henv, hres, hrun⟩ := received_spec c hs.ring
  rw [echoOf, if_neg hb] at hsent
  refine ⟨_, hs.execEvRxc hie hp hc, hsent, hcfg, hmem, hfg, harb, hghost, henv, hres, hrun,
    fun hl => ?_, fun hl => ?_⟩
  · obtain ⟨hdrv, hxp, hcount⟩ := received_more hb hl
    exact ⟨hdrv, hxp, hcount⟩
  · obtain ⟨hdrv, hxp, hcount⟩ := received_last hb hl.not_lt
    exact ⟨hdrv, hxp.trans hx, hcount⟩

/-- Settles O55: on `CR` one `LF` is sent and the reception ends. -/
theorem receiveHandlerEndsLineOnCarriageReturn :
    Obligations.ReceiveHandlerEndsLineOnCarriageReturn := by
  intro s c hs hie hp hc hb
  obtain ⟨-, -, hx, -⟩ := hs.pending hp
  obtain ⟨hsent, hcfg, hmem, hfg, harb, hghost, henv, hres, hrun⟩ := received_spec c hs.ring
  obtain ⟨hdrv, hxp, hcount⟩ := received_cr hb
  rw [echoOf, if_pos hb] at hsent
  exact ⟨_, hs.execEvRxc hie hp hc, hsent, hdrv, hxp.trans hx, hcount, hcfg, hmem, hfg, harb,
    hghost, henv, hres, hrun⟩

/-! ### The transmit-complete handler -/

/-- What the delivery of a transmit-complete event does, with bytes waiting or not
(43_completion_events.md R146, R147, R150). -/
structure Drained (s t : State) : Prop where
  cfg : t.cfg = s.cfg
  drv : t.drv = s.drv
  arb : t.arb = { s.arb with pendTxc := false }
  xp : t.xp = { s.xp with txActive := false }
  fg : t.fg = s.fg
  armed : t.ghost.armed = s.ghost.armed
  mem : t.mem = s.mem
  cbCount : t.obs.cbCount = s.obs.cbCount
  res : t.ports.res = s.ports.res
  rxDone : t.ports.rxDone = s.ports.rxDone
  runRefused : t.runRefused = s.runRefused
  ring : t.ring = { s.ring with head := s.ring.tail }
  wire : t.obs.wire = s.obs.wire ++ sentBytes s.nextTx (s.ring.queue s.cfg.cap)
  idle : s.ring.head = s.ring.tail →
    t.obs = s.obs ∧ t.ghost = s.ghost ∧ t.env = s.env ∧ t.ports = s.ports

theorem sentBytes_nil (r : BlockingTx) : sentBytes r [] = [] := by
  cases r with
  | ok => rfl
  | error k => exact List.take_nil

/-- With no byte waiting the handler only frees the transport. -/
theorem drained_idle (he : s.ring.head = s.ring.tail) : Drained s { s with
    arb := { s.arb with pendTxc := false }
    xp := { s.xp with txActive := false } } where
  cfg := rfl
  drv := rfl
  arb := rfl
  xp := rfl
  fg := rfl
  armed := rfl
  mem := rfl
  cbCount := rfl
  res := rfl
  rxDone := rfl
  runRefused := rfl
  ring := by rw [← he]
  wire := by rw [Ring.queue_eq_nil he, sentBytes_nil, List.append_nil]
  idle := fun _ => ⟨rfl, rfl, rfl, rfl⟩

/-- With bytes waiting the whole queue goes into one blocking transfer. -/
theorem drained_drain (hr : s.ring.wf s.cfg.cap) (hne : s.ring.head ≠ s.ring.tail) :
    Drained s (drain { s with
      arb := { s.arb with pendTxc := false }
      xp := { s.xp with txActive := false } }) := by
  rw [drain_eq (by exact hr) rfl]
  exact {
    cfg := by simp
    drv := by simp
    arb := by simp
    xp := by simp
    fg := by simp
    armed := by simp
    mem := by simp
    cbCount := rfl
    res := by simp
    rxDone := by simp
    runRefused := by simp
    ring := rfl
    wire := rfl
    idle := fun he => absurd he hne }

/-- A deliverable transmit-complete event is handled, whatever the transport answers. -/
theorem execEvTxc_drained (hr : s.ring.wf s.cfg.cap) (hie : s.arb.ie = true)
    (hp : s.arb.pendTxc = true) : ∃ t, exec .evTxc s = .next t ∧ Drained s t := by
  have hrun : exec .evTxc s = handleTxc (s.clearPending .txc) :=
    deliver_enabled (by simp [State.deliverable, State.txcDeliverable, hp, hie])
  rw [hrun, handleTxc]
  refine ⟨_, rfl, ?_⟩
  dsimp only
  rw [State.clearPending_txc_ring]
  split
  · next he => exact drained_idle (Ring.isEmpty_iff.1 he)
  · next he => exact drained_drain hr fun h => he (Ring.isEmpty_iff.2 h)

/-- Settles O57: the bytes that reach the wire are those the answer names. -/
theorem transmitHandlerDrainsTheQueue : Obligations.TransmitHandlerDrainsTheQueue := by
  intro s hr hie hp
  obtain ⟨t, hrun, h⟩ := execEvTxc_drained hr hie hp
  refine ⟨t, hrun, h.cfg, h.drv, h.arb, h.xp, h.fg, h.armed, h.mem, h.cbCount, h.res, h.rxDone,
    h.runRefused, h.ring, h.idle, fun _ => ?_⟩
  have hwire := h.wire
  cases hans : s.nextTx with
  | ok => rwa [hans] at hwire
  | error sent => rwa [hans] at hwire

/-! ### The two orders (60_exceptions.md R172) -/

/-- The handler's work on the reception depends on the driver, on caller memory and on the armed
address, not on the transmit side. -/
theorem received_reception_congr (c : Nat) (hcfg : u.cfg = s.cfg) (hmem : u.mem = s.mem)
    (hdrv : u.drv = s.drv) (hx : u.xp.rxArmed = s.xp.rxArmed) (hn : u.obs.cbCount = s.obs.cbCount) :
    (received c u).drv = (received c s).drv ∧
    (received c u).xp.rxArmed = (received c s).xp.rxArmed ∧
    (received c u).obs.cbCount = (received c s).obs.cbCount := by
  obtain ⟨d, armed, n, ⟨d1, x1, n1⟩, ⟨d2, x2, n2⟩⟩ : ∃ d armed n,
      ReceptionIs (received c u) d armed n ∧ ReceptionIs (received c s) d armed n := by
    by_cases hb : Memory.read s.mem c = s.cfg.cr
    · have h := received_cr (s := u) (c := c) (by rw [hmem, hcfg, hb])
      rw [hdrv, hcfg, hx, hn] at h
      exact ⟨_, _, _, h, received_cr hb⟩
    · have hb' : Memory.read u.mem c ≠ u.cfg.cr := by rwa [hmem, hcfg]
      by_cases hl : s.drv.receivedCount + 1 < s.drv.requestedLength
      · have h := received_more hb' (by rwa [hdrv])
        rw [hdrv, hn] at h
        exact ⟨_, _, _, h, received_more hb hl⟩
      · have h := received_last hb' (by rwa [hdrv])
        rw [hdrv, hcfg, hx, hn] at h
        exact ⟨_, _, _, h, received_last hb hl⟩
  exact ⟨d1.trans d2.symm, x1.trans x2.symm, n1.trans n2.symm⟩

theorem echoOf_congr (c : Nat) (hcfg : u.cfg = s.cfg) (hmem : u.mem = s.mem) :
    echoOf c u = echoOf c s := by
  unfold echoOf
  rw [hcfg, hmem]

theorem length_echoOf (c : Nat) (s : State) : (echoOf c s).length = 1 := by
  unfold echoOf
  split <;> rfl

/-- Receive first: the echo is queued behind the waiting bytes, and the drain sends them all. -/
theorem receive_then_drain (hp : s.arb.pendTxc = true)
    (hok : s.nextTx = .ok) (hfree : 1 ≤ s.ring.free s.cfg.cap) {c : Nat}
    (ht : Received c s t) (hu : Drained t u) :
    u.obs.wire = s.obs.wire ++ (s.ring.queue s.cfg.cap ++ echoOf c s) := by
  have hbusy : s.txBusy = true := txBusy_of_occupied (.inr hp)
  have hnext : t.nextTx = s.nextTx := by rw [State.nextTx, State.nextTx, ht.env]
  rw [hu.wire, hnext, hok, ht.cfg]
  obtain ⟨hb, -⟩ | ⟨-, -, hwire, -, -, hq⟩ | ⟨-, hf, -⟩ := ht.sent
  · exact nomatch hbusy.symm.trans hb
  · rw [hwire, hq]
    rfl
  · rw [length_echoOf] at hf
    omega

/-- Drain first: the waiting bytes go out, and the echo finds the transport free. -/
theorem drain_then_receive (hok : s.nextTx = .ok) {c : Nat} (ht : Drained s t)
    (hu : Received c t u) :
    u.obs.wire = s.obs.wire ++ (s.ring.queue s.cfg.cap ++ echoOf c s) ∧ u.ring = t.ring ∧
      u.xp.txActive = true := by
  have hfree : t.txBusy = false := by simp [State.txBusy, ht.xp, ht.arb]
  obtain ⟨-, hwire, hactive, hring⟩ | ⟨hb, -⟩ | ⟨hb, -⟩ := hu.sent
  · rw [hwire, ht.wire, hok, echoOf_congr c ht.cfg ht.mem, List.append_assoc]
    exact ⟨rfl, hring, hactive⟩
  · exact nomatch hfree.symm.trans hb
  · exact nomatch hfree.symm.trans hb

/-- The sending of a byte keeps the ring buffer well formed. -/
theorem received_ring_wf (c : Nat) (hr : s.ring.wf s.cfg.cap) :
    (received c s).ring.wf s.cfg.cap := by
  rw [received, afterByte_ring]
  exact (transmit_extends (echoOf c s) (s.clearPending .rxc)).2.1 hr

theorem Drained.queue_nil (h : Drained s t) (cap : Nat) : t.ring.queue cap = [] :=
  Ring.queue_eq_nil (by rw [h.ring])

/-- Settles O26: both orders send the waiting bytes and then the echo, and do the same to the
reception. -/
theorem eventOrdersAgree : Obligations.EventOrdersAgree := by
  intro s hs hie hp hpt hok hfree
  obtain ⟨hbusy, -, hx, hc⟩ := hs.pending hp
  obtain ⟨c, hc⟩ := Option.ne_none_iff_exists'.1 hc
  have ht := received_spec c hs.ring
  obtain ⟨t', hrun', ht'⟩ := execEvTxc_drained (s := received c s)
    (ht.cfg ▸ received_ring_wf c hs.ring) (by rw [ht.arb]; exact hie) (by rw [ht.arb]; exact hpt)
  obtain ⟨u, hrunu, hu⟩ := execEvTxc_drained hs.ring hie hpt
  have hring : u.ring.wf u.cfg.cap := by
    rw [hu.ring, hu.cfg]
    exact ⟨hs.ring.1, hs.ring.2.2, hs.ring.2.2⟩
  have hu' := received_spec c hring
  have hrunu' : exec .evRxc u = .next (received c u) :=
    execEvRxc_completes (by rw [hu.arb]; exact hp) (by rw [hu.arb]; exact hie)
      (by rw [hu.drv]; exact hbusy) (by rw [hu.drv]; exact hc) (by rw [hu.xp]; exact hx)
  obtain ⟨hdrv, hxp, hcount⟩ :=
    received_reception_congr c hu.cfg hu.mem hu.drv (by rw [hu.xp]) hu.cbCount
  obtain ⟨hwire, hring', hactive⟩ := drain_then_receive hok hu hu'
  have hwire' := receive_then_drain hpt hok hfree ht ht'
  refine ⟨received c s, t', u, received c u, hs.execEvRxc hie hp hc, hrun', hrunu, hrunu', ?_,
    ht'.queue_nil _, ?_, ht'.drv.trans hdrv.symm, ?_, ?_, ?_, by rw [ht'.xp], hactive⟩
  · have e : ∀ o o' : Obs, o.wire = o'.wire → o.cbCount = o'.cbCount → o = o' := by
      rintro ⟨w, n⟩ ⟨w', n'⟩ rfl rfl
      rfl
    exact e _ _ (hwire'.trans hwire.symm) (ht'.cbCount.trans hcount.symm)
  · rw [hring']
    exact hu.queue_nil _
  · rw [ht'.arb, ht.arb, hu'.arb, hu.arb]
  · rw [ht'.mem, ht.mem, hu'.mem, hu.mem]
  · rw [ht'.xp]
    exact hxp.symm

end Sys2Proof.Machine
